-- ==== Sys2Proof/Word.lean ====
section
/-! DEFINITION. The widths the spec gives its values (00_scope.md R9, R13): bytes, 16-bit indices,
3-bit positions of a bit within a byte, and the 4-bit event word (30_encoding.md R86). -/

namespace Sys2Proof

/-- `u8`: every byte the engine receives, sends or holds (R9). -/
abbrev Byte := BitVec 8

/-- `u16`, IDX_WIDTH = 16: byteIndex, a buffer's base and a buffer's length; sums and differences
wrap modulo 2^16 (R9, R13). -/
abbrev Index := BitVec 16

/-- `u3`: bitIndex, the position of a bit within its byte, bit 0 the least significant (R23). -/
abbrev BitPos := BitVec 3

/-- One event word: bits 3..2 the kind, bit 1 the level `p`, bit 0 the level `s` (R86). -/
abbrev EventWord := BitVec 4

end Sys2Proof
end

