-- ==== Sys2Proof/Syntax.lean ====
section
/-! DEFINITION. The operations of the engine, one constructor per row of spec/opcode_table.json:
five command rows, which run inside the step that completes a command byte, and four event rows,
which are the steps (00_scope.md R6, 30_encoding.md R84 to R87, 60_exceptions.md R213). -/

namespace Sys2Proof

/-- One row of the opcode table with its operands. -/
inductive Instr where
  /-- READ IDENTIFIER, code 0x33 (R161) -/
  | cmdReadIdentifier
  /-- SELECT ALL, code 0xCC (R162) -/
  | cmdSelectAll
  /-- READ MEMORY, code 0xF0, the row taken while `selected` is 1 (R163). Its two argument bytes
  are received after it and are no operands of the row. -/
  | cmdReadMemory
  /-- READ MEMORY, code 0xF0, the row taken while `selected` is 0 (R164) -/
  | cmdReadMemoryUnselected
  /-- any other code `c` (R165) -/
  | cmdUnrecognized (c : Byte)
  /-- EvLine(p, s): the level at handler entry and at the sampling point or handler end; false is
  0, the line low, and true is 1, the line released (R100) -/
  | evLine (p s : Bool)
  /-- EvOverflow (R141) -/
  | evOverflow
  /-- EvCompare (R144) -/
  | evCompare
  /-- an event word of the reserved kind (R87) -/
  | evReserved
  deriving DecidableEq, Repr

end Sys2Proof
end

