-- ==== Sys2Proof/WellFormed.lean ====
section
/-! DEFINITION. When an instruction is one the tables of 30_encoding.md can encode. -/

namespace Sys2Proof

/-- Well-formed: the code of an unrecognized command is none of the three the engine knows (R85).
Every other constructor's operands take every value. -/
def Instr.wf : Instr → Bool
  | .cmdReadIdentifier => true
  | .cmdSelectAll => true
  | .cmdReadMemory => true
  | .cmdReadMemoryUnselected => true
  | .cmdUnrecognized c => c != 0x33 && c != 0xCC && c != 0xF0
  | .evLine _ _ => true
  | .evOverflow => true
  | .evCompare => true
  | .evReserved => true

end Sys2Proof
end

