-- ==== Sys2Proof/Decode.lean ====
section
/-! DEFINITION. Decoding of the two kinds of input (30_encoding.md R81 to R87): the 4-bit event word
that starts a step and the 8-bit command byte that the framer completes; then the encoder. -/

namespace Sys2Proof

/-- Which of the engine's two inputs a word comes from. -/
inductive Channel where
  /-- the event port: one event word starts one step (R86) -/
  | event
  /-- the bus: a command byte completed in T[0], dispatched inside that step (R81) -/
  | command
  deriving DecidableEq, Repr

/-- Why bytes are no instruction. -/
inductive DecodeError where
  /-- there is no byte to decode -/
  | noBytes
  /-- an event word has four bits (R86); this byte has a bit above them -/
  | eventWordTooWide (b : Byte)
  /-- more bytes than the operation's frame has (R82, R89) -/
  | trailingBytes
  deriving DecidableEq, Repr

/-- What the opcode map R84, R85 says of a command byte. -/
inductive CommandCode where
  | readIdentifier
  | selectAll
  | readMemory
  | unrecognized
  deriving DecidableEq, Repr

/-- The opcode map: an exact 8-bit match of the three codes first, any other byte is unrecognized
(R84, R85). -/
def commandCode (c : Byte) : CommandCode :=
  if c = 0x33 then .readIdentifier
  else if c = 0xCC then .selectAll
  else if c = 0xF0 then .readMemory
  else .unrecognized

/-- The row a command byte takes. The two rows of code 0xF0 are told apart by `ctx.selected`, their
guard (R163, R164). -/
def decodeCommand (selected : Bool) (c : Byte) : Instr :=
  match commandCode c with
  | .readIdentifier => .cmdReadIdentifier
  | .selectAll => .cmdSelectAll
  | .readMemory => if selected then .cmdReadMemory else .cmdReadMemoryUnselected
  | .unrecognized => .cmdUnrecognized c

/-- The row an event word takes: bits 3..2 are the kind, bit 1 is `p` and bit 0 is `s`; the low two
bits of an overflow or compare word are ignored (R86), and kind 11 is reserved (R87). -/
def decodeEvent (w : EventWord) : Instr :=
  match w.getLsbD 3, w.getLsbD 2 with
  | false, false => .evLine (w.getLsbD 1) (w.getLsbD 0)
  | false, true => .evOverflow
  | true, false => .evCompare
  | true, true => .evReserved

/-- Decoding of the bytes of one input, total on any bytes. An event is one byte whose high four bits
are 0. A command is its code, alone or, for READ MEMORY, followed by the two argument bytes of its
frame (R82); the arguments do not change which row it is. -/
def decode (ch : Channel) (selected : Bool) (bytes : List Byte) : Except DecodeError Instr :=
  match ch, bytes with
  | _, [] => .error .noBytes
  | .event, [b] =>
    if b.toNat < 16 then .ok (decodeEvent (b.setWidth 4)) else .error (.eventWordTooWide b)
  | .event, _ => .error .trailingBytes
  | .command, [c] => .ok (decodeCommand selected c)
  | .command, [c, _, _] =>
    if commandCode c = .readMemory then .ok (decodeCommand selected c) else .error .trailingBytes
  | .command, _ => .error .trailingBytes

/-- The `n` lowest bytes of a number, least significant first. -/
def bytesOf : Nat → Nat → List Byte
  | 0, _ => []
  | n + 1, w => BitVec.ofNat 8 w :: bytesOf n (w / 256)

/-- Which input a table word is for: the table gives event rows four bits, so a word that fits in one
byte with its high four bits 0 is read as an event word, any other word as a command (a convention
of the model: the table numbers both kinds from bit 0). -/
def tableChannel (nbits w : Nat) : Channel :=
  if nbits ≤ 8 ∧ w < 16 then .event else .command

/-- The instruction the decoder reads from a table word of `nbits` bits. Code 0xF0 is read as its
first row, READ MEMORY with `selected` = 1. -/
def decodeTableWord (nbits w : Nat) : Option Instr :=
  match decode (tableChannel nbits w) true (bytesOf (max 1 ((nbits + 7) / 8)) (w % 2 ^ nbits)) with
  | .ok i => some i
  | .error _ => none

/-- An instruction's words as its input carries them. -/
structure Encoded where
  channel : Channel
  bytes : List Byte
  deriving DecidableEq, Repr

/-- The event word 00ps of EvLine(p, s) (R86). -/
def lineWord (p s : Bool) : EventWord :=
  (if p then 2 else 0) ||| (if s then 1 else 0)

/-- The encoder, from the opcode map R84 and the event words R86. An overflow, a compare and a reserved
word are written with their low two bits 0. -/
def encode : Instr → Encoded
  | .cmdReadIdentifier => ⟨.command, [0x33]⟩
  | .cmdSelectAll => ⟨.command, [0xCC]⟩
  | .cmdReadMemory => ⟨.command, [0xF0]⟩
  | .cmdReadMemoryUnselected => ⟨.command, [0xF0]⟩
  | .cmdUnrecognized c => ⟨.command, [c]⟩
  | .evLine p s => ⟨.event, [(lineWord p s).setWidth 8]⟩
  | .evOverflow => ⟨.event, [0x04]⟩
  | .evCompare => ⟨.event, [0x08]⟩
  | .evReserved => ⟨.event, [0x0C]⟩

/-- The value of `ctx.selected` under which the row is the one taken: READ MEMORY's two rows name it
in their guards, every other row is taken under both (R161 to R165). -/
def Instr.guardMet (selected : Bool) : Instr → Bool
  | .cmdReadMemory => selected
  | .cmdReadMemoryUnselected => !selected
  | .cmdReadIdentifier => true
  | .cmdSelectAll => true
  | .cmdUnrecognized _ => true
  | .evLine _ _ => true
  | .evOverflow => true
  | .evCompare => true
  | .evReserved => true

/-- One row of spec/opcode_table.json: a word `w` of the channel takes it when `w &&& mask = pattern`
(and no row above it does). -/
structure TableRow where
  mnemonic : String
  channel : Channel
  pattern : Byte
  mask : Byte
  deriving DecidableEq, Repr

/-- The row of the opcode table a constructor stands for, copied from the table. -/
def tableRow : Instr → TableRow
  | .cmdReadIdentifier => ⟨"CMD_READ_IDENTIFIER", .command, 0x33, 0xFF⟩
  | .cmdSelectAll => ⟨"CMD_SELECT_ALL", .command, 0xCC, 0xFF⟩
  | .cmdReadMemory => ⟨"CMD_READ_MEMORY", .command, 0xF0, 0xFF⟩
  | .cmdReadMemoryUnselected => ⟨"CMD_READ_MEMORY_UNSELECTED", .command, 0xF0, 0xFF⟩
  | .cmdUnrecognized _ => ⟨"CMD_UNRECOGNIZED", .command, 0x00, 0x00⟩
  | .evLine _ _ => ⟨"EV_LINE", .event, 0x0, 0xC⟩
  | .evOverflow => ⟨"EV_OVERFLOW", .event, 0x4, 0xC⟩
  | .evCompare => ⟨"EV_COMPARE", .event, 0x8, 0xC⟩
  | .evReserved => ⟨"EV_RESERVED", .event, 0xC, 0xC⟩

end Sys2Proof
end

