-- ==== Sys2Proof/Config.lean ====
section
/-! DEFINITION. What an implementation fixes (00_scope.md R7 to R11) and the free values of the
model (R14 `draw`). The opaque constants have no body: a claim holds whatever they are. -/

namespace Sys2Proof

namespace Config

/-- ID_LEN, the bytes of the identifier (R7). -/
def idLen : Nat := 8

/-- STORE_SIZE, the bytes of the persistent store (R8). -/
def storeSize : Nat := 128

/-- SCRATCH_SIZE: addressLow, addressHigh and the checksum byte (R9, R32). -/
def scratchSize : Nat := 3

/-- The transient space holds ctx.command and the scratch: four bytes (R60). -/
def transientSize : Nat := 1 + scratchSize

/-- The parameter ID: byte `i` of the identifier, a constant of the device for `i` below 8 (R7). -/
opaque identifier : Nat → Byte

/-- The parameter STORE: byte `i` of the persistent store as provisioning left it, for `i` below
128 (R8, R233 (3)). -/
opaque store : Nat → Byte

/-- The parameter CHECKSUM left open: any function of the bytes, deterministic and without state
(R11, R169). What a device whose `checksumFn` is not the default computes. -/
opaque checksum : List Byte → Byte

/-- FREE VALUE. `draw u8` of R14: the n-th byte drawn for a read the spec gives no value. -/
opaque draw : Nat → Byte

/-- FREE VALUE. The 16-bit fields of a poison active buffer, when one is read (R49). -/
opaque drawIndex : Nat → Index

/-- FREE VALUE. The 2-bit kind of a poison active buffer, when one is read (R49). -/
opaque drawKind : Nat → BitVec 2

/-- The OPEN timing parameters (R10, R146): the slot, the receive sampling delay, the transmit hold
time, the presence width, the timer's overflow period and the timer event latency. They are an
argument of the timed refinement; no rule of the untimed model reads them. -/
structure Timing where
  /-- T_SLOT, the master's bit time slot -/
  tSlot : Nat
  /-- T_SAMPLE, from a falling edge to the sampling point while Receiving -/
  tSample : Nat
  /-- T_HOLD, how long a transmitted 0 is held low -/
  tHold : Nat
  /-- T_PP, the presence-pulse width, the timer's compare duration (R36) -/
  tPp : Nat
  /-- T_RST, the reset threshold, the timer's overflow period (R36) -/
  tRst : Nat
  /-- E_TMR, the timer event latency -/
  eTmr : Nat
  deriving DecidableEq, Repr

/-- The master's own timing, which the constraints R238 to R240 compare with the device's. -/
structure MasterTiming where
  /-- how long a write-1 slot is held low -/
  write1Low : Nat
  /-- how long a write-0 slot is held low -/
  write0Low : Nat
  /-- from a read slot's falling edge to the master's sampling point -/
  samplePoint : Nat
  /-- how long a reset pulse is held low -/
  resetLow : Nat
  deriving DecidableEq, Repr

/-- The source's relative timing constraints, R238 (sampling window), R239 (hold window), R240
(reset threshold) and R241 (presence width, with the spec's own T_PP < T_RST). R239 asks for T_HOLD "with
margin before the slot's end" and gives no amount. DESIGN CHOICE, log entry 20 (safe): any positive margin
will do, `tHold < tSlot`. -/
def Timing.sound (t : Timing) (m : MasterTiming) : Prop :=
  (m.write1Low < t.tSample ∧ t.tSample < m.write0Low) ∧
  (m.samplePoint < t.tHold ∧ t.tHold < t.tSlot) ∧
  (m.write0Low < t.tRst ∧ t.tHold < t.tRst ∧ t.tRst + t.eTmr < m.resetLow) ∧
  (t.tHold < t.tPp ∧ t.tPp < t.tRst)

end Config

end Sys2Proof
end

