-- ==== Sys2Proof/Machine/State.lean ====
section
/-! DEFINITION. The state of the engine (10_state.md R20 to R37, 20_memory.md R60 to R62), its
power-on value (10_state.md R49, 70_reset_and_hazards.md R230), and the reasons a step could stop.
A step of this machine never stops: the hardware has no exceptions (60_exceptions.md R200) and every
anomaly of the spec's model is a sticky bit after which the step continues (R203). -/

namespace Sys2Proof.Machine

/-- `ctx.state : u3` (R21). The codes 5 to 7, which the spec refuses as ill-formed, have no
constructor here. -/
inductive Phase where
  | idle
  | reset
  | presence
  | receiving
  | transmitting
  deriving DecidableEq, Repr

/-- The u3 code of a state (R21). -/
def Phase.code : Phase → BitVec 3
  | .idle => 0
  | .reset => 1
  | .presence => 2
  | .receiving => 3
  | .transmitting => 4

/-- The state of a u3 code; the codes 5, 6 and 7 are refused (R21). -/
def Phase.ofCode (c : BitVec 3) : Option Phase :=
  match c.toNat with
  | 0 => some .idle
  | 1 => some .reset
  | 2 => some .presence
  | 3 => some .receiving
  | 4 => some .transmitting
  | _ => none

/-- `activeBuffer.kind : u2` (R27). Code 3 names no source: no rule writes it, and a read through it
raises F_INTERNAL (R63). -/
inductive SourceKind where
  | transient
  | identifier
  | persistent
  | noSource
  deriving DecidableEq, Repr

/-- The u2 code of a source kind (R27). -/
def SourceKind.code : SourceKind → BitVec 2
  | .transient => 0
  | .identifier => 1
  | .persistent => 2
  | .noSource => 3

/-- The source kind of a u2 code (R27). -/
def SourceKind.ofCode (c : BitVec 2) : SourceKind :=
  match c.toNat with
  | 0 => .transient
  | 1 => .identifier
  | 2 => .persistent
  | _ => .noSource

/-- `ctx.continuation : u2` (R29). -/
inductive Continuation where
  | none
  | dispatchCommand
  | computeChecksumAndRead
  | readMemory
  deriving DecidableEq, Repr

/-- The u2 code of a continuation (R29). -/
def Continuation.code : Continuation → BitVec 2
  | .none => 0
  | .dispatchCommand => 1
  | .computeChecksumAndRead => 2
  | .readMemory => 3

/-- `ctx.activeBuffer = (kind, base, len)` (R26). -/
structure Buffer where
  kind : SourceKind
  base : Index
  len : Index
  deriving DecidableEq, Repr

/-- A field whose power-on value is `poison` until a rule writes it (R49). Poison is the spec's own
value: reading it sets F_POISON_READ, gives a draw, and the step continues. -/
inductive Datum (α : Type) where
  | poison
  | val (v : α)
  deriving DecidableEq, Repr

/-- One change of the device's line driver, as a step's output shows it (R33, R50). -/
inductive DriverChange where
  | pullLow
  | release
  deriving DecidableEq, Repr

/-- The sticky model fault bits (R37, R203). They are the spec's model bits, not hardware (R204). -/
structure FaultBits where
  /-- F_OOB_READ, bit 0: a Persistent read at an index of 128 or more -/
  oobRead : Bool
  /-- F_RESERVED_EVENT, bit 1: an event word of the reserved kind -/
  reservedEvent : Bool
  /-- F_POISON_READ, bit 2: a read of a field or T byte nothing has written -/
  poisonRead : Bool
  /-- F_INTERNAL, bit 3: a read or write outside the spaces the rules use -/
  internal : Bool
  deriving DecidableEq, Repr

/-- The fault word of R203, bit 0 F_OOB_READ to bit 3 F_INTERNAL. -/
def FaultBits.word (f : FaultBits) : BitVec 4 :=
  (if f.oobRead then 1 else 0) ||| (if f.reservedEvent then 2 else 0) |||
    (if f.poisonRead then 4 else 0) ||| (if f.internal then 8 else 0)

/-- The parameter CHECKSUM (R11), as plain data. A claim about every state covers both, so it holds for
the spec's default and for any other function. -/
inductive ChecksumFunction where
  /-- the spec's default, the CRC-8 of R170 -/
  | crc8
  /-- any function: the opaque Config.checksum -/
  | uninterpreted
  deriving DecidableEq, Repr

/-- One of the three byte spaces of R60 to R62, as (index, byte) pairs. The canonical form is strictly
rising indices. An unlisted index reads as no value at all, so no entry can equal what an unlisted
index reads as: in the transient space it is a poison byte (R49). -/
abbrev Memory := List Host.Cell

/-- One event the environment brings: `dt` is the time since the one before it, 0 for an event that is
pending together with it (R207, R209), and `word` is its event word (R86). -/
structure Input where
  dt : Nat
  word : EventWord
  deriving DecidableEq, Repr

/-- The whole state. The first group is the protocol context (R20 to R32; ctx.command and ctx.scratch
are the bytes of `trans`, R60), the second the rest of the block (R33 to R37), the third the two
read-only sources (R61, R62) and the checksum parameter (R11), the fourth the timed refinement's clock (R146), the step's outputs
(R50) and the environment's pending events (R48), and last the counter of the draws (R14). -/
structure State where
  /-- ctx.state, u3 (R21) -/
  phase : Phase
  /-- ctx.lastLineLevel, u1: false is 0, pulled low; true is 1, released (R22) -/
  lastLineLevel : Bool
  /-- ctx.bitIndex, u3 (R23) -/
  bitIndex : BitPos
  /-- ctx.byteIndex, u16 (R24) -/
  byteIndex : Index
  /-- ctx.accumulator, u8 (R25) -/
  accumulator : Datum Byte
  /-- ctx.activeBuffer, u2 and two u16 (R26) -/
  activeBuffer : Datum Buffer
  /-- ctx.pendingDriveLow, u1 (R28) -/
  pendingDriveLow : Bool
  /-- ctx.continuation, u2 (R29) -/
  continuation : Continuation
  /-- ctx.selected, u1 (R30) -/
  selected : Bool
  /-- T[0..3]: ctx.command, then ctx.scratch (R31, R32, R60); an unlisted index is poison -/
  trans : Memory
  /-- drive, u1: true while the device pulls the line low; the output port dq_pull_o (R33, R46) -/
  drive : Bool
  /-- ovfArmed, u1; the output port tmr_ovf_en (R34, R46) -/
  ovfArmed : Bool
  /-- cmpArmed, u1; the output port tmr_cmp_en (R35, R46) -/
  cmpArmed : Bool
  /-- the sticky model fault bits (R37, R203) -/
  faults : FaultBits
  /-- ID[0..7], read-only (R61) -/
  ident : Memory
  /-- STORE[0..127], read-only to the engine (R62) -/
  store : Memory
  /-- the parameter CHECKSUM; no rule writes it (R11, R47, R169) -/
  checksumFn : ChecksumFunction
  /-- the time of the step, read only by the timed refinement (R146) -/
  now : Nat
  /-- tStart, the time of the last timer restart (R36, R146) -/
  tStart : Nat
  /-- the step restarted the timer; the output port tmr_restart (R46, R50) -/
  tmrRestart : Bool
  /-- the step's driver changes, oldest first (R50) -/
  emitted : List DriverChange
  /-- the events the environment brings, next first (R45, R48, R118) -/
  inputs : List Input
  /-- how many bytes have been drawn: the model's own counter for the free values (R14) -/
  draws : Nat
  deriving DecidableEq, Repr

/-- Reasons to stop with a fault: none. "No exceptions; all anomalies are handled by silent
protocol-level rejection or implicit reset" (R200), and the model fault bits of R203 are sticky bits
after which the step continues. -/
inductive Fault where
  deriving DecidableEq, Repr

/-- Reasons to refuse an instruction. -/
inductive Refusal where
  /-- An instruction of the table without a meaning here. No arm of exec raises it: every row has
  its meaning. Safe, since a refusal proves nothing. -/
  | notModelled (mnemonic : String)
  deriving DecidableEq, Repr

/-- The cells of a whole read-only space whose bytes are a parameter of the device. -/
def parameterCells (size : Nat) (byte : Nat → Byte) : Memory :=
  (List.range size).map fun i => (i, byte i)

/-- Power-on (R49, R230): Idle, the line released, the counters 0, nothing armed, nothing selected, no
fault bit; accumulator, activeBuffer and T[0..3] poison. ID and STORE hold the device's parameters
(R7, R8, R233 (3), (4)), and CHECKSUM is the spec's default (R11, R170, log entry 3). The clock fields, the outputs of no step, the empty list of events and
the draw counter are the model's own. -/
def State.reset : State where
  phase := .idle
  lastLineLevel := true
  bitIndex := 0
  byteIndex := 0
  accumulator := .poison
  activeBuffer := .poison
  pendingDriveLow := false
  continuation := .none
  selected := false
  trans := []
  drive := false
  ovfArmed := false
  cmpArmed := false
  faults := ⟨false, false, false, false⟩
  ident := parameterCells Config.idLen Config.identifier
  store := parameterCells Config.storeSize Config.store
  checksumFn := .crc8
  now := 0
  tStart := 0
  tmrRestart := false
  emitted := []
  inputs := []
  draws := 0

end Sys2Proof.Machine
end

