-- ==== Sys2Proof/Machine/Flags.lean ====
section
/-! DEFINITION. The flags: the sticky model fault bits (60_exceptions.md R203) and the rule that
computes pendingDriveLow (10_state.md R28). -/

namespace Sys2Proof.Machine

/-- `raise Fault(F_OOB_READ)` (R64). -/
def State.raiseOobRead (s : State) : State :=
  { s with faults := { s.faults with oobRead := true } }

/-- `raise Fault(F_RESERVED_EVENT)` (R87). -/
def State.raiseReservedEvent (s : State) : State :=
  { s with faults := { s.faults with reservedEvent := true } }

/-- `raise Fault(F_POISON_READ)` (R49). -/
def State.raisePoisonRead (s : State) : State :=
  { s with faults := { s.faults with poisonRead := true } }

/-- `raise Fault(F_INTERNAL)` (R63, R65). -/
def State.raiseInternal (s : State) : State :=
  { s with faults := { s.faults with internal := true } }

/-- `not v[i]`: whether bit `i` of the byte being sent needs the line pulled low (R28). -/
def pendingFor (v : Byte) (i : BitPos) : Bool :=
  !v.getLsbD i.toNat

end Sys2Proof.Machine
end

