-- ==== Sys2Proof/Machine/Operands.lean ====
section
/-! DEFINITION. The operand arithmetic of the engine: bit insertion (40_line_events.md R112), the READ
MEMORY offset (30_encoding.md R83) and the length that remains from it (42_commands.md R168). -/

namespace Sys2Proof.Machine

/-- `v[i] <- b` (R13, R112). -/
def setBit (v : Byte) (i : BitPos) (b : Bool) : Byte :=
  let one : Byte := 1#8 <<< i.toNat
  if b then v ||| one else v &&& ~~~one

/-- The 16-bit offset addressHigh ++ addressLow, `zext_16(T[2]) << 8 | zext_16(T[1])` (R68, R83). -/
def offsetOf (hi lo : Byte) : Index :=
  (hi.setWidth 16 <<< 8) ||| lo.setWidth 16

/-- `STORE_SIZE - o`, unsigned and modulo 2^16 (R168). -/
def remainingFrom (o : Index) : Index :=
  BitVec.ofNat 16 Config.storeSize - o

end Sys2Proof.Machine
end

