-- ==== Sys2Proof/Machine/Ops.lean ====
section
/-! DEFINITION. The named operations over memory, the data fields, the line driver and the timer, the
start of a receive, and the bus reset, which is the machine's one forced transfer of control
(60_exceptions.md R212; it has no exceptions and no return from one, R200, R211). -/

namespace Sys2Proof.Machine

/-- The byte a memory lists at an index; an unlisted index has no value. -/
def Memory.read : Memory → Nat → Option Byte
  | [], _ => none
  | (a, v) :: m, x => if a = x then some v else Memory.read m x

/-- Write one byte, keeping the indices strictly rising. -/
def Memory.write : Memory → Nat → Byte → Memory
  | [], x, v => [(x, v)]
  | (a, w) :: m, x, v =>
    if x < a then (x, v) :: (a, w) :: m
    else if x = a then (x, v) :: m
    else (a, w) :: Memory.write m x v

/-- The canonical form: indices strictly rising and inside the space. No entry equals what an unlisted
index reads as, since that is no value. -/
def Memory.wf (size : Nat) (m : Memory) : Bool :=
  decide ((m.map Prod.fst).Pairwise (· < ·)) && m.all fun c => decide (c.1 < size)

/-- `draw u8` (R14): a byte under no law, a fresh one each time. -/
def drawByte (s : State) : Byte × State :=
  (Config.draw s.draws, { s with draws := s.draws + 1 })

/-- A byte of a space, at an index inside it; one nothing has written is poison (R49, R63). -/
def readCell (m : Memory) (idx : Nat) (s : State) : Byte × State :=
  match m.read idx with
  | some v => (v, s)
  | none => drawByte s.raisePoisonRead

/-- `MemRead(kind, idx, 1)` (R63, R64). -/
def memRead (kind : SourceKind) (idx : Index) (s : State) : Byte × State :=
  match kind with
  | .transient =>
    if idx.toNat < Config.transientSize then readCell s.trans idx.toNat s
    else drawByte s.raiseInternal
  | .identifier =>
    if idx.toNat < Config.idLen then readCell s.ident idx.toNat s else drawByte s.raiseInternal
  | .persistent =>
    if idx.toNat < Config.storeSize then readCell s.store idx.toNat s else drawByte s.raiseOobRead
  | .noSource => drawByte s.raiseInternal

/-- The byte a space holds at an index, where it holds one: the model's read of one byte, without the
fault bits and draws of MemRead (R60 to R63). -/
def State.byteAt (s : State) (kind : SourceKind) (idx : Index) : Option Byte :=
  match kind with
  | .transient => if idx.toNat < Config.transientSize then s.trans.read idx.toNat else none
  | .identifier => if idx.toNat < Config.idLen then s.ident.read idx.toNat else none
  | .persistent => if idx.toNat < Config.storeSize then s.store.read idx.toNat else none
  | .noSource => none

/-- `MemWrite(Transient, idx, 1, v)`: outside T it raises F_INTERNAL and writes nothing (R65). -/
def memWrite (idx : Index) (v : Byte) (s : State) : State :=
  if idx.toNat < Config.transientSize then { s with trans := s.trans.write idx.toNat v }
  else s.raiseInternal

/-- ctx.command, the transient byte T[0] (R31). -/
def State.command (s : State) : Datum Byte :=
  match s.trans.read 0 with
  | some v => .val v
  | none => .poison

/-- ctx.scratch[i], the transient byte T[1 + i]: addressLow, addressHigh, checksum (R32). -/
def State.scratch (s : State) (i : Fin 3) : Datum Byte :=
  match s.trans.read (1 + i.val) with
  | some v => .val v
  | none => .poison

/-- Read ctx.accumulator; a poison one gives a draw and sets F_POISON_READ (R49). -/
def readAccumulator (s : State) : Byte × State :=
  match s.accumulator with
  | .val v => (v, s)
  | .poison => drawByte s.raisePoisonRead

/-- Read ctx.activeBuffer; a poison one gives drawn fields and sets F_POISON_READ (R49). -/
def readBuffer (s : State) : Buffer × State :=
  match s.activeBuffer with
  | .val b => (b, s)
  | .poison =>
    (⟨SourceKind.ofCode (Config.drawKind s.draws), Config.drawIndex s.draws,
      Config.drawIndex (s.draws + 1)⟩,
      { s.raisePoisonRead with draws := s.draws + 2 })

/-- `ctx.state <- p` (R21). -/
def State.setPhase (p : Phase) (s : State) : State :=
  { s with phase := p }

/-- `ctx.accumulator <- v` (R25). -/
def State.setAccumulator (v : Byte) (s : State) : State :=
  { s with accumulator := .val v }

/-- `ctx.pendingDriveLow <- p` (R28). -/
def State.setPending (p : Bool) (s : State) : State :=
  { s with pendingDriveLow := p }

/-- `ctx.bitIndex <- ctx.bitIndex + 1` (R112, R113). -/
def State.nextBit (s : State) : State :=
  { s with bitIndex := s.bitIndex + 1 }

/-- `ctx.bitIndex <- 0; ctx.byteIndex <- ctx.byteIndex + 1` (R112, R113). -/
def State.nextByte (s : State) : State :=
  { s with bitIndex := 0, byteIndex := s.byteIndex + 1 }

/-- The active buffer, both indices and the continuation of a transfer that starts (R114, R115). -/
def State.openBuffer (kind : SourceKind) (base len : Index) (c : Continuation) (s : State) : State :=
  { s with activeBuffer := .val ⟨kind, base, len⟩, bitIndex := 0, byteIndex := 0, continuation := c }

/-- `drive <- 1; emit PullLow` (R33, R50). -/
def State.pullLow (s : State) : State :=
  { s with drive := true, emitted := s.emitted ++ [.pullLow] }

/-- `drive <- 0; emit Release` (R33, R50). -/
def State.release (s : State) : State :=
  { s with drive := false, emitted := s.emitted ++ [.release] }

/-- `timer restart`: tStart becomes the time of the step, and the step's output says so (R46, R50,
R102, R146). -/
def State.restartTimer (s : State) : State :=
  { s with tStart := s.now, tmrRestart := true }

/-- StartReceive(base, len, c) (R114). -/
def State.startReceive (base len : Index) (c : Continuation) (s : State) : State :=
  { s with
    phase := .receiving
    activeBuffer := .val ⟨.transient, base, len⟩
    bitIndex := 0
    byteIndex := 0
    accumulator := .val 0
    pendingDriveLow := false
    continuation := c }

/-- `if drive == 1: drive <- 0; emit Release` (R107, R142). -/
def State.releaseIfDriven (s : State) : State :=
  if s.drive then s.release else s

/-- EnterReset() (R142): the bus reset abandons the exchange in progress, clears `selected`, releases
the driver and disarms both timer events. Nothing is saved and nothing returns to it (R212). -/
def State.enterReset (s : State) : State :=
  { s.releaseIfDriven with
    phase := .reset
    selected := false
    continuation := .none
    pendingDriveLow := false
    bitIndex := 0
    byteIndex := 0
    ovfArmed := false
    cmpArmed := false }

end Sys2Proof.Machine
end

