-- ==== Sys2Proof/Machine/Delivery.lean ====
section
/-! DEFINITION. How pending events reach the engine (60_exceptions.md R205 to R211): one event is one
step, and a pending level change goes before a pending timer event (R209). -/

namespace Sys2Proof.Machine

/-- The event a step takes: how long after the last arrival, its word, and the events left. -/
structure Delivery where
  dt : Nat
  word : EventWord
  rest : List Input
  deriving DecidableEq, Repr

/-- Is the word a level change (kind 00, R86)? -/
def isLineWord (w : EventWord) : Bool :=
  match decodeEvent w with
  | .evLine _ _ => true
  | .evOverflow => false
  | .evCompare => false
  | .evReserved => false
  | .cmdReadIdentifier => false
  | .cmdSelectAll => false
  | .cmdReadMemory => false
  | .cmdReadMemoryUnselected => false
  | .cmdUnrecognized _ => false

/-- The first level change among the events pending now (those that bring no further time), and the
events without it. -/
def takeLine : List Input → Option (EventWord × List Input)
  | [] => none
  | i :: is =>
    if i.dt = 0 then
      if isLineWord i.word then some (i.word, is)
      else (takeLine is).map fun found => (found.1, i :: found.2)
    else none

/-- The next event (R209, R118): the first one, unless it is no level change and a level change is
pending together with it; then that level change goes first and the other stays pending. -/
def nextDelivery : List Input → Option Delivery
  | [] => none
  | i :: is =>
    if isLineWord i.word then some ⟨i.dt, i.word, is⟩
    else
      match takeLine is with
      | none => some ⟨i.dt, i.word, is⟩
      | some found => some ⟨i.dt, found.1, { i with dt := 0 } :: found.2⟩

/-- The state in which a delivered event's rule runs: the time of the step, its outputs still empty
(R50), and the events left for later steps (R211). -/
def State.beginStep (d : Delivery) (s : State) : State :=
  { s with now := s.now + d.dt, tmrRestart := false, emitted := [], inputs := d.rest }

/-- Make one event word the next event, alone. -/
def State.placeEvent (w : EventWord) (s : State) : State :=
  { s with inputs := [⟨0, w⟩] }

/-- Put the engine one bit before the end of the command byte `c`: the seven bits received so far, and
the event that brings the last one (R106, R112). The very next step completes the byte and
dispatches it (R116, R160). `selected` is what the row's guard asks. -/
def State.placeCommand (selected : Bool) (c : Byte) (s : State) : State :=
  { s.startReceive 0 1 .dispatchCommand with
    bitIndex := 7
    accumulator := .val (setBit c 7 false)
    lastLineLevel := true
    selected := selected
    inputs := [⟨0, lineWord false (c.getLsbD 7)⟩] }

/-- Place a table word where the next step takes it (R86: an event word on the event port; R81: a
command byte on the bus). Code 0xF0 is placed as its first row, READ MEMORY with `selected` = 1. -/
def State.placeTableWord (nbits w : Nat) (s : State) : State :=
  match tableChannel nbits w with
  | .event => s.placeEvent (BitVec.ofNat 4 w)
  | .command =>
    s.placeCommand (s.selected || commandCode (BitVec.ofNat 8 w) == .readMemory) (BitVec.ofNat 8 w)

end Sys2Proof.Machine
end

