-- ==== Sys2Proof/Machine/Checksum.lean ====
section
/-! DEFINITION. The checksum primitive (42_commands.md R169) and its default, the CRC-8 of R170. -/

namespace Sys2Proof.Machine

/-- One bit of CRC8: `mix <- crc[0] xor v[0]; crc <- crc >> 1; if mix == 1: crc <- crc xor 0x8C`
(R170). -/
def crcBit (crc : Byte) (bit : Bool) : Byte :=
  if crc.getLsbD 0 != bit then (crc >>> 1) ^^^ 0x8C else crc >>> 1

/-- One byte of CRC8, its bits from bit 0 to bit 7 (R170). -/
def crcByte (crc v : Byte) : Byte :=
  [0, 1, 2, 3, 4, 5, 6, 7].foldl (fun c i => crcBit c (v.getLsbD i)) crc

/-- CRC8(bytes), from 0x00 with no final xor (R170). -/
def crc8 (bytes : List Byte) : Byte :=
  bytes.foldl crcByte 0x00

/-- CHECKSUM(bytes) (R11, R169): the parameter `f` applied to the bytes, with no state between calls.
The value of the default is PRESUMED: the spec marks it as general knowledge (log entry 3). -/
def checksum (f : ChecksumFunction) (bytes : List Byte) : Byte :=
  match f with
  | .crc8 => crc8 bytes
  | .uninterpreted => Config.checksum bytes

end Sys2Proof.Machine
end

