-- ==== Sys2Proof/Machine/Commands.lean ====
section
/-! DEFINITION. The command dispatcher (42_commands.md R160 to R168), the start of a transmit and the
continuations (40_line_events.md R115, R116), and the meanings of the five command rows. -/

namespace Sys2Proof.Machine

/-- StartTransmit(kind, base, len, c) (R115). `onEmpty` is the RunContinuation() that a transmit of
length 0 calls: which one it is depends on `c` alone, and the callers below pass it. -/
def State.startTransmit (onEmpty : State → State) (kind : SourceKind) (base len : Index)
    (c : Continuation) (s : State) : State :=
  let started := s.openBuffer kind base len c
  if len = 0 then onEmpty ((started.setPhase .idle).setPending false)
  else
    let first := memRead kind base (started.setPhase .transmitting)
    (first.2.setAccumulator first.1).setPending (pendingFor first.1 0)

/-- RunContinuation() where the continuation is None; the clearing of the continuation that every
RunContinuation() begins with (R116). -/
def State.runNone (s : State) : State :=
  { s with continuation := .none }

/-- READ_IDENTIFIER() (R161). -/
def State.readIdentifier (s : State) : State :=
  s.startTransmit State.runNone .identifier 0 8 .none

/-- SELECT_ALL() (R162). -/
def State.selectAll (s : State) : State :=
  { s with selected := true }.startReceive 0 1 .dispatchCommand

/-- READ_MEMORY(): honored if and only if `selected` is 1 when the command byte completes (R163,
R164). -/
def State.readMemoryCommand (s : State) : State :=
  if s.selected then s.startReceive 1 2 .computeChecksumAndRead else s

/-- UNRECOGNIZED(): nothing (R165). -/
def State.unrecognized (s : State) : State := s

/-- ReadMemoryStep(): send the store from the received offset to its end (R167, R168). -/
def State.readMemoryStep (s : State) : State :=
  let hi := memRead .transient 2 s
  let lo := memRead .transient 1 hi.2
  let o := offsetOf hi.1 lo.1
  lo.2.startTransmit State.runNone .persistent o (remainingFrom o) .none

/-- RunContinuation() where the continuation is ReadMemory (R116). -/
def State.runReadMemory (s : State) : State :=
  s.runNone.readMemoryStep

/-- ComputeChecksumAndRead(): the checksum of {command, addressLow, addressHigh} goes to T[3] and is
sent from there (R166). -/
def State.computeChecksumAndRead (s : State) : State :=
  let command := memRead .transient 0 s
  let lo := memRead .transient 1 command.2
  let hi := memRead .transient 2 lo.2
  let crc := checksum s.checksumFn [command.1, lo.1, hi.1]
  (memWrite 3 crc hi.2).startTransmit State.runReadMemory .transient 3 1 .readMemory

/-- Dispatch(): the command byte T[0] through the opcode map (R160). -/
def State.dispatch (s : State) : State :=
  let command := memRead .transient 0 s
  match commandCode command.1 with
  | .readIdentifier => command.2.readIdentifier
  | .selectAll => command.2.selectAll
  | .readMemory => command.2.readMemoryCommand
  | .unrecognized => command.2.unrecognized

/-- RunContinuation(): the continuation is cleared before it runs, so it runs at most once (R44,
R116). -/
def State.runContinuation (s : State) : State :=
  match s.continuation with
  | .none => s.runNone
  | .dispatchCommand => s.runNone.dispatch
  | .computeChecksumAndRead => s.runNone.computeChecksumAndRead
  | .readMemory => s.runReadMemory

/-- CMD_READ_IDENTIFIER (R161). -/
def execCmdReadIdentifier (s : State) : Host.Outcome State Fault Refusal :=
  .next s.readIdentifier

/-- CMD_SELECT_ALL (R162). -/
def execCmdSelectAll (s : State) : Host.Outcome State Fault Refusal :=
  .next s.selectAll

/-- CMD_READ_MEMORY: the procedure of code 0xF0, whose guard this row names is `selected` = 1 (R163). -/
def execCmdReadMemory (s : State) : Host.Outcome State Fault Refusal :=
  .next s.readMemoryCommand

/-- CMD_READ_MEMORY_UNSELECTED: the procedure of code 0xF0, whose guard this row names is `selected` = 0
(R164). -/
def execCmdReadMemoryUnselected (s : State) : Host.Outcome State Fault Refusal :=
  .next s.readMemoryCommand

/-- CMD_UNRECOGNIZED: the code is ignored (R165). -/
def execCmdUnrecognized (_c : Byte) (s : State) : Host.Outcome State Fault Refusal :=
  .next s.unrecognized

end Sys2Proof.Machine
end

