-- ==== Sys2Proof/Machine/LineEvents.lean ====
section
/-! DEFINITION. The edge detector and the framer: the line event in every state and at every edge
(40_line_events.md R100 to R120). -/

namespace Sys2Proof.Machine

/-- FallPrologue(): restart the timer and arm its overflow (R102). -/
def State.fallPrologue (s : State) : State :=
  { s.restartTimer with ovfArmed := true }

/-- RisePrologue(): the line is high, a pending reset measurement is cancelled (R108). -/
def State.risePrologue (s : State) : State :=
  { s with lastLineLevel := true, ovfArmed := false }

/-- Reconcile(level): lastLineLevel follows the pin at the end of the handler, and a line that rose
during the handler disarms the overflow (R117). -/
def State.reconcile (level : Bool) (s : State) : State :=
  { s with lastLineLevel := level, ovfArmed := if level then false else s.ovfArmed }

/-- RxBit(b) (R112). -/
def State.rxBit (b : Bool) (s : State) : State :=
  let acc := readAccumulator s
  let byte := setBit acc.1 s.bitIndex b
  if s.bitIndex = 7 then
    let buffer := readBuffer (acc.2.setAccumulator byte)
    let stored := memWrite (buffer.1.base + s.byteIndex) byte buffer.2
    let advanced := (stored.setAccumulator 0).nextByte
    if advanced.byteIndex = buffer.1.len then (advanced.setPhase .idle).runContinuation
    else advanced
  else (acc.2.setAccumulator byte).nextBit

/-- TxAdvance() (R113). -/
def State.txAdvance (s : State) : State :=
  if s.bitIndex = 7 then
    let buffer := readBuffer s.nextByte
    if buffer.2.byteIndex = buffer.1.len then
      ((buffer.2.setPhase .idle).setPending false).runContinuation
    else
      let byte := memRead buffer.1.kind (buffer.1.base + buffer.2.byteIndex) buffer.2
      (byte.2.setAccumulator byte.1).setPending (pendingFor byte.1 0)
  else
    let acc := readAccumulator s.nextBit
    acc.2.setPending (pendingFor acc.1 acc.2.bitIndex)

/-- The driver in a transmitted slot: a 0 bit pulls the line low for the hold time and releases it, a
1 bit leaves it alone (R107). -/
def State.sendBit (s : State) : State :=
  (if s.pendingDriveLow then s.pullLow else s).releaseIfDriven

/-- Falling edge in Idle: no bit is taken (R103). -/
def State.fallIdle (s : State) : State :=
  { s.fallPrologue with lastLineLevel := false }

/-- Falling edge in Reset (R104). -/
def State.fallReset (s : State) : State :=
  { s.fallPrologue with lastLineLevel := false }

/-- Falling edge in Presence: no timer restart, no bit (R105). -/
def State.fallPresence (s : State) : State :=
  { s with lastLineLevel := false }

/-- Falling edge in Receiving: the level at the sampling point is the bit received (R106). -/
def State.fallReceiving (level : Bool) (s : State) : State :=
  (s.fallPrologue.rxBit level).reconcile level

/-- Falling edge in Transmitting: one bit is sent and the next one made ready (R107). -/
def State.fallTransmitting (level : Bool) (s : State) : State :=
  s.fallPrologue.sendBit.txAdvance.reconcile level

/-- Rising edge in Reset: the presence pulse starts (R109). -/
def State.riseReset (s : State) : State :=
  { s.risePrologue.pullLow.restartTimer with
    cmpArmed := true, phase := .presence, lastLineLevel := false }

/-- Rising edge in Presence: the pulse continues (R110). -/
def State.risePresence (s : State) : State :=
  { s with lastLineLevel := true }

/-- A falling edge, by state (R103 to R107). -/
def State.fallingEdge (level : Bool) (s : State) : State :=
  match s.phase with
  | .idle => s.fallIdle
  | .reset => s.fallReset
  | .presence => s.fallPresence
  | .receiving => s.fallReceiving level
  | .transmitting => s.fallTransmitting level

/-- A rising edge, by state (R109 to R111). -/
def State.risingEdge (s : State) : State :=
  match s.phase with
  | .reset => s.riseReset
  | .presence => s.risePresence
  | .idle => s.risePrologue
  | .receiving => s.risePrologue
  | .transmitting => s.risePrologue

/-- EV_LINE: the new level is the pin level `p`; an event whose `p` is the level already known is no
transition and changes nothing (R101, R119). `smp` is the level `s` of R100. -/
def execEvLine (p smp : Bool) (s : State) : Host.Outcome State Fault Refusal :=
  if p = s.lastLineLevel then .next s
  else if p then .next s.risingEdge
  else .next (s.fallingEdge smp)

end Sys2Proof.Machine
end

