-- ==== Sys2Proof/Machine/TimerEvents.lean ====
section
/-! DEFINITION. The timer's two events (41_timer_events.md R140 to R148) and the reserved event word
(30_encoding.md R87). -/

namespace Sys2Proof.Machine

/-- EV_OVERFLOW (R141): taken only while the overflow is armed; with the line low since the last
falling edge it is a bus reset. A strobe while it is not armed is not accepted (R45) and changes
nothing: "the event is not enabled and there is no step". -/
def execEvOverflow (s : State) : Host.Outcome State Fault Refusal :=
  if s.ovfArmed then
    let taken : State := { s with ovfArmed := false }
    if s.lastLineLevel then .next taken else .next taken.enterReset
  else .next s

/-- EV_COMPARE (R144): taken only while the compare is armed; in Presence it ends the pulse and starts
the command receive. A strobe while it is not armed is not accepted (R45) and changes nothing. -/
def execEvCompare (s : State) : Host.Outcome State Fault Refusal :=
  if s.cmpArmed then
    let taken : State := { s with cmpArmed := false }
    match s.phase with
    | .presence => .next ({ taken.release with phase := .idle }.startReceive 0 1 .dispatchCommand)
    | .idle => .next taken
    | .reset => .next taken
    | .receiving => .next taken
    | .transmitting => .next taken
  else .next s

/-- EV_RESERVED: sets F_RESERVED_EVENT and changes nothing else (R87). -/
def execEvReserved (s : State) : Host.Outcome State Fault Refusal :=
  .next s.raiseReservedEvent

end Sys2Proof.Machine
end

