-- ==== Sys2Proof/Machine/Dispatch.lean ====
section
/-! DEFINITION. The meaning of every instruction, one arm per constructor of Instr. -/

namespace Sys2Proof.Machine

def exec (i : Instr) (s : State) : Host.Outcome State Fault Refusal :=
  match i with
  | .cmdReadIdentifier => Sys2Proof.Machine.execCmdReadIdentifier s
  | .cmdSelectAll => Sys2Proof.Machine.execCmdSelectAll s
  | .cmdReadMemory => Sys2Proof.Machine.execCmdReadMemory s
  | .cmdReadMemoryUnselected => Sys2Proof.Machine.execCmdReadMemoryUnselected s
  | .cmdUnrecognized c => Sys2Proof.Machine.execCmdUnrecognized c s
  | .evLine p smp => Sys2Proof.Machine.execEvLine p smp s
  | .evOverflow => Sys2Proof.Machine.execEvOverflow s
  | .evCompare => Sys2Proof.Machine.execEvCompare s
  | .evReserved => Sys2Proof.Machine.execEvReserved s

end Sys2Proof.Machine
end

