-- ==== Sys2Proof/Machine/Step.lean ====
section
/-! DEFINITION. One step: one event, run to completion (00_scope.md R6). -/

namespace Sys2Proof.Machine

/-- One step (R6, R88, R208): the next pending event's word is decoded and its meaning runs to
completion. With no event the engine waits, which changes no engine state (R218). -/
def step (s : State) : Host.Outcome State Fault Refusal :=
  match nextDelivery s.inputs with
  | none => .next s
  | some d => exec (decodeEvent d.word) (s.beginStep d)

/-- The state with a table word placed so that the very next step runs it (log entry 9). -/
def State.withFetchWord (s : State) (nbits w : Nat) : State :=
  s.placeTableWord nbits w

end Sys2Proof.Machine
end

