-- ==== Sys2Proof/Machine/Timed.lean ====
section
/-! DEFINITION. The timed refinement (41_timer_events.md R146, 70_reset_and_hazards.md R238 to R241): which
steps of the untimed machine a timing allows. No rule of the untimed machine reads any of this. -/

namespace Sys2Proof.Machine

/-- An event is enabled at the time of the step: a timer event only when armed and when its time since
the last timer restart has come (R140, R146); the level-change source always (R206). -/
def timedEnabled (t : Config.Timing) (i : Instr) (s : State) : Bool :=
  match i with
  | .evOverflow => s.ovfArmed && decide (s.tStart + t.tRst ≤ s.now)
  | .evCompare => s.cmpArmed && decide (s.tStart + t.tPp ≤ s.now)
  | .evLine _ _ => true
  | .evReserved => true
  | .cmdReadIdentifier => true
  | .cmdSelectAll => true
  | .cmdReadMemory => true
  | .cmdReadMemoryUnselected => true
  | .cmdUnrecognized _ => true

/-- No armed timer event is later than its latency allows (R146). -/
def withinDeadlines (t : Config.Timing) (s : State) : Bool :=
  (!s.ovfArmed || decide (s.now ≤ s.tStart + t.tRst + t.eTmr)) &&
    (!s.cmpArmed || decide (s.now ≤ s.tStart + t.tPp + t.eTmr))

/-- A step the timed model admits: the event it takes is enabled at its time and no deadline has passed
before it (R146). -/
def timedStep (t : Config.Timing) (s s' : State) : Prop :=
  ∃ d, nextDelivery s.inputs = some d ∧
    timedEnabled t (decodeEvent d.word) (s.beginStep d) = true ∧
    withinDeadlines t (s.beginStep d) = true ∧
    step s = .next s'

end Sys2Proof.Machine
end

