-- ==== Sys2Proof/Machine/Script.lean ====
section
/-! DEFINITION. The bus-script notation (30_encoding.md R90) as event words, and what a master observes
of a slot (10_state.md R50). -/

namespace Sys2Proof.Machine

/-- `RST`: reset pulse, presence pulse, line back high. -/
def scriptRst : List EventWord := [0x0, 0x4, 0x3, 0x8, 0x3]

/-- `W1` and `W0`: a master write slot. -/
def scriptWriteBit (b : Bool) : List EventWord := [if b then 0x1 else 0x0, 0x3]

/-- `W8 b`: eight write slots, least significant bit first. -/
def scriptW8 (b : Byte) : List EventWord :=
  (List.range 8).flatMap fun i => scriptWriteBit (b.getLsbD i)

/-- `CMD c`. -/
def scriptCmd (c : Byte) : List EventWord := scriptW8 c

/-- `R`: a master read slot. -/
def scriptRead : List EventWord := [0x1, 0x3]

/-- What the master reads in a slot from the outputs of its first step: 0 if the device pulled the line
low, else 1 (R50). -/
def slotValue (emitted : List DriverChange) : Bool := !emitted.contains .pullLow

/-- One step of the machine on one event word, no other event being pending. -/
def stepWord (w : EventWord) (s : State) : Option State :=
  match step (s.placeEvent w) with
  | .next t => some t
  | .fault _ => none
  | .refused _ => none

/-- The event words one after another, each as its own step. -/
def stepWords : List EventWord → State → Option State
  | [], s => some s
  | w :: ws, s => (stepWord w s).bind (stepWords ws)

/-- `R`: the value read, and the state after the slot. -/
def readSlot (s : State) : Option (Bool × State) :=
  (stepWord 0x1 s).bind fun t => (stepWord 0x3 t).map fun u => (slotValue t.emitted, u)

/-- `n` read slots: the values, first slot first. -/
def readSlots : Nat → State → Option (List Bool × State)
  | 0, s => some ([], s)
  | n + 1, s =>
    (readSlot s).bind fun first => (readSlots n first.2).map fun later => (first.1 :: later.1, later.2)

/-- The byte whose bit `i` is the `i`-th value (R67, R90). -/
def byteOfBits (bits : List Bool) : Byte :=
  (bits.zipIdx.foldl (fun v b => setBit v (BitVec.ofNat 3 b.2) b.1) (0 : Byte))

/-- `R8`: eight read slots as a byte. -/
def readByte (s : State) : Option (Byte × State) :=
  (readSlots 8 s).map fun r => (byteOfBits r.1, r.2)

/-- `R8xN`. -/
def readBytes : Nat → State → Option (List Byte × State)
  | 0, s => some ([], s)
  | n + 1, s =>
    (readByte s).bind fun first => (readBytes n first.2).map fun later => (first.1 :: later.1, later.2)

end Sys2Proof.Machine
end

