-- ==== Sys2Proof/Safety.lean ====
section
/-! DEFINITION. What counts as a good state and a good run: the invariants the spec states
(10_state.md R41), the stronger invariant every step keeps, the end of an exchange
(70_reset_and_hazards.md R245), the boot requirements (R233) and the named premise on the bus
(R246). -/

namespace Sys2Proof.Machine

/-- The invariants R41 (a) to (g), in the spec's order. -/
structure RuleInvariants (s : State) : Prop where
  /-- (a) bitIndex is 0 to 7 -/
  bitRange : s.bitIndex.toNat ≤ 7
  /-- (b) while Receiving or Transmitting, byteIndex is inside the buffer -/
  byteInBuffer : s.phase = .receiving ∨ s.phase = .transmitting →
    ∃ b, s.activeBuffer = .val b ∧ s.byteIndex.toNat < b.len.toNat
  /-- (c) while Receiving, the buffer is transient, (0, 1) or (1, 2) -/
  receiveBuffer : s.phase = .receiving →
    s.activeBuffer = .val ⟨.transient, 0, 1⟩ ∨ s.activeBuffer = .val ⟨.transient, 1, 2⟩
  /-- (d) while Transmitting, pendingDriveLow is the current bit inverted, and the accumulator is the
  byte at base + byteIndex when the read is in range -/
  transmitBit : s.phase = .transmitting →
    ∃ b v, s.activeBuffer = .val b ∧ s.accumulator = .val v ∧
      s.pendingDriveLow = (!v.getLsbD s.bitIndex.toNat) ∧
      ∀ x, s.byteAt b.kind (b.base + s.byteIndex) = some x → v = x
  /-- (e) the device drives the line exactly in Presence -/
  driveIffPresence : s.drive = true ↔ s.phase = .presence
  /-- (f) the compare is armed only in Presence, and there the overflow is not -/
  timerArming : (s.cmpArmed = true → s.phase = .presence) ∧ (s.phase = .presence → s.ovfArmed = false)
  /-- (g) while Idle, no continuation is pending -/
  idleNoContinuation : s.phase = .idle → s.continuation = .none

/-- The three spaces have their canonical form, and the two read-only ones hold every byte (R60 to R62,
R72). -/
def SpacesWf (s : State) : Prop :=
  s.trans.wf Config.transientSize = true ∧
  s.ident.wf Config.idLen = true ∧ s.ident.length = Config.idLen ∧
  s.store.wf Config.storeSize = true ∧ s.store.length = Config.storeSize

/-- What a receive in progress is: the command byte, or READ MEMORY's two address bytes after its
command byte, with the device selected (R114, R163). -/
def ReceiveShape (s : State) : Prop :=
  (s.activeBuffer = .val ⟨.transient, 0, 1⟩ ∧ s.continuation = .dispatchCommand ∧ s.byteIndex = 0) ∨
  (s.activeBuffer = .val ⟨.transient, 1, 2⟩ ∧ s.continuation = .computeChecksumAndRead ∧
    s.selected = true ∧ s.trans.read 0 ≠ none ∧
    (s.byteIndex = 0 ∨ (s.byteIndex = 1 ∧ s.trans.read 1 ≠ none)))

/-- What a transmit in progress is: the identifier, the checksum byte, or the store from an offset to
its end; the last two only of a selected device (R161, R166, R167). -/
def TransmitShape (s : State) : Prop :=
  (s.activeBuffer = .val ⟨.identifier, 0, 8⟩ ∧ s.continuation = .none) ∨
  (s.activeBuffer = .val ⟨.transient, 3, 1⟩ ∧ s.continuation = .readMemory ∧ s.selected = true ∧
    s.trans.read 1 ≠ none ∧ s.trans.read 2 ≠ none ∧ s.trans.read 3 ≠ none) ∨
  (∃ o, s.activeBuffer = .val ⟨.persistent, o, remainingFrom o⟩ ∧ s.continuation = .none ∧
    s.selected = true)

/-- The invariant every step keeps: R41's and what its preservation takes. -/
structure Inv (s : State) : Prop where
  /-- R41 (a) to (g) -/
  rules : RuleInvariants s
  /-- the memories keep their form -/
  spaces : SpacesWf s
  /-- a high line has no armed overflow (R141, its corner cases) -/
  highDisarmed : s.lastLineLevel = true → s.ovfArmed = false
  /-- in Reset the line is low (R104, its corner case) -/
  resetLow : s.phase = .reset → s.lastLineLevel = false
  /-- in Presence the compare is armed, so the pulse ends (R109) -/
  presenceArmed : s.phase = .presence → s.cmpArmed = true
  /-- only a transmit has a bit to drive (R28) -/
  pendingOnlySending : s.phase ≠ .transmitting → s.pendingDriveLow = false
  /-- only a receive or a transmit has a continuation (R29) -/
  continuationOnlyBusy : s.phase ≠ .receiving → s.phase ≠ .transmitting → s.continuation = .none
  /-- a receive has its byte under construction and its shape -/
  receive : s.phase = .receiving → (∃ v, s.accumulator = .val v) ∧ ReceiveShape s
  /-- a transmit has its shape -/
  transmit : s.phase = .transmitting → TransmitShape s

/-- The end of an exchange: quiescent (R245). -/
def quiescent (s : State) : Prop :=
  s.phase = .idle ∧ s.continuation = .none ∧ s.drive = false ∧ s.ovfArmed = false ∧
    s.cmpArmed = false ∧ s.lastLineLevel = true

/-- What must hold before the first event (R233), of the items the state shows: the timer events
disarmed (1), the line released (2), both parameters in place (3), (4), and the context at its
power-on values (5). -/
def bootReady (s : State) : Prop :=
  s.ovfArmed = false ∧ s.cmpArmed = false ∧ s.drive = false ∧
  (s.ident.wf Config.idLen = true ∧ s.ident.length = Config.idLen) ∧
  (s.store.wf Config.storeSize = true ∧ s.store.length = Config.storeSize) ∧
  s.phase = .idle ∧ s.lastLineLevel = true ∧ s.bitIndex = 0 ∧ s.byteIndex = 0 ∧
  s.accumulator = .poison ∧ s.activeBuffer = .poison ∧ s.pendingDriveLow = false ∧
  s.continuation = .none ∧ s.selected = false ∧ s.trans = []

/-- The store is provisioned: its first byte is not in the erased state, all bits set (R233 (3)). -/
def provisioned (s : State) : Prop :=
  s.store.read 0 ≠ some 0xFF

/-- A named premise on the environment (R246): it brings no reserved event word. -/
def noReservedWord (is : List Input) : Prop :=
  ∀ i ∈ is, decodeEvent i.word ≠ .evReserved

/-- A named premise on the environment (R246): no overflow is taken, the events of normal slots alone
(R240). The third premise there, that no two slots' edges merge, is on the line and not on the events: an
edge that is lost brings no event and leaves no trace in the state (R48, R242). -/
def noOverflow (is : List Input) : Prop :=
  ∀ i ∈ is, decodeEvent i.word ≠ .evOverflow

/-- A run the spec gives every value of: no model fault bit is set (R204). -/
def faultFree (s : State) : Prop :=
  s.faults.word = 0

end Sys2Proof.Machine
end

