-- ==== Sys2Proof/Certificates/Slice0/Obligations.lean ====
section
/-! DEFINITION. The statements for the provers. Equations `exec i s = .next { s with … }` say the whole
frame: every field not named keeps its value. Bytes are read through `Memory.read` and
`State.byteAt`. -/

open Sys2Proof Sys2Proof.Machine

/-- R230: the power-on state, and that the first step is whatever event comes first. -/
def Obligations.PowerOnState : Prop :=
  (State.reset.phase = .idle ∧ State.reset.lastLineLevel = true ∧ State.reset.bitIndex = 0 ∧
    State.reset.byteIndex = 0 ∧ State.reset.pendingDriveLow = false ∧
    State.reset.continuation = .none ∧ State.reset.selected = false ∧ State.reset.drive = false ∧
    State.reset.ovfArmed = false ∧ State.reset.cmpArmed = false ∧ State.reset.faults.word = 0 ∧
    State.reset.accumulator = .poison ∧ State.reset.activeBuffer = .poison ∧
    State.reset.command = .poison ∧ ∀ i, State.reset.scratch i = .poison) ∧
  ∀ w, step { State.reset with inputs := [⟨0, w⟩] } = exec (decodeEvent w) State.reset

/-- R7, R8, R233: at power-on the two read-only spaces hold the device's parameters, whatever they
are, and nothing outside their sizes. That the parameter CHECKSUM (R11) is its default CRC-8 there is the
model's choice, log entry 3. -/
def Obligations.PowerOnHoldsParameters : Prop :=
  (∀ i : Index, i.toNat < 8 → State.reset.byteAt .identifier i = some (Config.identifier i.toNat)) ∧
  (∀ i : Index, 8 ≤ i.toNat → State.reset.byteAt .identifier i = none) ∧
  (∀ i : Index, i.toNat < 128 → State.reset.byteAt .persistent i = some (Config.store i.toNat)) ∧
  (∀ i : Index, 128 ≤ i.toNat → State.reset.byteAt .persistent i = none) ∧
  State.reset.checksumFn = .crc8

/-- R6, R86, R210: a step decodes the word of the event delivered and runs its meaning, after the clock
has moved and the outputs of the last step are gone. -/
def Obligations.StepRunsDecodedEvent : Prop :=
  ∀ (s : State) (d : Delivery), nextDelivery s.inputs = some d →
    step s = exec (decodeEvent d.word)
      { s with now := s.now + d.dt, tmrRestart := false, emitted := [], inputs := d.rest }

/-- The model's reading of R218's wait, log entry 10 (DEDUCED): the spec has one step for each event (R6)
and no step without one. With no event pending the model's step answers the same state, the outputs of the
last step too. -/
def Obligations.StepWaitsWithoutEvent : Prop :=
  ∀ s : State, s.inputs = [] → step s = .next s

/-- No step stops the machine, in any state: log entry 17 (DEDUCED from R200, R203). It holds with the
model's reading of two cases in which the spec has no step, which answer next here: a timer strobe that is
not armed (log entry 8) and an empty list of events (log entry 10). For a reserved word
93_implementation_defined.md U10 would also allow a refusal, and the model takes R87's effect. -/
def Obligations.StepNeverStops : Prop :=
  ∀ s : State, ∃ t, step s = .next t

/-- R209, R118, in the form of log entry 10 (DEDUCED): among the events pending together, the first level
change (a word below 4) is delivered first; with no level change pending the first event is. No event is lost
or made up. That a dt of 0 means pending together, and that a level change also goes before a reserved word
(R209 speaks of timer events only), is that entry's choice. -/
def Obligations.LevelChangeBeforeTimerEvent : Prop :=
  ∀ (i : Input) (is : List Input), ∃ d, nextDelivery (i :: is) = some d ∧ d.dt = i.dt ∧
    (∀ j, (i :: is.takeWhile fun k => k.dt == 0).find? (fun k => decide (k.word.toNat < 4)) = some j →
      d.word = j.word) ∧
    ((∀ j ∈ i :: is.takeWhile (fun k => k.dt == 0), 4 ≤ j.word.toNat) → d.word = i.word ∧ d.rest = is) ∧
    (d.word :: d.rest.map Input.word).Perm ((i :: is).map Input.word)

/-- R101: an event whose level is the level already known is no transition. -/
def Obligations.NoTransitionChangesNothing : Prop :=
  ∀ (s : State) (smp : Bool), exec (.evLine s.lastLineLevel smp) s = .next s

/-- R103, and R104 for Reset: a falling edge in Idle arms the overflow and takes no bit. -/
def Obligations.FallingEdgeInIdleOrReset : Prop :=
  ∀ (s : State) (smp : Bool), s.phase = .idle ∨ s.phase = .reset → s.lastLineLevel = true →
    exec (.evLine false smp) s = .next { s with
      lastLineLevel := false, ovfArmed := true, tStart := s.now, tmrRestart := true }

/-- R105, R110: in Presence an edge moves lastLineLevel and nothing else. -/
def Obligations.EdgesInPresence : Prop :=
  ∀ (s : State) (smp : Bool), s.phase = .presence →
    (s.lastLineLevel = true → exec (.evLine false smp) s = .next { s with lastLineLevel := false }) ∧
    (s.lastLineLevel = false → exec (.evLine true smp) s = .next { s with lastLineLevel := true })

/-- R109: the rising edge in Reset starts the presence pulse. -/
def Obligations.RisingEdgeInReset : Prop :=
  ∀ (s : State) (smp : Bool), s.phase = .reset → s.lastLineLevel = false →
    exec (.evLine true smp) s = .next { s with
      lastLineLevel := false, ovfArmed := false, drive := true, emitted := s.emitted ++ [.pullLow],
      tStart := s.now, tmrRestart := true, cmpArmed := true, phase := .presence }

/-- R111: a rising edge in Idle, Receiving or Transmitting takes no bit. -/
def Obligations.RisingEdgeTakesNoBit : Prop :=
  ∀ (s : State) (smp : Bool), s.phase = .idle ∨ s.phase = .receiving ∨ s.phase = .transmitting →
    s.lastLineLevel = false →
    exec (.evLine true smp) s = .next { s with lastLineLevel := true, ovfArmed := false }

/-- R106, R112, R117: a received bit that does not end its byte goes into the accumulator at bitIndex;
every other bit of the accumulator stays. -/
def Obligations.ReceivedBitInsideByte : Prop :=
  ∀ (s : State) (b : Bool) (v : Byte), s.phase = .receiving → s.lastLineLevel = true →
    s.accumulator = .val v → s.bitIndex ≠ 7 →
    ∃ v' : Byte, (∀ k, k < 8 → v'.getLsbD k = if k = s.bitIndex.toNat then b else v.getLsbD k) ∧
      exec (.evLine false b) s = .next { s with
        accumulator := .val v', bitIndex := s.bitIndex + 1, lastLineLevel := b, ovfArmed := !b,
        tStart := s.now, tmrRestart := true }

/-- R106, R112, R65: the eighth bit of a byte that does not end its buffer stores the byte at base +
byteIndex of the transient space and starts the next; no other byte changes. -/
def Obligations.ReceivedByteInsideBuffer : Prop :=
  ∀ (s : State) (b : Bool) (v : Byte) (buf : Buffer), s.phase = .receiving →
    s.lastLineLevel = true → s.accumulator = .val v → s.activeBuffer = .val buf → s.bitIndex = 7 →
    s.byteIndex + 1 ≠ buf.len → (buf.base + s.byteIndex).toNat < 4 →
    ∃ (v' : Byte) (m : Memory),
      (∀ k, k < 8 → v'.getLsbD k = if k = 7 then b else v.getLsbD k) ∧
      (∀ a, m.read a = if a = (buf.base + s.byteIndex).toNat then some v' else s.trans.read a) ∧
      exec (.evLine false b) s = .next { s with
        trans := m, accumulator := .val 0, bitIndex := 0, byteIndex := s.byteIndex + 1,
        lastLineLevel := b, ovfArmed := !b, tStart := s.now, tmrRestart := true }

/-- R65: a byte received at an index above 3 sets F_INTERNAL and is written nowhere. -/
def Obligations.ReceivedByteOutsideTransient : Prop :=
  ∀ (s : State) (b : Bool) (v : Byte) (buf : Buffer), s.phase = .receiving →
    s.lastLineLevel = true → s.accumulator = .val v → s.activeBuffer = .val buf → s.bitIndex = 7 →
    s.byteIndex + 1 ≠ buf.len → 4 ≤ (buf.base + s.byteIndex).toNat →
    exec (.evLine false b) s = .next { s with
      faults := { s.faults with internal := true },
      accumulator := .val 0, bitIndex := 0, byteIndex := s.byteIndex + 1,
      lastLineLevel := b, ovfArmed := !b, tStart := s.now, tmrRestart := true }

/-- R160, R112, R116: the bit that completes a command byte stores it in T[0], clears the continuation
and runs exactly the instruction the byte decodes to, then reconciles the line level. -/
def Obligations.CommandByteRunsDecodedCommand : Prop :=
  ∀ (s : State) (b : Bool) (v : Byte), s.phase = .receiving → s.lastLineLevel = true →
    s.accumulator = .val v → s.activeBuffer = .val ⟨.transient, 0, 1⟩ → s.bitIndex = 7 →
    s.byteIndex = 0 → s.continuation = .dispatchCommand →
    ∃ (c : Byte) (m : Memory) (t : State),
      (∀ k, k < 8 → c.getLsbD k = if k = 7 then b else v.getLsbD k) ∧
      (∀ a, m.read a = if a = 0 then some c else s.trans.read a) ∧
      exec (decodeCommand s.selected c) { s with
        trans := m, accumulator := .val 0, bitIndex := 0, byteIndex := 1, phase := .idle,
        continuation := .none, ovfArmed := true, tStart := s.now, tmrRestart := true } = .next t ∧
      exec (.evLine false b) s = .next { t with
        lastLineLevel := b, ovfArmed := if b then false else t.ovfArmed }

/-- R166, R112: the bit that completes the second address byte stores it in T[2], puts the checksum of
{command, addressLow, addressHigh} into T[3] and starts sending it. The checksum is that of the state's
parameter CHECKSUM (R11), the default one and the uninterpreted one alike. -/
def Obligations.AddressBytesStartChecksum : Prop :=
  ∀ (s : State) (b : Bool) (v c lo : Byte), s.phase = .receiving → s.lastLineLevel = true →
    s.accumulator = .val v → s.activeBuffer = .val ⟨.transient, 1, 2⟩ → s.bitIndex = 7 →
    s.byteIndex = 1 → s.continuation = .computeChecksumAndRead →
    s.trans.read 0 = some c → s.trans.read 1 = some lo →
    ∃ (hi crc : Byte) (m : Memory),
      (∀ k, k < 8 → hi.getLsbD k = if k = 7 then b else v.getLsbD k) ∧
      crc = checksum s.checksumFn [c, lo, hi] ∧
      (∀ a, m.read a = if a = 3 then some crc else if a = 2 then some hi else s.trans.read a) ∧
      exec (.evLine false b) s = .next { s with
        trans := m, phase := .transmitting, activeBuffer := .val ⟨.transient, 3, 1⟩, bitIndex := 0,
        byteIndex := 0, accumulator := .val crc, pendingDriveLow := !crc.getLsbD 0,
        continuation := .readMemory, lastLineLevel := b, ovfArmed := !b,
        tStart := s.now, tmrRestart := true }

/-- R107, R113, R117: a sent bit that does not end its byte. The slot is pulled low and released exactly
when pendingDriveLow was 1 (a driver found on is released too), and pendingDriveLow becomes the next
bit inverted. -/
def Obligations.SentBitInsideByte : Prop :=
  ∀ (s : State) (smp : Bool) (v : Byte), s.phase = .transmitting → s.lastLineLevel = true →
    s.accumulator = .val v → s.bitIndex ≠ 7 →
    exec (.evLine false smp) s = .next { s with
      bitIndex := s.bitIndex + 1, pendingDriveLow := !v.getLsbD (s.bitIndex.toNat + 1),
      drive := false,
      emitted := s.emitted ++ (if s.pendingDriveLow then [.pullLow, .release]
        else if s.drive then [.release] else []),
      lastLineLevel := smp, ovfArmed := !smp, tStart := s.now, tmrRestart := true }

/-- R107, R113: the eighth bit of a byte that does not end its buffer is sent, and the next byte is
fetched from the buffer. -/
def Obligations.SentByteFetchesNext : Prop :=
  ∀ (s : State) (smp : Bool) (buf : Buffer) (x : Byte), s.phase = .transmitting →
    s.lastLineLevel = true → s.activeBuffer = .val buf → s.bitIndex = 7 → s.byteIndex + 1 ≠ buf.len →
    s.byteAt buf.kind (buf.base + (s.byteIndex + 1)) = some x →
    exec (.evLine false smp) s = .next { s with
      bitIndex := 0, byteIndex := s.byteIndex + 1, accumulator := .val x,
      pendingDriveLow := !x.getLsbD 0, drive := false,
      emitted := s.emitted ++ (if s.pendingDriveLow then [.pullLow, .release]
        else if s.drive then [.release] else []),
      lastLineLevel := smp, ovfArmed := !smp, tStart := s.now, tmrRestart := true }

/-- R64: a store byte beyond the 128 is a drawn byte, a fresh one, under no law; F_OOB_READ is set and
the transmit carries on with it. -/
def Obligations.SentByteBeyondStore : Prop :=
  ∀ (s : State) (smp : Bool) (base len : Index), s.phase = .transmitting →
    s.lastLineLevel = true → s.activeBuffer = .val ⟨.persistent, base, len⟩ → s.bitIndex = 7 →
    s.byteIndex + 1 ≠ len → 128 ≤ (base + (s.byteIndex + 1)).toNat →
    exec (.evLine false smp) s = .next { s with
      bitIndex := 0, byteIndex := s.byteIndex + 1, accumulator := .val (Config.draw s.draws),
      pendingDriveLow := !(Config.draw s.draws).getLsbD 0, draws := s.draws + 1,
      faults := { s.faults with oobRead := true }, drive := false,
      emitted := s.emitted ++ (if s.pendingDriveLow then [.pullLow, .release]
        else if s.drive then [.release] else []),
      lastLineLevel := smp, ovfArmed := !smp, tStart := s.now, tmrRestart := true }

/-- R113, R116: the last bit of a buffer without a continuation leaves the device Idle. -/
def Obligations.LastSentBitEndsTransmit : Prop :=
  ∀ (s : State) (smp : Bool) (buf : Buffer), s.phase = .transmitting →
    s.lastLineLevel = true → s.activeBuffer = .val buf → s.bitIndex = 7 → s.byteIndex + 1 = buf.len →
    s.continuation = .none →
    exec (.evLine false smp) s = .next { s with
      phase := .idle, bitIndex := 0, byteIndex := s.byteIndex + 1, pendingDriveLow := false,
      drive := false,
      emitted := s.emitted ++ (if s.pendingDriveLow then [.pullLow, .release]
        else if s.drive then [.release] else []),
      lastLineLevel := smp, ovfArmed := !smp, tStart := s.now, tmrRestart := true }

/-- R167, R168: the last bit of the checksum starts the store transmit at the received offset `o`, of
(128 - o) mod 2^16 bytes: from o below 128 at the store's byte o; at 128 nothing is sent and the
device is Idle at once; above 128 with a drawn byte, F_OOB_READ and a wrapped length 65664 - o. -/
def Obligations.ChecksumSentStartsStore : Prop :=
  ∀ (s : State) (smp : Bool) (buf : Buffer) (lo hi : Byte), s.phase = .transmitting →
    s.lastLineLevel = true → s.activeBuffer = .val buf → s.bitIndex = 7 → s.byteIndex + 1 = buf.len →
    s.continuation = .readMemory → s.trans.read 1 = some lo → s.trans.read 2 = some hi →
    ∃ (o len : Index), o.toNat = hi.toNat * 256 + lo.toNat ∧
      (o.toNat < 128 → ∀ x, s.byteAt .persistent o = some x →
        len.toNat = 128 - o.toNat ∧
        exec (.evLine false smp) s = .next { s with
          phase := .transmitting, activeBuffer := .val ⟨.persistent, o, len⟩, bitIndex := 0,
          byteIndex := 0, accumulator := .val x, pendingDriveLow := !x.getLsbD 0,
          continuation := .none, drive := false,
          emitted := s.emitted ++ (if s.pendingDriveLow then [.pullLow, .release]
            else if s.drive then [.release] else []),
          lastLineLevel := smp, ovfArmed := !smp, tStart := s.now, tmrRestart := true }) ∧
      (o.toNat = 128 → len = 0 ∧
        exec (.evLine false smp) s = .next { s with
          phase := .idle, activeBuffer := .val ⟨.persistent, o, len⟩, bitIndex := 0,
          byteIndex := 0, pendingDriveLow := false, continuation := .none, drive := false,
          emitted := s.emitted ++ (if s.pendingDriveLow then [.pullLow, .release]
            else if s.drive then [.release] else []),
          lastLineLevel := smp, ovfArmed := !smp, tStart := s.now, tmrRestart := true }) ∧
      (128 < o.toNat → len.toNat = 65664 - o.toNat ∧
        exec (.evLine false smp) s = .next { s with
          phase := .transmitting, activeBuffer := .val ⟨.persistent, o, len⟩, bitIndex := 0,
          byteIndex := 0, accumulator := .val (Config.draw s.draws),
          pendingDriveLow := !(Config.draw s.draws).getLsbD 0, draws := s.draws + 1,
          faults := { s.faults with oobRead := true }, continuation := .none, drive := false,
          emitted := s.emitted ++ (if s.pendingDriveLow then [.pullLow, .release]
            else if s.drive then [.release] else []),
          lastLineLevel := smp, ovfArmed := !smp, tStart := s.now, tmrRestart := true })

/-- R141, R142: an armed overflow with the line low enters Reset and abandons the exchange;
accumulator, activeBuffer and T keep their values. -/
def Obligations.OverflowEntersReset : Prop :=
  ∀ s : State, s.ovfArmed = true → s.lastLineLevel = false →
    exec .evOverflow s = .next { s with
      phase := .reset, selected := false, continuation := .none, pendingDriveLow := false,
      bitIndex := 0, byteIndex := 0, ovfArmed := false, cmpArmed := false, drive := false,
      emitted := s.emitted ++ (if s.drive then [.release] else []) }

/-- R141, R45: an armed overflow with the line high only disarms; a strobe while not armed is not
accepted and changes nothing (the last is the model's reading of 'no step': log entry 8). -/
def Obligations.OverflowWithoutReset : Prop :=
  ∀ s : State,
    (s.ovfArmed = true → s.lastLineLevel = true → exec .evOverflow s = .next { s with ovfArmed := false }) ∧
    (s.ovfArmed = false → exec .evOverflow s = .next s)

/-- R144: the compare ends the presence pulse and starts the command receive; lastLineLevel stays. -/
def Obligations.CompareEndsPresence : Prop :=
  ∀ s : State, s.cmpArmed = true → s.phase = .presence →
    exec .evCompare s = .next { s with
      cmpArmed := false, drive := false, emitted := s.emitted ++ [.release], phase := .receiving,
      activeBuffer := .val ⟨.transient, 0, 1⟩, bitIndex := 0, byteIndex := 0, accumulator := .val 0,
      pendingDriveLow := false, continuation := .dispatchCommand }

/-- R144, R45: an armed compare outside Presence only disarms; a strobe while not armed is not accepted
and changes nothing (the last is the model's reading of 'not enabled': log entry 8). -/
def Obligations.CompareOutsidePresence : Prop :=
  ∀ s : State,
    (s.cmpArmed = true → s.phase ≠ .presence → exec .evCompare s = .next { s with cmpArmed := false }) ∧
    (s.cmpArmed = false → exec .evCompare s = .next s)

/-- R87: every event word with bits 3..2 = 11 decodes to the reserved row, which sets F_RESERVED_EVENT and
changes no other state. -/
def Obligations.ReservedWordSetsItsBit : Prop :=
  (∀ w : EventWord, w.getLsbD 3 = true → w.getLsbD 2 = true → decodeEvent w = .evReserved) ∧
  ∀ s : State, exec .evReserved s = .next { s with faults := { s.faults with reservedEvent := true } }

/-- R161: READ IDENTIFIER, whatever `selected` is. -/
def Obligations.ReadIdentifierStartsTransmit : Prop :=
  ∀ (s : State) (x : Byte), s.byteAt .identifier 0 = some x →
    exec .cmdReadIdentifier s = .next { s with
      phase := .transmitting, activeBuffer := .val ⟨.identifier, 0, 8⟩, bitIndex := 0, byteIndex := 0,
      accumulator := .val x, pendingDriveLow := !x.getLsbD 0, continuation := .none }

/-- R162: SELECT ALL, whatever `selected` was. -/
def Obligations.SelectAllReceivesNextCommand : Prop :=
  ∀ s : State, exec .cmdSelectAll s = .next { s with
    selected := true, phase := .receiving, activeBuffer := .val ⟨.transient, 0, 1⟩, bitIndex := 0,
    byteIndex := 0, accumulator := .val 0, pendingDriveLow := false, continuation := .dispatchCommand }

/-- R163: READ MEMORY of a selected device receives the two address bytes into T[1] and T[2]. -/
def Obligations.ReadMemoryReceivesAddress : Prop :=
  ∀ s : State, s.selected = true → exec .cmdReadMemory s = .next { s with
    phase := .receiving, activeBuffer := .val ⟨.transient, 1, 2⟩, bitIndex := 0, byteIndex := 0,
    accumulator := .val 0, pendingDriveLow := false, continuation := .computeChecksumAndRead }

/-- R164: READ MEMORY of a device not selected does nothing. -/
def Obligations.ReadMemoryUnselectedIgnored : Prop :=
  ∀ s : State, s.selected = false → exec .cmdReadMemoryUnselected s = .next s

/-- The model's choice, log entry 5: both rows of code 0xF0 are the one procedure READ_MEMORY of R163
and R164, so executed outside its guard a row does what the other row does. -/
def Obligations.ReadMemoryRowsAgree : Prop :=
  ∀ s : State, exec .cmdReadMemory s = exec .cmdReadMemoryUnselected s ∧
    (s.selected = false → exec .cmdReadMemory s = .next s)

/-- R165: any other command code is ignored. -/
def Obligations.UnrecognizedCommandIgnored : Prop :=
  ∀ (c : Byte) (s : State), exec (.cmdUnrecognized c) s = .next s

/-- R84, R85: what each of the 256 command bytes decodes to. -/
def Obligations.CommandBytesDecode : Prop :=
  ∀ (sel : Bool) (c : Byte),
    (c = 0x33 → decodeCommand sel c = .cmdReadIdentifier) ∧
    (c = 0xCC → decodeCommand sel c = .cmdSelectAll) ∧
    (c = 0xF0 → decodeCommand true c = .cmdReadMemory ∧ decodeCommand false c = .cmdReadMemoryUnselected) ∧
    (c ≠ 0x33 → c ≠ 0xCC → c ≠ 0xF0 → decodeCommand sel c = .cmdUnrecognized c)

/-- R86, R87: words written out from the event word's encoding decode to their events. -/
def Obligations.EventWordsDecode : Prop :=
  decodeEvent 0b0000 = .evLine false false ∧ decodeEvent 0b0001 = .evLine false true ∧
  decodeEvent 0b0010 = .evLine true false ∧ decodeEvent 0b0011 = .evLine true true ∧
  decodeEvent 0b0100 = .evOverflow ∧ decodeEvent 0b0111 = .evOverflow ∧
  decodeEvent 0b1000 = .evCompare ∧ decodeEvent 0b1011 = .evCompare ∧
  decodeEvent 0b1100 = .evReserved ∧ decodeEvent 0b1111 = .evReserved

/-- Decode and encode agree for every well-formed instruction, with every operand at every value, under
the value of `selected` its row is taken at. -/
def Obligations.DecodeOfEncode : Prop :=
  ∀ (i : Instr) (sel : Bool), i.wf = true → i.guardMet sel = true →
    decode (encode i).channel sel (encode i).bytes = .ok i

/-- R84 to R87, the opcode table: bytes that decode are of the row decoded to. Its channel is theirs, its
guard holds, the first byte carries the row's pattern under its mask, and a command's code is kept. -/
def Obligations.DecodeGivesTheTablesRow : Prop :=
  ∀ (ch : Channel) (sel : Bool) (bytes : List Byte) (i : Instr), decode ch sel bytes = .ok i →
    i.wf = true ∧ i.guardMet sel = true ∧ (tableRow i).channel = ch ∧
    ∃ b rest, bytes = b :: rest ∧ b &&& (tableRow i).mask = (tableRow i).pattern ∧
      (ch = .command → (encode i).bytes = [b])

/-- R63, R64, R49: what a read gives. A byte the space holds, with no other effect; a draw and
F_OOB_READ beyond the store; a draw and F_INTERNAL outside T, outside ID and through kind 3; a draw and
F_POISON_READ where T holds nothing. That a missing byte of ID or STORE reads as T's poison does is the
model's choice, log entry 7; no reachable state has one. -/
def Obligations.MemReadOutcomes : Prop :=
  ∀ (s : State) (k : SourceKind) (i : Index),
    (∀ v, s.byteAt k i = some v → memRead k i s = (v, s)) ∧
    (k = .persistent → 128 ≤ i.toNat →
      memRead k i s = (Config.draw s.draws,
        { s with draws := s.draws + 1, faults := { s.faults with oobRead := true } })) ∧
    ((k = .transient ∧ 4 ≤ i.toNat) ∨ (k = .identifier ∧ 8 ≤ i.toNat) ∨ k = .noSource →
      memRead k i s = (Config.draw s.draws,
        { s with draws := s.draws + 1, faults := { s.faults with internal := true } })) ∧
    ((k = .transient ∧ i.toNat < 4) ∨ (k = .identifier ∧ i.toNat < 8) ∨
        (k = .persistent ∧ i.toNat < 128) → s.byteAt k i = none →
      memRead k i s = (Config.draw s.draws,
        { s with draws := s.draws + 1, faults := { s.faults with poisonRead := true } }))

/-- R65, R66, R11: no instruction writes the identifier or the store, nor changes the parameter CHECKSUM. -/
def Obligations.ReadOnlySpacesUnwritten : Prop :=
  ∀ (i : Instr) (s t : State), exec i s = .next t →
    t.ident = s.ident ∧ t.store = s.store ∧ t.checksumFn = s.checksumFn

/-- R203: a model fault bit once set is cleared by no step. -/
def Obligations.FaultBitsSticky : Prop :=
  ∀ (i : Instr) (s t : State), exec i s = .next t →
    (s.faults.oobRead = true → t.faults.oobRead = true) ∧
    (s.faults.reservedEvent = true → t.faults.reservedEvent = true) ∧
    (s.faults.poisonRead = true → t.faults.poisonRead = true) ∧
    (s.faults.internal = true → t.faults.internal = true)

/-- R42: a step changes the active buffer only where a transfer starts, at bit 0 of byte 0: on the EvCompare
that ends a presence pulse, or on the falling edge that completes the last bit of the last byte of the
buffer. -/
def Obligations.BufferFixedMidExchange : Prop :=
  ∀ (s t : State) (d : Delivery), nextDelivery s.inputs = some d → step s = .next t →
    t.activeBuffer ≠ s.activeBuffer →
      t.bitIndex = 0 ∧ t.byteIndex = 0 ∧
      ((decodeEvent d.word = .evCompare ∧ s.phase = .presence ∧ s.cmpArmed = true ∧
          t.phase = .receiving ∧ t.activeBuffer = .val ⟨.transient, 0, 1⟩) ∨
        ((∃ smp, decodeEvent d.word = .evLine false smp) ∧ s.lastLineLevel = true ∧
          (s.phase = .receiving ∨ s.phase = .transmitting) ∧ s.bitIndex = 7 ∧
          s.continuation ≠ .none ∧
          ∀ buf, s.activeBuffer = .val buf → s.byteIndex + 1 = buf.len))

/-- R41: the invariant holds at power-on. -/
def Obligations.PowerOnMeetsInv : Prop :=
  Inv State.reset

/-- R41: every step of every state keeps the invariant. -/
def Obligations.StepKeepsInv : Prop :=
  ∀ s t : State, Inv s → step s = .next t → Inv t

/-- R49, R37: from a state with the invariant no step reads a poison field and none reads or writes
outside the spaces. -/
def Obligations.NoPoisonReadNoInternalFault : Prop :=
  ∀ s t : State, Inv s → step s = .next t →
    t.faults.poisonRead = s.faults.poisonRead ∧ t.faults.internal = s.faults.internal

/-- R64, R168: F_OOB_READ is set only while a READ MEMORY at an offset above 128 is being sent. -/
def Obligations.OobReadOnlyAboveStore : Prop :=
  ∀ s t : State, Inv s → step s = .next t → s.faults.oobRead = false → t.faults.oobRead = true →
    ∃ o : Index, t.phase = .transmitting ∧ 128 < o.toNat ∧
      t.activeBuffer = .val ⟨.persistent, o, remainingFrom o⟩

/-- R43: `selected` is set only by the falling edge that brings the eighth bit of a SELECT ALL byte, and
cleared only by an EvOverflow taken armed and with the line low, which enters Reset. -/
def Obligations.SelectedChangesOnlyBySelectAllAndReset : Prop :=
  ∀ s t : State, Inv s → step s = .next t →
    (s.selected = false → t.selected = true →
      ∃ (d : Delivery) (smp : Bool) (v : Byte), nextDelivery s.inputs = some d ∧
        decodeEvent d.word = .evLine false smp ∧ s.lastLineLevel = true ∧ s.phase = .receiving ∧
        s.continuation = .dispatchCommand ∧ s.bitIndex = 7 ∧ s.accumulator = .val v ∧
        (∀ k, k < 8 → (0xCC : Byte).getLsbD k = if k = 7 then smp else v.getLsbD k) ∧
        t.command = .val 0xCC) ∧
    (s.selected = true → t.selected = false →
      ∃ d : Delivery, nextDelivery s.inputs = some d ∧ decodeEvent d.word = .evOverflow ∧
        s.ovfArmed = true ∧ s.lastLineLevel = false ∧ t.phase = .reset)

/-- R40, R143, R212: the transitions between states, and the event that makes each. -/
def Obligations.PhaseTransitions : Prop :=
  ∀ (s t : State) (d : Delivery), Inv s → nextDelivery s.inputs = some d → step s = .next t →
    s.phase ≠ t.phase →
      (t.phase = .reset ∧ decodeEvent d.word = .evOverflow ∧ s.phase ≠ .presence ∧ s.ovfArmed = true) ∨
      (s.phase = .reset ∧ t.phase = .presence ∧ ∃ smp, decodeEvent d.word = .evLine true smp) ∨
      (s.phase = .presence ∧ t.phase = .receiving ∧ decodeEvent d.word = .evCompare) ∨
      (s.phase = .receiving ∧ (t.phase = .idle ∨ t.phase = .transmitting) ∧ s.bitIndex = 7 ∧
        ∃ smp, decodeEvent d.word = .evLine false smp) ∨
      (s.phase = .transmitting ∧ t.phase = .idle ∧ s.bitIndex = 7 ∧
        ∃ smp, decodeEvent d.word = .evLine false smp)

/-- R214, R73: while the device is not selected a step does not depend on the store: with any other
store contents it does the same and emits the same. -/
def Obligations.UnselectedStepIgnoresStore : Prop :=
  ∀ (s t : State) (m : Memory), Inv s → s.selected = false → step s = .next t →
    step { s with store := m } = .next { t with store := m }

/-- R146, R148: in the timed refinement the presence pulse ends by the compare, no earlier than T_PP
after the timer restart that began it and no later than E_TMR after that; until then the restart time
and the driver stay. -/
def Obligations.PresencePulseWidth : Prop :=
  ∀ (τ : Config.Timing) (s t : State), Inv s → s.phase = .presence → timedStep τ s t →
    (t.phase = .presence ∧ t.drive = true ∧ t.tStart = s.tStart) ∨
    (t.phase = .receiving ∧ t.drive = false ∧ s.tStart + τ.tPp ≤ t.now ∧
      t.now ≤ s.tStart + τ.tPp + τ.eTmr)

/-- R146, R141: when the timed refinement may take EvOverflow. While the overflow is armed no step comes later
than T_RST + E_TMR after the timer restart. EvOverflow is taken only armed, and from T_RST to T_RST + E_TMR
after the restart; it disarms and leaves the restart time, and is a bus reset exactly when the line is low.
A step enters Reset in no other way. -/
def Obligations.TimedOverflowWindow : Prop :=
  ∀ (τ : Config.Timing) (s t : State), timedStep τ s t →
    (s.ovfArmed = true → t.now ≤ s.tStart + τ.tRst + τ.eTmr) ∧
    (∀ d, nextDelivery s.inputs = some d → decodeEvent d.word = .evOverflow →
      s.ovfArmed = true ∧ s.tStart + τ.tRst ≤ t.now ∧ t.now ≤ s.tStart + τ.tRst + τ.eTmr ∧
      t.ovfArmed = false ∧ t.tStart = s.tStart ∧
      (s.lastLineLevel = false → t.phase = .reset ∧ t.selected = false ∧ t.continuation = .none) ∧
      (s.lastLineLevel = true → t.phase = s.phase ∧ t.selected = s.selected ∧
        t.continuation = s.continuation)) ∧
    (s.phase ≠ .reset → t.phase = .reset →
      (∃ d, nextDelivery s.inputs = some d ∧ decodeEvent d.word = .evOverflow) ∧
      s.ovfArmed = true ∧ s.lastLineLevel = false ∧
      s.tStart + τ.tRst ≤ t.now ∧ t.now ≤ s.tStart + τ.tRst + τ.eTmr)

/-- R145: a low pulse in Idle that ends before the overflow is taken is no reset. An overflow strobe
after it finds nothing armed, so the spec has no step for it; that it answers the same state is the model's
reading, log entry 8 (DEDUCED). -/
def Obligations.ShortPulseIsNoReset : Prop :=
  ∀ s : State, s.phase = .idle → s.lastLineLevel = true →
    stepWords [0x0, 0x3, 0x4] s = some { s with
      ovfArmed := false, tStart := s.now, tmrRestart := false, emitted := [], inputs := [] }

/-- R148, R143: from every state but Presence with the line high, the words 0x0, 0x4, 0x3 lead to
Presence with the line pulled low, and 0x8 ends the pulse. -/
def Obligations.ResetPulseLeadsToPresence : Prop :=
  ∀ s : State, s.lastLineLevel = true → s.phase ≠ .presence →
    ∃ t u, stepWords [0x0, 0x4, 0x3] s = some t ∧ t.phase = .presence ∧ t.drive = true ∧
      t.emitted = [.pullLow] ∧ t.selected = false ∧
      stepWord 0x8 t = some u ∧ u.drive = false ∧ u.emitted = [.release] ∧ u.phase = .receiving

/-- R173: after RST the engine is in one state whatever came before; only the transient bytes, the fault
bits and the model's clock and draw counter keep older values. -/
def Obligations.ResetForgetsExchange : Prop :=
  ∀ s : State, s.lastLineLevel = true → s.phase ≠ .presence →
    ∃ t, stepWords scriptRst s = some { s with
      phase := .receiving, activeBuffer := .val ⟨.transient, 0, 1⟩, bitIndex := 0, byteIndex := 0,
      accumulator := .val 0, pendingDriveLow := false, continuation := .dispatchCommand,
      selected := false, drive := false, ovfArmed := false, cmpArmed := false, lastLineLevel := true,
      trans := t.trans, faults := t.faults, draws := t.draws,
      tStart := s.now, tmrRestart := false, emitted := [], inputs := [] } ∧
      stepWord 0x0 s = some t

/-- R67, R81, R160: eight write slots, least significant bit first, bring any byte `c` into T[0] and run
exactly the instruction `c` decodes to; the line is then high again. -/
def Obligations.CommandOverTheBusRunsDecoded : Prop :=
  ∀ (c : Byte) (s : State) (v : Byte), s.phase = .receiving → s.lastLineLevel = true →
    s.accumulator = .val v → s.activeBuffer = .val ⟨.transient, 0, 1⟩ → s.bitIndex = 0 →
    s.byteIndex = 0 → s.continuation = .dispatchCommand →
    ∃ (m : Memory) (t : State),
      (∀ a, m.read a = if a = 0 then some c else s.trans.read a) ∧
      exec (decodeCommand s.selected c) { s with
        trans := m, accumulator := .val 0, bitIndex := 0, byteIndex := 1, phase := .idle,
        continuation := .none, ovfArmed := true, tStart := s.now, tmrRestart := true, emitted := [],
        inputs := [] } = .next t ∧
      stepWords (scriptCmd c) s = some { t with
        lastLineLevel := true, ovfArmed := false, tmrRestart := false, emitted := [], inputs := [] }

/-- R171, S2: READ IDENTIFIER returns the eight identifier bytes, whatever `selected` is. By R161 and R172 it
then leaves the device Idle with no continuation, `selected` and the fault bits as they were. -/
def Obligations.ReadIdentifierReturnsIdentifier : Prop :=
  ∀ (s t : State) (id : Nat → Byte), s.lastLineLevel = true → s.drive = false →
    (∀ i : Index, i.toNat < 8 → s.byteAt .identifier i = some (id i.toNat)) →
    exec .cmdReadIdentifier s = .next t →
    ∃ u, readBytes 8 t = some ((List.range 8).map id, u) ∧
      u.phase = .idle ∧ u.continuation = .none ∧ u.selected = s.selected ∧ u.lastLineLevel = true ∧
      u.faults = s.faults

/-- R166 to R168, S5: from the start of the checksum byte, a READ MEMORY at an offset `o` of at most 128
returns the checksum byte and then the store's bytes from `o` to its end, exactly 128 - o of them, and
leaves the device Idle with no continuation. -/
def Obligations.ReadMemoryReturnsStoreTail : Prop :=
  ∀ (s : State) (lo hi crc : Byte) (st : Nat → Byte), s.phase = .transmitting →
    s.lastLineLevel = true → s.drive = false → s.activeBuffer = .val ⟨.transient, 3, 1⟩ →
    s.bitIndex = 0 → s.byteIndex = 0 → s.accumulator = .val crc →
    s.pendingDriveLow = (!crc.getLsbD 0) → s.continuation = .readMemory →
    s.trans.read 1 = some lo → s.trans.read 2 = some hi → hi.toNat * 256 + lo.toNat ≤ 128 →
    (∀ i : Index, i.toNat < 128 → s.byteAt .persistent i = some (st i.toNat)) →
    ∃ u, readBytes (1 + (128 - (hi.toNat * 256 + lo.toNat))) s =
        some (crc :: (List.range (128 - (hi.toNat * 256 + lo.toNat))).map
          (fun n => st (hi.toNat * 256 + lo.toNat + n)), u) ∧
      u.phase = .idle ∧ u.continuation = .none ∧ u.faults = s.faults

/-- R172, R232: an Idle device takes no bits: every read slot reads 1, and it stays Idle. -/
def Obligations.IdleDeviceReadsOnes : Prop :=
  ∀ (n : Nat) (s : State), s.phase = .idle → s.lastLineLevel = true →
    ∃ u, readSlots n s = some (List.replicate n true, u) ∧ u.phase = .idle ∧
      u.lastLineLevel = true ∧ u.drive = s.drive ∧ u.trans = s.trans

/-- R233, the items the state shows: at power-on the engine is ready for its first event. -/
def Obligations.PowerOnIsBootReady : Prop :=
  bootReady State.reset

/-- R232: with no bus reset an Idle device answers nothing. Whatever events come, no overflow among them,
it stays Idle, drives nothing, keeps `selected` and stores no byte. Said of every state that is Idle with
the driver off and no output yet, the power-on state among them. A compare word while cmpArmed is 0 is a step
here that leaves the engine as it was, where R88 has no step: log entry 8 (DEDUCED). -/
def Obligations.SilentUntilFirstReset : Prop :=
  ∀ (ws : List EventWord) (s : State), s.phase = .idle → s.drive = false → s.emitted = [] →
    (∀ w ∈ ws, decodeEvent w ≠ .evOverflow) →
    ∃ t, stepWords ws s = some t ∧ t.phase = .idle ∧ t.drive = false ∧ t.emitted = [] ∧
      t.selected = s.selected ∧ t.trans = s.trans ∧ t.continuation = s.continuation

/-- R245: a quiescent device answers nothing but the falling edge of a level change. Any other event leaves
it as it was, but for the fault bit of a reserved word. No timer event is enabled there, so the spec has no
step for a timer word; that such a word is a step that changes nothing is log entry 8 (DEDUCED). -/
def Obligations.QuiescentTakesOnlyAFallingEdge : Prop :=
  ∀ (s t : State) (d : Delivery), quiescent s → nextDelivery s.inputs = some d → step s = .next t →
    (t = s.beginStep d ∧ quiescent t) ∨
    (decodeEvent d.word = .evReserved ∧ t = (s.beginStep d).raiseReservedEvent ∧ quiescent t) ∨
    ((∃ smp, decodeEvent d.word = .evLine false smp) ∧
      t = { s.beginStep d with
        lastLineLevel := false, ovfArmed := true, tStart := (s.beginStep d).now, tmrRestart := true })

/-- R170, a consequence of its pseudocode: the CRC-8 of a message followed by its own CRC-8 is 0. -/
def Obligations.ChecksumOfChecksummedIsZero : Prop :=
  ∀ bytes : List Byte, crc8 (bytes ++ [crc8 bytes]) = 0
end

