-- ==== Sys2Proof/Laws/Memory.lean ====
section
/-! SUPPORT. The laws of the byte spaces: a read after a write, the canonical form kept by the write,
and the read-only spaces of the power-on state. -/

namespace Sys2Proof.Machine

@[simp] theorem Memory.read_nil (x : Nat) : Memory.read [] x = none := rfl

/-- A read after a write: the written index gives the byte written, every other index what it gave. -/
theorem Memory.read_write (m : Memory) (x y : Nat) (v : Byte) :
    (m.write x v).read y = if x = y then some v else m.read y := by
  induction m with
  | nil => simp [Memory.write, Memory.read]
  | cons c m ih =>
    obtain ⟨a, w⟩ := c
    unfold Memory.write
    by_cases h1 : x < a
    · simp only [h1, if_true, Memory.read]
    · by_cases h2 : x = a
      · subst h2
        by_cases h3 : x = y <;> simp [Memory.read, h3]
      · simp only [h1, h2, if_false, Memory.read, ih]
        by_cases h3 : a = y
        · subst h3
          simp [h2]
        · simp [h3]

/-- The written index reads as the byte written. -/
@[simp] theorem Memory.read_write_same (m : Memory) (x : Nat) (v : Byte) :
    (m.write x v).read x = some v := by
  simp [Memory.read_write]

/-- Every other index reads as before. -/
theorem Memory.read_write_other (m : Memory) {x y : Nat} (v : Byte) (h : x ≠ y) :
    (m.write x v).read y = m.read y := by
  simp [Memory.read_write, h]

/-- No entry of a written memory is new but the one written. -/
theorem Memory.mem_write {m : Memory} {x : Nat} {v : Byte} {c : Host.Cell} (h : c ∈ m.write x v) :
    c = (x, v) ∨ c ∈ m := by
  induction m with
  | nil => simpa [Memory.write] using h
  | cons d m ih =>
    obtain ⟨a, w⟩ := d
    unfold Memory.write at h
    split at h
    · simpa using h
    · split at h
      · rcases List.mem_cons.1 h with h | h
        · exact .inl h
        · exact .inr (List.mem_cons_of_mem _ h)
      · rcases List.mem_cons.1 h with h | h
        · exact .inr (h ▸ List.mem_cons_self ..)
        · exact (ih h).imp id (List.mem_cons_of_mem _)

/-- What the canonical form says. -/
theorem Memory.wf_iff {size : Nat} {m : Memory} :
    m.wf size = true ↔ m.Pairwise (fun c d => c.1 < d.1) ∧ ∀ c ∈ m, c.1 < size := by
  simp [Memory.wf, List.pairwise_map]

/-- A write inside the space keeps the canonical form. -/
theorem Memory.write_wf {size : Nat} {m : Memory} {x : Nat} (v : Byte) (h : m.wf size = true)
    (hx : x < size) : (m.write x v).wf size = true := by
  rw [Memory.wf_iff] at h ⊢
  refine ⟨?_, fun c hc => ?_⟩
  · obtain ⟨h, -⟩ := h
    induction m with
    | nil => simp [Memory.write]
    | cons c m ih =>
      obtain ⟨a, w⟩ := c
      rw [List.pairwise_cons] at h
      unfold Memory.write
      split
      · rename_i hlt
        refine List.pairwise_cons.2 ⟨fun d hd => ?_, List.pairwise_cons.2 h⟩
        rcases List.mem_cons.1 hd with rfl | hd
        · exact hlt
        · exact lt_trans hlt (h.1 d hd)
      · split
        · rename_i _ heq
          subst heq
          exact List.pairwise_cons.2 h
        · refine List.pairwise_cons.2 ⟨fun d hd => ?_, ih h.2⟩
          rcases Memory.mem_write hd with rfl | hd
          · omega
          · exact h.1 d hd
  · rcases Memory.mem_write hc with rfl | hc
    · exact hx
    · exact h.2 c hc

/-- A whole read-only space gives its parameter at every index, and nothing outside. -/
theorem read_parameterCells (size : Nat) (byte : Nat → Byte) (i : Nat) :
    (parameterCells size byte).read i = if i < size then some (byte i) else none := by
  have key : ∀ (l : List Nat), Memory.read (l.map fun j => (j, byte j)) i
      = if i ∈ l then some (byte i) else none := by
    intro l
    induction l with
    | nil => simp
    | cons a l ih =>
      by_cases h : a = i
      · subst h
        simp [Memory.read]
      · have h' : ¬ i = a := fun e => h e.symm
        simp [Memory.read, ih, h, h']
  simp [parameterCells, key]

/-- A whole read-only space has the canonical form. -/
theorem parameterCells_wf (size : Nat) (byte : Nat → Byte) :
    (parameterCells size byte).wf size = true := by
  rw [Memory.wf_iff]
  refine ⟨?_, fun c hc => ?_⟩
  · rw [parameterCells, List.pairwise_map]
    exact List.pairwise_lt_range
  · obtain ⟨j, hj, rfl⟩ := List.mem_map.1 hc
    simpa using hj

/-- A whole read-only space has as many entries as bytes. -/
@[simp] theorem parameterCells_length (size : Nat) (byte : Nat → Byte) :
    (parameterCells size byte).length = size := by
  simp [parameterCells]

/-- A canonical memory with as many entries as the space has bytes lists every index. -/
theorem Memory.read_ne_none_of_full {size : Nat} {m : Memory} (h : m.wf size = true)
    (hl : m.length = size) {i : Nat} (hi : i < size) : m.read i ≠ none := by
  rw [Memory.wf_iff] at h
  have hnodup : (m.map Prod.fst).Nodup :=
    (List.pairwise_map.2 (h.1.imp fun hlt => ne_of_lt hlt))
  have hsub : (m.map Prod.fst).toFinset ⊆ Finset.range size := by
    intro a ha
    obtain ⟨c, hc, rfl⟩ := List.mem_map.1 (List.mem_toFinset.1 ha)
    exact Finset.mem_range.2 (h.2 c hc)
  have heq : (m.map Prod.fst).toFinset = Finset.range size :=
    Finset.eq_of_subset_of_card_le hsub (by
      rw [List.toFinset_card_of_nodup hnodup]
      simp [hl])
  have hmem : i ∈ m.map Prod.fst := by
    rw [← List.mem_toFinset, heq]
    exact Finset.mem_range.2 hi
  clear heq hsub hnodup h hl
  induction m with
  | nil => simp at hmem
  | cons c m ih =>
    obtain ⟨a, w⟩ := c
    unfold Memory.read
    split
    · simp
    · rename_i hne
      rcases List.mem_cons.1 hmem with h | h
      · exact absurd h.symm hne
      · exact ih h

end Sys2Proof.Machine
end

