-- ==== Sys2Proof/Laws/State.lean ====
section
/-! SUPPORT. One lemma per field per named update of the state, true by rfl, so that no later proof
unfolds a record update. -/

namespace Sys2Proof.Machine

/-! ### raiseOobRead -/

@[simp] theorem State.raiseOobRead_phase (s : State) : s.raiseOobRead.phase = s.phase := rfl
@[simp] theorem State.raiseOobRead_lastLineLevel (s : State) : s.raiseOobRead.lastLineLevel = s.lastLineLevel := rfl
@[simp] theorem State.raiseOobRead_bitIndex (s : State) : s.raiseOobRead.bitIndex = s.bitIndex := rfl
@[simp] theorem State.raiseOobRead_byteIndex (s : State) : s.raiseOobRead.byteIndex = s.byteIndex := rfl
@[simp] theorem State.raiseOobRead_accumulator (s : State) : s.raiseOobRead.accumulator = s.accumulator := rfl
@[simp] theorem State.raiseOobRead_activeBuffer (s : State) : s.raiseOobRead.activeBuffer = s.activeBuffer := rfl
@[simp] theorem State.raiseOobRead_pendingDriveLow (s : State) : s.raiseOobRead.pendingDriveLow = s.pendingDriveLow := rfl
@[simp] theorem State.raiseOobRead_continuation (s : State) : s.raiseOobRead.continuation = s.continuation := rfl
@[simp] theorem State.raiseOobRead_selected (s : State) : s.raiseOobRead.selected = s.selected := rfl
@[simp] theorem State.raiseOobRead_trans (s : State) : s.raiseOobRead.trans = s.trans := rfl
@[simp] theorem State.raiseOobRead_drive (s : State) : s.raiseOobRead.drive = s.drive := rfl
@[simp] theorem State.raiseOobRead_ovfArmed (s : State) : s.raiseOobRead.ovfArmed = s.ovfArmed := rfl
@[simp] theorem State.raiseOobRead_cmpArmed (s : State) : s.raiseOobRead.cmpArmed = s.cmpArmed := rfl
@[simp] theorem State.raiseOobRead_faults (s : State) : s.raiseOobRead.faults = { s.faults with oobRead := true } := rfl
@[simp] theorem State.raiseOobRead_ident (s : State) : s.raiseOobRead.ident = s.ident := rfl
@[simp] theorem State.raiseOobRead_store (s : State) : s.raiseOobRead.store = s.store := rfl
@[simp] theorem State.raiseOobRead_checksumFn (s : State) : s.raiseOobRead.checksumFn = s.checksumFn := rfl
@[simp] theorem State.raiseOobRead_now (s : State) : s.raiseOobRead.now = s.now := rfl
@[simp] theorem State.raiseOobRead_tStart (s : State) : s.raiseOobRead.tStart = s.tStart := rfl
@[simp] theorem State.raiseOobRead_tmrRestart (s : State) : s.raiseOobRead.tmrRestart = s.tmrRestart := rfl
@[simp] theorem State.raiseOobRead_emitted (s : State) : s.raiseOobRead.emitted = s.emitted := rfl
@[simp] theorem State.raiseOobRead_inputs (s : State) : s.raiseOobRead.inputs = s.inputs := rfl
@[simp] theorem State.raiseOobRead_draws (s : State) : s.raiseOobRead.draws = s.draws := rfl

/-! ### raiseReservedEvent -/

@[simp] theorem State.raiseReservedEvent_phase (s : State) : s.raiseReservedEvent.phase = s.phase := rfl
@[simp] theorem State.raiseReservedEvent_lastLineLevel (s : State) : s.raiseReservedEvent.lastLineLevel = s.lastLineLevel := rfl
@[simp] theorem State.raiseReservedEvent_bitIndex (s : State) : s.raiseReservedEvent.bitIndex = s.bitIndex := rfl
@[simp] theorem State.raiseReservedEvent_byteIndex (s : State) : s.raiseReservedEvent.byteIndex = s.byteIndex := rfl
@[simp] theorem State.raiseReservedEvent_accumulator (s : State) : s.raiseReservedEvent.accumulator = s.accumulator := rfl
@[simp] theorem State.raiseReservedEvent_activeBuffer (s : State) : s.raiseReservedEvent.activeBuffer = s.activeBuffer := rfl
@[simp] theorem State.raiseReservedEvent_pendingDriveLow (s : State) : s.raiseReservedEvent.pendingDriveLow = s.pendingDriveLow := rfl
@[simp] theorem State.raiseReservedEvent_continuation (s : State) : s.raiseReservedEvent.continuation = s.continuation := rfl
@[simp] theorem State.raiseReservedEvent_selected (s : State) : s.raiseReservedEvent.selected = s.selected := rfl
@[simp] theorem State.raiseReservedEvent_trans (s : State) : s.raiseReservedEvent.trans = s.trans := rfl
@[simp] theorem State.raiseReservedEvent_drive (s : State) : s.raiseReservedEvent.drive = s.drive := rfl
@[simp] theorem State.raiseReservedEvent_ovfArmed (s : State) : s.raiseReservedEvent.ovfArmed = s.ovfArmed := rfl
@[simp] theorem State.raiseReservedEvent_cmpArmed (s : State) : s.raiseReservedEvent.cmpArmed = s.cmpArmed := rfl
@[simp] theorem State.raiseReservedEvent_faults (s : State) : s.raiseReservedEvent.faults = { s.faults with reservedEvent := true } := rfl
@[simp] theorem State.raiseReservedEvent_ident (s : State) : s.raiseReservedEvent.ident = s.ident := rfl
@[simp] theorem State.raiseReservedEvent_store (s : State) : s.raiseReservedEvent.store = s.store := rfl
@[simp] theorem State.raiseReservedEvent_checksumFn (s : State) : s.raiseReservedEvent.checksumFn = s.checksumFn := rfl
@[simp] theorem State.raiseReservedEvent_now (s : State) : s.raiseReservedEvent.now = s.now := rfl
@[simp] theorem State.raiseReservedEvent_tStart (s : State) : s.raiseReservedEvent.tStart = s.tStart := rfl
@[simp] theorem State.raiseReservedEvent_tmrRestart (s : State) : s.raiseReservedEvent.tmrRestart = s.tmrRestart := rfl
@[simp] theorem State.raiseReservedEvent_emitted (s : State) : s.raiseReservedEvent.emitted = s.emitted := rfl
@[simp] theorem State.raiseReservedEvent_inputs (s : State) : s.raiseReservedEvent.inputs = s.inputs := rfl
@[simp] theorem State.raiseReservedEvent_draws (s : State) : s.raiseReservedEvent.draws = s.draws := rfl

/-! ### raisePoisonRead -/

@[simp] theorem State.raisePoisonRead_phase (s : State) : s.raisePoisonRead.phase = s.phase := rfl
@[simp] theorem State.raisePoisonRead_lastLineLevel (s : State) : s.raisePoisonRead.lastLineLevel = s.lastLineLevel := rfl
@[simp] theorem State.raisePoisonRead_bitIndex (s : State) : s.raisePoisonRead.bitIndex = s.bitIndex := rfl
@[simp] theorem State.raisePoisonRead_byteIndex (s : State) : s.raisePoisonRead.byteIndex = s.byteIndex := rfl
@[simp] theorem State.raisePoisonRead_accumulator (s : State) : s.raisePoisonRead.accumulator = s.accumulator := rfl
@[simp] theorem State.raisePoisonRead_activeBuffer (s : State) : s.raisePoisonRead.activeBuffer = s.activeBuffer := rfl
@[simp] theorem State.raisePoisonRead_pendingDriveLow (s : State) : s.raisePoisonRead.pendingDriveLow = s.pendingDriveLow := rfl
@[simp] theorem State.raisePoisonRead_continuation (s : State) : s.raisePoisonRead.continuation = s.continuation := rfl
@[simp] theorem State.raisePoisonRead_selected (s : State) : s.raisePoisonRead.selected = s.selected := rfl
@[simp] theorem State.raisePoisonRead_trans (s : State) : s.raisePoisonRead.trans = s.trans := rfl
@[simp] theorem State.raisePoisonRead_drive (s : State) : s.raisePoisonRead.drive = s.drive := rfl
@[simp] theorem State.raisePoisonRead_ovfArmed (s : State) : s.raisePoisonRead.ovfArmed = s.ovfArmed := rfl
@[simp] theorem State.raisePoisonRead_cmpArmed (s : State) : s.raisePoisonRead.cmpArmed = s.cmpArmed := rfl
@[simp] theorem State.raisePoisonRead_faults (s : State) : s.raisePoisonRead.faults = { s.faults with poisonRead := true } := rfl
@[simp] theorem State.raisePoisonRead_ident (s : State) : s.raisePoisonRead.ident = s.ident := rfl
@[simp] theorem State.raisePoisonRead_store (s : State) : s.raisePoisonRead.store = s.store := rfl
@[simp] theorem State.raisePoisonRead_checksumFn (s : State) : s.raisePoisonRead.checksumFn = s.checksumFn := rfl
@[simp] theorem State.raisePoisonRead_now (s : State) : s.raisePoisonRead.now = s.now := rfl
@[simp] theorem State.raisePoisonRead_tStart (s : State) : s.raisePoisonRead.tStart = s.tStart := rfl
@[simp] theorem State.raisePoisonRead_tmrRestart (s : State) : s.raisePoisonRead.tmrRestart = s.tmrRestart := rfl
@[simp] theorem State.raisePoisonRead_emitted (s : State) : s.raisePoisonRead.emitted = s.emitted := rfl
@[simp] theorem State.raisePoisonRead_inputs (s : State) : s.raisePoisonRead.inputs = s.inputs := rfl
@[simp] theorem State.raisePoisonRead_draws (s : State) : s.raisePoisonRead.draws = s.draws := rfl

/-! ### raiseInternal -/

@[simp] theorem State.raiseInternal_phase (s : State) : s.raiseInternal.phase = s.phase := rfl
@[simp] theorem State.raiseInternal_lastLineLevel (s : State) : s.raiseInternal.lastLineLevel = s.lastLineLevel := rfl
@[simp] theorem State.raiseInternal_bitIndex (s : State) : s.raiseInternal.bitIndex = s.bitIndex := rfl
@[simp] theorem State.raiseInternal_byteIndex (s : State) : s.raiseInternal.byteIndex = s.byteIndex := rfl
@[simp] theorem State.raiseInternal_accumulator (s : State) : s.raiseInternal.accumulator = s.accumulator := rfl
@[simp] theorem State.raiseInternal_activeBuffer (s : State) : s.raiseInternal.activeBuffer = s.activeBuffer := rfl
@[simp] theorem State.raiseInternal_pendingDriveLow (s : State) : s.raiseInternal.pendingDriveLow = s.pendingDriveLow := rfl
@[simp] theorem State.raiseInternal_continuation (s : State) : s.raiseInternal.continuation = s.continuation := rfl
@[simp] theorem State.raiseInternal_selected (s : State) : s.raiseInternal.selected = s.selected := rfl
@[simp] theorem State.raiseInternal_trans (s : State) : s.raiseInternal.trans = s.trans := rfl
@[simp] theorem State.raiseInternal_drive (s : State) : s.raiseInternal.drive = s.drive := rfl
@[simp] theorem State.raiseInternal_ovfArmed (s : State) : s.raiseInternal.ovfArmed = s.ovfArmed := rfl
@[simp] theorem State.raiseInternal_cmpArmed (s : State) : s.raiseInternal.cmpArmed = s.cmpArmed := rfl
@[simp] theorem State.raiseInternal_faults (s : State) : s.raiseInternal.faults = { s.faults with internal := true } := rfl
@[simp] theorem State.raiseInternal_ident (s : State) : s.raiseInternal.ident = s.ident := rfl
@[simp] theorem State.raiseInternal_store (s : State) : s.raiseInternal.store = s.store := rfl
@[simp] theorem State.raiseInternal_checksumFn (s : State) : s.raiseInternal.checksumFn = s.checksumFn := rfl
@[simp] theorem State.raiseInternal_now (s : State) : s.raiseInternal.now = s.now := rfl
@[simp] theorem State.raiseInternal_tStart (s : State) : s.raiseInternal.tStart = s.tStart := rfl
@[simp] theorem State.raiseInternal_tmrRestart (s : State) : s.raiseInternal.tmrRestart = s.tmrRestart := rfl
@[simp] theorem State.raiseInternal_emitted (s : State) : s.raiseInternal.emitted = s.emitted := rfl
@[simp] theorem State.raiseInternal_inputs (s : State) : s.raiseInternal.inputs = s.inputs := rfl
@[simp] theorem State.raiseInternal_draws (s : State) : s.raiseInternal.draws = s.draws := rfl

/-! ### setPhase -/

@[simp] theorem State.setPhase_phase (s : State) (p : Phase) : (s.setPhase p).phase = p := rfl
@[simp] theorem State.setPhase_lastLineLevel (s : State) (p : Phase) : (s.setPhase p).lastLineLevel = s.lastLineLevel := rfl
@[simp] theorem State.setPhase_bitIndex (s : State) (p : Phase) : (s.setPhase p).bitIndex = s.bitIndex := rfl
@[simp] theorem State.setPhase_byteIndex (s : State) (p : Phase) : (s.setPhase p).byteIndex = s.byteIndex := rfl
@[simp] theorem State.setPhase_accumulator (s : State) (p : Phase) : (s.setPhase p).accumulator = s.accumulator := rfl
@[simp] theorem State.setPhase_activeBuffer (s : State) (p : Phase) : (s.setPhase p).activeBuffer = s.activeBuffer := rfl
@[simp] theorem State.setPhase_pendingDriveLow (s : State) (p : Phase) : (s.setPhase p).pendingDriveLow = s.pendingDriveLow := rfl
@[simp] theorem State.setPhase_continuation (s : State) (p : Phase) : (s.setPhase p).continuation = s.continuation := rfl
@[simp] theorem State.setPhase_selected (s : State) (p : Phase) : (s.setPhase p).selected = s.selected := rfl
@[simp] theorem State.setPhase_trans (s : State) (p : Phase) : (s.setPhase p).trans = s.trans := rfl
@[simp] theorem State.setPhase_drive (s : State) (p : Phase) : (s.setPhase p).drive = s.drive := rfl
@[simp] theorem State.setPhase_ovfArmed (s : State) (p : Phase) : (s.setPhase p).ovfArmed = s.ovfArmed := rfl
@[simp] theorem State.setPhase_cmpArmed (s : State) (p : Phase) : (s.setPhase p).cmpArmed = s.cmpArmed := rfl
@[simp] theorem State.setPhase_faults (s : State) (p : Phase) : (s.setPhase p).faults = s.faults := rfl
@[simp] theorem State.setPhase_ident (s : State) (p : Phase) : (s.setPhase p).ident = s.ident := rfl
@[simp] theorem State.setPhase_store (s : State) (p : Phase) : (s.setPhase p).store = s.store := rfl
@[simp] theorem State.setPhase_checksumFn (s : State) (p : Phase) : (s.setPhase p).checksumFn = s.checksumFn := rfl
@[simp] theorem State.setPhase_now (s : State) (p : Phase) : (s.setPhase p).now = s.now := rfl
@[simp] theorem State.setPhase_tStart (s : State) (p : Phase) : (s.setPhase p).tStart = s.tStart := rfl
@[simp] theorem State.setPhase_tmrRestart (s : State) (p : Phase) : (s.setPhase p).tmrRestart = s.tmrRestart := rfl
@[simp] theorem State.setPhase_emitted (s : State) (p : Phase) : (s.setPhase p).emitted = s.emitted := rfl
@[simp] theorem State.setPhase_inputs (s : State) (p : Phase) : (s.setPhase p).inputs = s.inputs := rfl
@[simp] theorem State.setPhase_draws (s : State) (p : Phase) : (s.setPhase p).draws = s.draws := rfl

/-! ### setAccumulator -/

@[simp] theorem State.setAccumulator_phase (s : State) (v : Byte) : (s.setAccumulator v).phase = s.phase := rfl
@[simp] theorem State.setAccumulator_lastLineLevel (s : State) (v : Byte) : (s.setAccumulator v).lastLineLevel = s.lastLineLevel := rfl
@[simp] theorem State.setAccumulator_bitIndex (s : State) (v : Byte) : (s.setAccumulator v).bitIndex = s.bitIndex := rfl
@[simp] theorem State.setAccumulator_byteIndex (s : State) (v : Byte) : (s.setAccumulator v).byteIndex = s.byteIndex := rfl
@[simp] theorem State.setAccumulator_accumulator (s : State) (v : Byte) : (s.setAccumulator v).accumulator = .val v := rfl
@[simp] theorem State.setAccumulator_activeBuffer (s : State) (v : Byte) : (s.setAccumulator v).activeBuffer = s.activeBuffer := rfl
@[simp] theorem State.setAccumulator_pendingDriveLow (s : State) (v : Byte) : (s.setAccumulator v).pendingDriveLow = s.pendingDriveLow := rfl
@[simp] theorem State.setAccumulator_continuation (s : State) (v : Byte) : (s.setAccumulator v).continuation = s.continuation := rfl
@[simp] theorem State.setAccumulator_selected (s : State) (v : Byte) : (s.setAccumulator v).selected = s.selected := rfl
@[simp] theorem State.setAccumulator_trans (s : State) (v : Byte) : (s.setAccumulator v).trans = s.trans := rfl
@[simp] theorem State.setAccumulator_drive (s : State) (v : Byte) : (s.setAccumulator v).drive = s.drive := rfl
@[simp] theorem State.setAccumulator_ovfArmed (s : State) (v : Byte) : (s.setAccumulator v).ovfArmed = s.ovfArmed := rfl
@[simp] theorem State.setAccumulator_cmpArmed (s : State) (v : Byte) : (s.setAccumulator v).cmpArmed = s.cmpArmed := rfl
@[simp] theorem State.setAccumulator_faults (s : State) (v : Byte) : (s.setAccumulator v).faults = s.faults := rfl
@[simp] theorem State.setAccumulator_ident (s : State) (v : Byte) : (s.setAccumulator v).ident = s.ident := rfl
@[simp] theorem State.setAccumulator_store (s : State) (v : Byte) : (s.setAccumulator v).store = s.store := rfl
@[simp] theorem State.setAccumulator_checksumFn (s : State) (v : Byte) : (s.setAccumulator v).checksumFn = s.checksumFn := rfl
@[simp] theorem State.setAccumulator_now (s : State) (v : Byte) : (s.setAccumulator v).now = s.now := rfl
@[simp] theorem State.setAccumulator_tStart (s : State) (v : Byte) : (s.setAccumulator v).tStart = s.tStart := rfl
@[simp] theorem State.setAccumulator_tmrRestart (s : State) (v : Byte) : (s.setAccumulator v).tmrRestart = s.tmrRestart := rfl
@[simp] theorem State.setAccumulator_emitted (s : State) (v : Byte) : (s.setAccumulator v).emitted = s.emitted := rfl
@[simp] theorem State.setAccumulator_inputs (s : State) (v : Byte) : (s.setAccumulator v).inputs = s.inputs := rfl
@[simp] theorem State.setAccumulator_draws (s : State) (v : Byte) : (s.setAccumulator v).draws = s.draws := rfl

/-! ### setPending -/

@[simp] theorem State.setPending_phase (s : State) (p : Bool) : (s.setPending p).phase = s.phase := rfl
@[simp] theorem State.setPending_lastLineLevel (s : State) (p : Bool) : (s.setPending p).lastLineLevel = s.lastLineLevel := rfl
@[simp] theorem State.setPending_bitIndex (s : State) (p : Bool) : (s.setPending p).bitIndex = s.bitIndex := rfl
@[simp] theorem State.setPending_byteIndex (s : State) (p : Bool) : (s.setPending p).byteIndex = s.byteIndex := rfl
@[simp] theorem State.setPending_accumulator (s : State) (p : Bool) : (s.setPending p).accumulator = s.accumulator := rfl
@[simp] theorem State.setPending_activeBuffer (s : State) (p : Bool) : (s.setPending p).activeBuffer = s.activeBuffer := rfl
@[simp] theorem State.setPending_pendingDriveLow (s : State) (p : Bool) : (s.setPending p).pendingDriveLow = p := rfl
@[simp] theorem State.setPending_continuation (s : State) (p : Bool) : (s.setPending p).continuation = s.continuation := rfl
@[simp] theorem State.setPending_selected (s : State) (p : Bool) : (s.setPending p).selected = s.selected := rfl
@[simp] theorem State.setPending_trans (s : State) (p : Bool) : (s.setPending p).trans = s.trans := rfl
@[simp] theorem State.setPending_drive (s : State) (p : Bool) : (s.setPending p).drive = s.drive := rfl
@[simp] theorem State.setPending_ovfArmed (s : State) (p : Bool) : (s.setPending p).ovfArmed = s.ovfArmed := rfl
@[simp] theorem State.setPending_cmpArmed (s : State) (p : Bool) : (s.setPending p).cmpArmed = s.cmpArmed := rfl
@[simp] theorem State.setPending_faults (s : State) (p : Bool) : (s.setPending p).faults = s.faults := rfl
@[simp] theorem State.setPending_ident (s : State) (p : Bool) : (s.setPending p).ident = s.ident := rfl
@[simp] theorem State.setPending_store (s : State) (p : Bool) : (s.setPending p).store = s.store := rfl
@[simp] theorem State.setPending_checksumFn (s : State) (p : Bool) : (s.setPending p).checksumFn = s.checksumFn := rfl
@[simp] theorem State.setPending_now (s : State) (p : Bool) : (s.setPending p).now = s.now := rfl
@[simp] theorem State.setPending_tStart (s : State) (p : Bool) : (s.setPending p).tStart = s.tStart := rfl
@[simp] theorem State.setPending_tmrRestart (s : State) (p : Bool) : (s.setPending p).tmrRestart = s.tmrRestart := rfl
@[simp] theorem State.setPending_emitted (s : State) (p : Bool) : (s.setPending p).emitted = s.emitted := rfl
@[simp] theorem State.setPending_inputs (s : State) (p : Bool) : (s.setPending p).inputs = s.inputs := rfl
@[simp] theorem State.setPending_draws (s : State) (p : Bool) : (s.setPending p).draws = s.draws := rfl

/-! ### nextBit -/

@[simp] theorem State.nextBit_phase (s : State) : s.nextBit.phase = s.phase := rfl
@[simp] theorem State.nextBit_lastLineLevel (s : State) : s.nextBit.lastLineLevel = s.lastLineLevel := rfl
@[simp] theorem State.nextBit_bitIndex (s : State) : s.nextBit.bitIndex = s.bitIndex + 1 := rfl
@[simp] theorem State.nextBit_byteIndex (s : State) : s.nextBit.byteIndex = s.byteIndex := rfl
@[simp] theorem State.nextBit_accumulator (s : State) : s.nextBit.accumulator = s.accumulator := rfl
@[simp] theorem State.nextBit_activeBuffer (s : State) : s.nextBit.activeBuffer = s.activeBuffer := rfl
@[simp] theorem State.nextBit_pendingDriveLow (s : State) : s.nextBit.pendingDriveLow = s.pendingDriveLow := rfl
@[simp] theorem State.nextBit_continuation (s : State) : s.nextBit.continuation = s.continuation := rfl
@[simp] theorem State.nextBit_selected (s : State) : s.nextBit.selected = s.selected := rfl
@[simp] theorem State.nextBit_trans (s : State) : s.nextBit.trans = s.trans := rfl
@[simp] theorem State.nextBit_drive (s : State) : s.nextBit.drive = s.drive := rfl
@[simp] theorem State.nextBit_ovfArmed (s : State) : s.nextBit.ovfArmed = s.ovfArmed := rfl
@[simp] theorem State.nextBit_cmpArmed (s : State) : s.nextBit.cmpArmed = s.cmpArmed := rfl
@[simp] theorem State.nextBit_faults (s : State) : s.nextBit.faults = s.faults := rfl
@[simp] theorem State.nextBit_ident (s : State) : s.nextBit.ident = s.ident := rfl
@[simp] theorem State.nextBit_store (s : State) : s.nextBit.store = s.store := rfl
@[simp] theorem State.nextBit_checksumFn (s : State) : s.nextBit.checksumFn = s.checksumFn := rfl
@[simp] theorem State.nextBit_now (s : State) : s.nextBit.now = s.now := rfl
@[simp] theorem State.nextBit_tStart (s : State) : s.nextBit.tStart = s.tStart := rfl
@[simp] theorem State.nextBit_tmrRestart (s : State) : s.nextBit.tmrRestart = s.tmrRestart := rfl
@[simp] theorem State.nextBit_emitted (s : State) : s.nextBit.emitted = s.emitted := rfl
@[simp] theorem State.nextBit_inputs (s : State) : s.nextBit.inputs = s.inputs := rfl
@[simp] theorem State.nextBit_draws (s : State) : s.nextBit.draws = s.draws := rfl

/-! ### nextByte -/

@[simp] theorem State.nextByte_phase (s : State) : s.nextByte.phase = s.phase := rfl
@[simp] theorem State.nextByte_lastLineLevel (s : State) : s.nextByte.lastLineLevel = s.lastLineLevel := rfl
@[simp] theorem State.nextByte_bitIndex (s : State) : s.nextByte.bitIndex = 0 := rfl
@[simp] theorem State.nextByte_byteIndex (s : State) : s.nextByte.byteIndex = s.byteIndex + 1 := rfl
@[simp] theorem State.nextByte_accumulator (s : State) : s.nextByte.accumulator = s.accumulator := rfl
@[simp] theorem State.nextByte_activeBuffer (s : State) : s.nextByte.activeBuffer = s.activeBuffer := rfl
@[simp] theorem State.nextByte_pendingDriveLow (s : State) : s.nextByte.pendingDriveLow = s.pendingDriveLow := rfl
@[simp] theorem State.nextByte_continuation (s : State) : s.nextByte.continuation = s.continuation := rfl
@[simp] theorem State.nextByte_selected (s : State) : s.nextByte.selected = s.selected := rfl
@[simp] theorem State.nextByte_trans (s : State) : s.nextByte.trans = s.trans := rfl
@[simp] theorem State.nextByte_drive (s : State) : s.nextByte.drive = s.drive := rfl
@[simp] theorem State.nextByte_ovfArmed (s : State) : s.nextByte.ovfArmed = s.ovfArmed := rfl
@[simp] theorem State.nextByte_cmpArmed (s : State) : s.nextByte.cmpArmed = s.cmpArmed := rfl
@[simp] theorem State.nextByte_faults (s : State) : s.nextByte.faults = s.faults := rfl
@[simp] theorem State.nextByte_ident (s : State) : s.nextByte.ident = s.ident := rfl
@[simp] theorem State.nextByte_store (s : State) : s.nextByte.store = s.store := rfl
@[simp] theorem State.nextByte_checksumFn (s : State) : s.nextByte.checksumFn = s.checksumFn := rfl
@[simp] theorem State.nextByte_now (s : State) : s.nextByte.now = s.now := rfl
@[simp] theorem State.nextByte_tStart (s : State) : s.nextByte.tStart = s.tStart := rfl
@[simp] theorem State.nextByte_tmrRestart (s : State) : s.nextByte.tmrRestart = s.tmrRestart := rfl
@[simp] theorem State.nextByte_emitted (s : State) : s.nextByte.emitted = s.emitted := rfl
@[simp] theorem State.nextByte_inputs (s : State) : s.nextByte.inputs = s.inputs := rfl
@[simp] theorem State.nextByte_draws (s : State) : s.nextByte.draws = s.draws := rfl

/-! ### openBuffer -/

@[simp] theorem State.openBuffer_phase (s : State) (kind : SourceKind) (base len : Index) (c : Continuation) : (s.openBuffer kind base len c).phase = s.phase := rfl
@[simp] theorem State.openBuffer_lastLineLevel (s : State) (kind : SourceKind) (base len : Index) (c : Continuation) : (s.openBuffer kind base len c).lastLineLevel = s.lastLineLevel := rfl
@[simp] theorem State.openBuffer_bitIndex (s : State) (kind : SourceKind) (base len : Index) (c : Continuation) : (s.openBuffer kind base len c).bitIndex = 0 := rfl
@[simp] theorem State.openBuffer_byteIndex (s : State) (kind : SourceKind) (base len : Index) (c : Continuation) : (s.openBuffer kind base len c).byteIndex = 0 := rfl
@[simp] theorem State.openBuffer_accumulator (s : State) (kind : SourceKind) (base len : Index) (c : Continuation) : (s.openBuffer kind base len c).accumulator = s.accumulator := rfl
@[simp] theorem State.openBuffer_activeBuffer (s : State) (kind : SourceKind) (base len : Index) (c : Continuation) : (s.openBuffer kind base len c).activeBuffer = .val ⟨kind, base, len⟩ := rfl
@[simp] theorem State.openBuffer_pendingDriveLow (s : State) (kind : SourceKind) (base len : Index) (c : Continuation) : (s.openBuffer kind base len c).pendingDriveLow = s.pendingDriveLow := rfl
@[simp] theorem State.openBuffer_continuation (s : State) (kind : SourceKind) (base len : Index) (c : Continuation) : (s.openBuffer kind base len c).continuation = c := rfl
@[simp] theorem State.openBuffer_selected (s : State) (kind : SourceKind) (base len : Index) (c : Continuation) : (s.openBuffer kind base len c).selected = s.selected := rfl
@[simp] theorem State.openBuffer_trans (s : State) (kind : SourceKind) (base len : Index) (c : Continuation) : (s.openBuffer kind base len c).trans = s.trans := rfl
@[simp] theorem State.openBuffer_drive (s : State) (kind : SourceKind) (base len : Index) (c : Continuation) : (s.openBuffer kind base len c).drive = s.drive := rfl
@[simp] theorem State.openBuffer_ovfArmed (s : State) (kind : SourceKind) (base len : Index) (c : Continuation) : (s.openBuffer kind base len c).ovfArmed = s.ovfArmed := rfl
@[simp] theorem State.openBuffer_cmpArmed (s : State) (kind : SourceKind) (base len : Index) (c : Continuation) : (s.openBuffer kind base len c).cmpArmed = s.cmpArmed := rfl
@[simp] theorem State.openBuffer_faults (s : State) (kind : SourceKind) (base len : Index) (c : Continuation) : (s.openBuffer kind base len c).faults = s.faults := rfl
@[simp] theorem State.openBuffer_ident (s : State) (kind : SourceKind) (base len : Index) (c : Continuation) : (s.openBuffer kind base len c).ident = s.ident := rfl
@[simp] theorem State.openBuffer_store (s : State) (kind : SourceKind) (base len : Index) (c : Continuation) : (s.openBuffer kind base len c).store = s.store := rfl
@[simp] theorem State.openBuffer_checksumFn (s : State) (kind : SourceKind) (base len : Index) (c : Continuation) : (s.openBuffer kind base len c).checksumFn = s.checksumFn := rfl
@[simp] theorem State.openBuffer_now (s : State) (kind : SourceKind) (base len : Index) (c : Continuation) : (s.openBuffer kind base len c).now = s.now := rfl
@[simp] theorem State.openBuffer_tStart (s : State) (kind : SourceKind) (base len : Index) (c : Continuation) : (s.openBuffer kind base len c).tStart = s.tStart := rfl
@[simp] theorem State.openBuffer_tmrRestart (s : State) (kind : SourceKind) (base len : Index) (c : Continuation) : (s.openBuffer kind base len c).tmrRestart = s.tmrRestart := rfl
@[simp] theorem State.openBuffer_emitted (s : State) (kind : SourceKind) (base len : Index) (c : Continuation) : (s.openBuffer kind base len c).emitted = s.emitted := rfl
@[simp] theorem State.openBuffer_inputs (s : State) (kind : SourceKind) (base len : Index) (c : Continuation) : (s.openBuffer kind base len c).inputs = s.inputs := rfl
@[simp] theorem State.openBuffer_draws (s : State) (kind : SourceKind) (base len : Index) (c : Continuation) : (s.openBuffer kind base len c).draws = s.draws := rfl

/-! ### pullLow -/

@[simp] theorem State.pullLow_phase (s : State) : s.pullLow.phase = s.phase := rfl
@[simp] theorem State.pullLow_lastLineLevel (s : State) : s.pullLow.lastLineLevel = s.lastLineLevel := rfl
@[simp] theorem State.pullLow_bitIndex (s : State) : s.pullLow.bitIndex = s.bitIndex := rfl
@[simp] theorem State.pullLow_byteIndex (s : State) : s.pullLow.byteIndex = s.byteIndex := rfl
@[simp] theorem State.pullLow_accumulator (s : State) : s.pullLow.accumulator = s.accumulator := rfl
@[simp] theorem State.pullLow_activeBuffer (s : State) : s.pullLow.activeBuffer = s.activeBuffer := rfl
@[simp] theorem State.pullLow_pendingDriveLow (s : State) : s.pullLow.pendingDriveLow = s.pendingDriveLow := rfl
@[simp] theorem State.pullLow_continuation (s : State) : s.pullLow.continuation = s.continuation := rfl
@[simp] theorem State.pullLow_selected (s : State) : s.pullLow.selected = s.selected := rfl
@[simp] theorem State.pullLow_trans (s : State) : s.pullLow.trans = s.trans := rfl
@[simp] theorem State.pullLow_drive (s : State) : s.pullLow.drive = true := rfl
@[simp] theorem State.pullLow_ovfArmed (s : State) : s.pullLow.ovfArmed = s.ovfArmed := rfl
@[simp] theorem State.pullLow_cmpArmed (s : State) : s.pullLow.cmpArmed = s.cmpArmed := rfl
@[simp] theorem State.pullLow_faults (s : State) : s.pullLow.faults = s.faults := rfl
@[simp] theorem State.pullLow_ident (s : State) : s.pullLow.ident = s.ident := rfl
@[simp] theorem State.pullLow_store (s : State) : s.pullLow.store = s.store := rfl
@[simp] theorem State.pullLow_checksumFn (s : State) : s.pullLow.checksumFn = s.checksumFn := rfl
@[simp] theorem State.pullLow_now (s : State) : s.pullLow.now = s.now := rfl
@[simp] theorem State.pullLow_tStart (s : State) : s.pullLow.tStart = s.tStart := rfl
@[simp] theorem State.pullLow_tmrRestart (s : State) : s.pullLow.tmrRestart = s.tmrRestart := rfl
@[simp] theorem State.pullLow_emitted (s : State) : s.pullLow.emitted = s.emitted ++ [.pullLow] := rfl
@[simp] theorem State.pullLow_inputs (s : State) : s.pullLow.inputs = s.inputs := rfl
@[simp] theorem State.pullLow_draws (s : State) : s.pullLow.draws = s.draws := rfl

/-! ### release -/

@[simp] theorem State.release_phase (s : State) : s.release.phase = s.phase := rfl
@[simp] theorem State.release_lastLineLevel (s : State) : s.release.lastLineLevel = s.lastLineLevel := rfl
@[simp] theorem State.release_bitIndex (s : State) : s.release.bitIndex = s.bitIndex := rfl
@[simp] theorem State.release_byteIndex (s : State) : s.release.byteIndex = s.byteIndex := rfl
@[simp] theorem State.release_accumulator (s : State) : s.release.accumulator = s.accumulator := rfl
@[simp] theorem State.release_activeBuffer (s : State) : s.release.activeBuffer = s.activeBuffer := rfl
@[simp] theorem State.release_pendingDriveLow (s : State) : s.release.pendingDriveLow = s.pendingDriveLow := rfl
@[simp] theorem State.release_continuation (s : State) : s.release.continuation = s.continuation := rfl
@[simp] theorem State.release_selected (s : State) : s.release.selected = s.selected := rfl
@[simp] theorem State.release_trans (s : State) : s.release.trans = s.trans := rfl
@[simp] theorem State.release_drive (s : State) : s.release.drive = false := rfl
@[simp] theorem State.release_ovfArmed (s : State) : s.release.ovfArmed = s.ovfArmed := rfl
@[simp] theorem State.release_cmpArmed (s : State) : s.release.cmpArmed = s.cmpArmed := rfl
@[simp] theorem State.release_faults (s : State) : s.release.faults = s.faults := rfl
@[simp] theorem State.release_ident (s : State) : s.release.ident = s.ident := rfl
@[simp] theorem State.release_store (s : State) : s.release.store = s.store := rfl
@[simp] theorem State.release_checksumFn (s : State) : s.release.checksumFn = s.checksumFn := rfl
@[simp] theorem State.release_now (s : State) : s.release.now = s.now := rfl
@[simp] theorem State.release_tStart (s : State) : s.release.tStart = s.tStart := rfl
@[simp] theorem State.release_tmrRestart (s : State) : s.release.tmrRestart = s.tmrRestart := rfl
@[simp] theorem State.release_emitted (s : State) : s.release.emitted = s.emitted ++ [.release] := rfl
@[simp] theorem State.release_inputs (s : State) : s.release.inputs = s.inputs := rfl
@[simp] theorem State.release_draws (s : State) : s.release.draws = s.draws := rfl

/-! ### restartTimer -/

@[simp] theorem State.restartTimer_phase (s : State) : s.restartTimer.phase = s.phase := rfl
@[simp] theorem State.restartTimer_lastLineLevel (s : State) : s.restartTimer.lastLineLevel = s.lastLineLevel := rfl
@[simp] theorem State.restartTimer_bitIndex (s : State) : s.restartTimer.bitIndex = s.bitIndex := rfl
@[simp] theorem State.restartTimer_byteIndex (s : State) : s.restartTimer.byteIndex = s.byteIndex := rfl
@[simp] theorem State.restartTimer_accumulator (s : State) : s.restartTimer.accumulator = s.accumulator := rfl
@[simp] theorem State.restartTimer_activeBuffer (s : State) : s.restartTimer.activeBuffer = s.activeBuffer := rfl
@[simp] theorem State.restartTimer_pendingDriveLow (s : State) : s.restartTimer.pendingDriveLow = s.pendingDriveLow := rfl
@[simp] theorem State.restartTimer_continuation (s : State) : s.restartTimer.continuation = s.continuation := rfl
@[simp] theorem State.restartTimer_selected (s : State) : s.restartTimer.selected = s.selected := rfl
@[simp] theorem State.restartTimer_trans (s : State) : s.restartTimer.trans = s.trans := rfl
@[simp] theorem State.restartTimer_drive (s : State) : s.restartTimer.drive = s.drive := rfl
@[simp] theorem State.restartTimer_ovfArmed (s : State) : s.restartTimer.ovfArmed = s.ovfArmed := rfl
@[simp] theorem State.restartTimer_cmpArmed (s : State) : s.restartTimer.cmpArmed = s.cmpArmed := rfl
@[simp] theorem State.restartTimer_faults (s : State) : s.restartTimer.faults = s.faults := rfl
@[simp] theorem State.restartTimer_ident (s : State) : s.restartTimer.ident = s.ident := rfl
@[simp] theorem State.restartTimer_store (s : State) : s.restartTimer.store = s.store := rfl
@[simp] theorem State.restartTimer_checksumFn (s : State) : s.restartTimer.checksumFn = s.checksumFn := rfl
@[simp] theorem State.restartTimer_now (s : State) : s.restartTimer.now = s.now := rfl
@[simp] theorem State.restartTimer_tStart (s : State) : s.restartTimer.tStart = s.now := rfl
@[simp] theorem State.restartTimer_tmrRestart (s : State) : s.restartTimer.tmrRestart = true := rfl
@[simp] theorem State.restartTimer_emitted (s : State) : s.restartTimer.emitted = s.emitted := rfl
@[simp] theorem State.restartTimer_inputs (s : State) : s.restartTimer.inputs = s.inputs := rfl
@[simp] theorem State.restartTimer_draws (s : State) : s.restartTimer.draws = s.draws := rfl

/-! ### startReceive -/

@[simp] theorem State.startReceive_phase (s : State) (base len : Index) (c : Continuation) : (s.startReceive base len c).phase = .receiving := rfl
@[simp] theorem State.startReceive_lastLineLevel (s : State) (base len : Index) (c : Continuation) : (s.startReceive base len c).lastLineLevel = s.lastLineLevel := rfl
@[simp] theorem State.startReceive_bitIndex (s : State) (base len : Index) (c : Continuation) : (s.startReceive base len c).bitIndex = 0 := rfl
@[simp] theorem State.startReceive_byteIndex (s : State) (base len : Index) (c : Continuation) : (s.startReceive base len c).byteIndex = 0 := rfl
@[simp] theorem State.startReceive_accumulator (s : State) (base len : Index) (c : Continuation) : (s.startReceive base len c).accumulator = .val 0 := rfl
@[simp] theorem State.startReceive_activeBuffer (s : State) (base len : Index) (c : Continuation) : (s.startReceive base len c).activeBuffer = .val ⟨.transient, base, len⟩ := rfl
@[simp] theorem State.startReceive_pendingDriveLow (s : State) (base len : Index) (c : Continuation) : (s.startReceive base len c).pendingDriveLow = false := rfl
@[simp] theorem State.startReceive_continuation (s : State) (base len : Index) (c : Continuation) : (s.startReceive base len c).continuation = c := rfl
@[simp] theorem State.startReceive_selected (s : State) (base len : Index) (c : Continuation) : (s.startReceive base len c).selected = s.selected := rfl
@[simp] theorem State.startReceive_trans (s : State) (base len : Index) (c : Continuation) : (s.startReceive base len c).trans = s.trans := rfl
@[simp] theorem State.startReceive_drive (s : State) (base len : Index) (c : Continuation) : (s.startReceive base len c).drive = s.drive := rfl
@[simp] theorem State.startReceive_ovfArmed (s : State) (base len : Index) (c : Continuation) : (s.startReceive base len c).ovfArmed = s.ovfArmed := rfl
@[simp] theorem State.startReceive_cmpArmed (s : State) (base len : Index) (c : Continuation) : (s.startReceive base len c).cmpArmed = s.cmpArmed := rfl
@[simp] theorem State.startReceive_faults (s : State) (base len : Index) (c : Continuation) : (s.startReceive base len c).faults = s.faults := rfl
@[simp] theorem State.startReceive_ident (s : State) (base len : Index) (c : Continuation) : (s.startReceive base len c).ident = s.ident := rfl
@[simp] theorem State.startReceive_store (s : State) (base len : Index) (c : Continuation) : (s.startReceive base len c).store = s.store := rfl
@[simp] theorem State.startReceive_checksumFn (s : State) (base len : Index) (c : Continuation) : (s.startReceive base len c).checksumFn = s.checksumFn := rfl
@[simp] theorem State.startReceive_now (s : State) (base len : Index) (c : Continuation) : (s.startReceive base len c).now = s.now := rfl
@[simp] theorem State.startReceive_tStart (s : State) (base len : Index) (c : Continuation) : (s.startReceive base len c).tStart = s.tStart := rfl
@[simp] theorem State.startReceive_tmrRestart (s : State) (base len : Index) (c : Continuation) : (s.startReceive base len c).tmrRestart = s.tmrRestart := rfl
@[simp] theorem State.startReceive_emitted (s : State) (base len : Index) (c : Continuation) : (s.startReceive base len c).emitted = s.emitted := rfl
@[simp] theorem State.startReceive_inputs (s : State) (base len : Index) (c : Continuation) : (s.startReceive base len c).inputs = s.inputs := rfl
@[simp] theorem State.startReceive_draws (s : State) (base len : Index) (c : Continuation) : (s.startReceive base len c).draws = s.draws := rfl

/-! ### fallPrologue -/

@[simp] theorem State.fallPrologue_phase (s : State) : s.fallPrologue.phase = s.phase := rfl
@[simp] theorem State.fallPrologue_lastLineLevel (s : State) : s.fallPrologue.lastLineLevel = s.lastLineLevel := rfl
@[simp] theorem State.fallPrologue_bitIndex (s : State) : s.fallPrologue.bitIndex = s.bitIndex := rfl
@[simp] theorem State.fallPrologue_byteIndex (s : State) : s.fallPrologue.byteIndex = s.byteIndex := rfl
@[simp] theorem State.fallPrologue_accumulator (s : State) : s.fallPrologue.accumulator = s.accumulator := rfl
@[simp] theorem State.fallPrologue_activeBuffer (s : State) : s.fallPrologue.activeBuffer = s.activeBuffer := rfl
@[simp] theorem State.fallPrologue_pendingDriveLow (s : State) : s.fallPrologue.pendingDriveLow = s.pendingDriveLow := rfl
@[simp] theorem State.fallPrologue_continuation (s : State) : s.fallPrologue.continuation = s.continuation := rfl
@[simp] theorem State.fallPrologue_selected (s : State) : s.fallPrologue.selected = s.selected := rfl
@[simp] theorem State.fallPrologue_trans (s : State) : s.fallPrologue.trans = s.trans := rfl
@[simp] theorem State.fallPrologue_drive (s : State) : s.fallPrologue.drive = s.drive := rfl
@[simp] theorem State.fallPrologue_ovfArmed (s : State) : s.fallPrologue.ovfArmed = true := rfl
@[simp] theorem State.fallPrologue_cmpArmed (s : State) : s.fallPrologue.cmpArmed = s.cmpArmed := rfl
@[simp] theorem State.fallPrologue_faults (s : State) : s.fallPrologue.faults = s.faults := rfl
@[simp] theorem State.fallPrologue_ident (s : State) : s.fallPrologue.ident = s.ident := rfl
@[simp] theorem State.fallPrologue_store (s : State) : s.fallPrologue.store = s.store := rfl
@[simp] theorem State.fallPrologue_checksumFn (s : State) : s.fallPrologue.checksumFn = s.checksumFn := rfl
@[simp] theorem State.fallPrologue_now (s : State) : s.fallPrologue.now = s.now := rfl
@[simp] theorem State.fallPrologue_tStart (s : State) : s.fallPrologue.tStart = s.now := rfl
@[simp] theorem State.fallPrologue_tmrRestart (s : State) : s.fallPrologue.tmrRestart = true := rfl
@[simp] theorem State.fallPrologue_emitted (s : State) : s.fallPrologue.emitted = s.emitted := rfl
@[simp] theorem State.fallPrologue_inputs (s : State) : s.fallPrologue.inputs = s.inputs := rfl
@[simp] theorem State.fallPrologue_draws (s : State) : s.fallPrologue.draws = s.draws := rfl

/-! ### risePrologue -/

@[simp] theorem State.risePrologue_phase (s : State) : s.risePrologue.phase = s.phase := rfl
@[simp] theorem State.risePrologue_lastLineLevel (s : State) : s.risePrologue.lastLineLevel = true := rfl
@[simp] theorem State.risePrologue_bitIndex (s : State) : s.risePrologue.bitIndex = s.bitIndex := rfl
@[simp] theorem State.risePrologue_byteIndex (s : State) : s.risePrologue.byteIndex = s.byteIndex := rfl
@[simp] theorem State.risePrologue_accumulator (s : State) : s.risePrologue.accumulator = s.accumulator := rfl
@[simp] theorem State.risePrologue_activeBuffer (s : State) : s.risePrologue.activeBuffer = s.activeBuffer := rfl
@[simp] theorem State.risePrologue_pendingDriveLow (s : State) : s.risePrologue.pendingDriveLow = s.pendingDriveLow := rfl
@[simp] theorem State.risePrologue_continuation (s : State) : s.risePrologue.continuation = s.continuation := rfl
@[simp] theorem State.risePrologue_selected (s : State) : s.risePrologue.selected = s.selected := rfl
@[simp] theorem State.risePrologue_trans (s : State) : s.risePrologue.trans = s.trans := rfl
@[simp] theorem State.risePrologue_drive (s : State) : s.risePrologue.drive = s.drive := rfl
@[simp] theorem State.risePrologue_ovfArmed (s : State) : s.risePrologue.ovfArmed = false := rfl
@[simp] theorem State.risePrologue_cmpArmed (s : State) : s.risePrologue.cmpArmed = s.cmpArmed := rfl
@[simp] theorem State.risePrologue_faults (s : State) : s.risePrologue.faults = s.faults := rfl
@[simp] theorem State.risePrologue_ident (s : State) : s.risePrologue.ident = s.ident := rfl
@[simp] theorem State.risePrologue_store (s : State) : s.risePrologue.store = s.store := rfl
@[simp] theorem State.risePrologue_checksumFn (s : State) : s.risePrologue.checksumFn = s.checksumFn := rfl
@[simp] theorem State.risePrologue_now (s : State) : s.risePrologue.now = s.now := rfl
@[simp] theorem State.risePrologue_tStart (s : State) : s.risePrologue.tStart = s.tStart := rfl
@[simp] theorem State.risePrologue_tmrRestart (s : State) : s.risePrologue.tmrRestart = s.tmrRestart := rfl
@[simp] theorem State.risePrologue_emitted (s : State) : s.risePrologue.emitted = s.emitted := rfl
@[simp] theorem State.risePrologue_inputs (s : State) : s.risePrologue.inputs = s.inputs := rfl
@[simp] theorem State.risePrologue_draws (s : State) : s.risePrologue.draws = s.draws := rfl

/-! ### reconcile -/

@[simp] theorem State.reconcile_phase (s : State) (level : Bool) : (s.reconcile level).phase = s.phase := rfl
@[simp] theorem State.reconcile_lastLineLevel (s : State) (level : Bool) : (s.reconcile level).lastLineLevel = level := rfl
@[simp] theorem State.reconcile_bitIndex (s : State) (level : Bool) : (s.reconcile level).bitIndex = s.bitIndex := rfl
@[simp] theorem State.reconcile_byteIndex (s : State) (level : Bool) : (s.reconcile level).byteIndex = s.byteIndex := rfl
@[simp] theorem State.reconcile_accumulator (s : State) (level : Bool) : (s.reconcile level).accumulator = s.accumulator := rfl
@[simp] theorem State.reconcile_activeBuffer (s : State) (level : Bool) : (s.reconcile level).activeBuffer = s.activeBuffer := rfl
@[simp] theorem State.reconcile_pendingDriveLow (s : State) (level : Bool) : (s.reconcile level).pendingDriveLow = s.pendingDriveLow := rfl
@[simp] theorem State.reconcile_continuation (s : State) (level : Bool) : (s.reconcile level).continuation = s.continuation := rfl
@[simp] theorem State.reconcile_selected (s : State) (level : Bool) : (s.reconcile level).selected = s.selected := rfl
@[simp] theorem State.reconcile_trans (s : State) (level : Bool) : (s.reconcile level).trans = s.trans := rfl
@[simp] theorem State.reconcile_drive (s : State) (level : Bool) : (s.reconcile level).drive = s.drive := rfl
@[simp] theorem State.reconcile_ovfArmed (s : State) (level : Bool) : (s.reconcile level).ovfArmed = if level then false else s.ovfArmed := rfl
@[simp] theorem State.reconcile_cmpArmed (s : State) (level : Bool) : (s.reconcile level).cmpArmed = s.cmpArmed := rfl
@[simp] theorem State.reconcile_faults (s : State) (level : Bool) : (s.reconcile level).faults = s.faults := rfl
@[simp] theorem State.reconcile_ident (s : State) (level : Bool) : (s.reconcile level).ident = s.ident := rfl
@[simp] theorem State.reconcile_store (s : State) (level : Bool) : (s.reconcile level).store = s.store := rfl
@[simp] theorem State.reconcile_checksumFn (s : State) (level : Bool) : (s.reconcile level).checksumFn = s.checksumFn := rfl
@[simp] theorem State.reconcile_now (s : State) (level : Bool) : (s.reconcile level).now = s.now := rfl
@[simp] theorem State.reconcile_tStart (s : State) (level : Bool) : (s.reconcile level).tStart = s.tStart := rfl
@[simp] theorem State.reconcile_tmrRestart (s : State) (level : Bool) : (s.reconcile level).tmrRestart = s.tmrRestart := rfl
@[simp] theorem State.reconcile_emitted (s : State) (level : Bool) : (s.reconcile level).emitted = s.emitted := rfl
@[simp] theorem State.reconcile_inputs (s : State) (level : Bool) : (s.reconcile level).inputs = s.inputs := rfl
@[simp] theorem State.reconcile_draws (s : State) (level : Bool) : (s.reconcile level).draws = s.draws := rfl

/-! ### runNone -/

@[simp] theorem State.runNone_phase (s : State) : s.runNone.phase = s.phase := rfl
@[simp] theorem State.runNone_lastLineLevel (s : State) : s.runNone.lastLineLevel = s.lastLineLevel := rfl
@[simp] theorem State.runNone_bitIndex (s : State) : s.runNone.bitIndex = s.bitIndex := rfl
@[simp] theorem State.runNone_byteIndex (s : State) : s.runNone.byteIndex = s.byteIndex := rfl
@[simp] theorem State.runNone_accumulator (s : State) : s.runNone.accumulator = s.accumulator := rfl
@[simp] theorem State.runNone_activeBuffer (s : State) : s.runNone.activeBuffer = s.activeBuffer := rfl
@[simp] theorem State.runNone_pendingDriveLow (s : State) : s.runNone.pendingDriveLow = s.pendingDriveLow := rfl
@[simp] theorem State.runNone_continuation (s : State) : s.runNone.continuation = .none := rfl
@[simp] theorem State.runNone_selected (s : State) : s.runNone.selected = s.selected := rfl
@[simp] theorem State.runNone_trans (s : State) : s.runNone.trans = s.trans := rfl
@[simp] theorem State.runNone_drive (s : State) : s.runNone.drive = s.drive := rfl
@[simp] theorem State.runNone_ovfArmed (s : State) : s.runNone.ovfArmed = s.ovfArmed := rfl
@[simp] theorem State.runNone_cmpArmed (s : State) : s.runNone.cmpArmed = s.cmpArmed := rfl
@[simp] theorem State.runNone_faults (s : State) : s.runNone.faults = s.faults := rfl
@[simp] theorem State.runNone_ident (s : State) : s.runNone.ident = s.ident := rfl
@[simp] theorem State.runNone_store (s : State) : s.runNone.store = s.store := rfl
@[simp] theorem State.runNone_checksumFn (s : State) : s.runNone.checksumFn = s.checksumFn := rfl
@[simp] theorem State.runNone_now (s : State) : s.runNone.now = s.now := rfl
@[simp] theorem State.runNone_tStart (s : State) : s.runNone.tStart = s.tStart := rfl
@[simp] theorem State.runNone_tmrRestart (s : State) : s.runNone.tmrRestart = s.tmrRestart := rfl
@[simp] theorem State.runNone_emitted (s : State) : s.runNone.emitted = s.emitted := rfl
@[simp] theorem State.runNone_inputs (s : State) : s.runNone.inputs = s.inputs := rfl
@[simp] theorem State.runNone_draws (s : State) : s.runNone.draws = s.draws := rfl

/-! ### selectAll -/

@[simp] theorem State.selectAll_phase (s : State) : s.selectAll.phase = .receiving := rfl
@[simp] theorem State.selectAll_lastLineLevel (s : State) : s.selectAll.lastLineLevel = s.lastLineLevel := rfl
@[simp] theorem State.selectAll_bitIndex (s : State) : s.selectAll.bitIndex = 0 := rfl
@[simp] theorem State.selectAll_byteIndex (s : State) : s.selectAll.byteIndex = 0 := rfl
@[simp] theorem State.selectAll_accumulator (s : State) : s.selectAll.accumulator = .val 0 := rfl
@[simp] theorem State.selectAll_activeBuffer (s : State) : s.selectAll.activeBuffer = .val ⟨.transient, 0, 1⟩ := rfl
@[simp] theorem State.selectAll_pendingDriveLow (s : State) : s.selectAll.pendingDriveLow = false := rfl
@[simp] theorem State.selectAll_continuation (s : State) : s.selectAll.continuation = .dispatchCommand := rfl
@[simp] theorem State.selectAll_selected (s : State) : s.selectAll.selected = true := rfl
@[simp] theorem State.selectAll_trans (s : State) : s.selectAll.trans = s.trans := rfl
@[simp] theorem State.selectAll_drive (s : State) : s.selectAll.drive = s.drive := rfl
@[simp] theorem State.selectAll_ovfArmed (s : State) : s.selectAll.ovfArmed = s.ovfArmed := rfl
@[simp] theorem State.selectAll_cmpArmed (s : State) : s.selectAll.cmpArmed = s.cmpArmed := rfl
@[simp] theorem State.selectAll_faults (s : State) : s.selectAll.faults = s.faults := rfl
@[simp] theorem State.selectAll_ident (s : State) : s.selectAll.ident = s.ident := rfl
@[simp] theorem State.selectAll_store (s : State) : s.selectAll.store = s.store := rfl
@[simp] theorem State.selectAll_checksumFn (s : State) : s.selectAll.checksumFn = s.checksumFn := rfl
@[simp] theorem State.selectAll_now (s : State) : s.selectAll.now = s.now := rfl
@[simp] theorem State.selectAll_tStart (s : State) : s.selectAll.tStart = s.tStart := rfl
@[simp] theorem State.selectAll_tmrRestart (s : State) : s.selectAll.tmrRestart = s.tmrRestart := rfl
@[simp] theorem State.selectAll_emitted (s : State) : s.selectAll.emitted = s.emitted := rfl
@[simp] theorem State.selectAll_inputs (s : State) : s.selectAll.inputs = s.inputs := rfl
@[simp] theorem State.selectAll_draws (s : State) : s.selectAll.draws = s.draws := rfl

/-! ### riseReset -/

@[simp] theorem State.riseReset_phase (s : State) : s.riseReset.phase = .presence := rfl
@[simp] theorem State.riseReset_lastLineLevel (s : State) : s.riseReset.lastLineLevel = false := rfl
@[simp] theorem State.riseReset_bitIndex (s : State) : s.riseReset.bitIndex = s.bitIndex := rfl
@[simp] theorem State.riseReset_byteIndex (s : State) : s.riseReset.byteIndex = s.byteIndex := rfl
@[simp] theorem State.riseReset_accumulator (s : State) : s.riseReset.accumulator = s.accumulator := rfl
@[simp] theorem State.riseReset_activeBuffer (s : State) : s.riseReset.activeBuffer = s.activeBuffer := rfl
@[simp] theorem State.riseReset_pendingDriveLow (s : State) : s.riseReset.pendingDriveLow = s.pendingDriveLow := rfl
@[simp] theorem State.riseReset_continuation (s : State) : s.riseReset.continuation = s.continuation := rfl
@[simp] theorem State.riseReset_selected (s : State) : s.riseReset.selected = s.selected := rfl
@[simp] theorem State.riseReset_trans (s : State) : s.riseReset.trans = s.trans := rfl
@[simp] theorem State.riseReset_drive (s : State) : s.riseReset.drive = true := rfl
@[simp] theorem State.riseReset_ovfArmed (s : State) : s.riseReset.ovfArmed = false := rfl
@[simp] theorem State.riseReset_cmpArmed (s : State) : s.riseReset.cmpArmed = true := rfl
@[simp] theorem State.riseReset_faults (s : State) : s.riseReset.faults = s.faults := rfl
@[simp] theorem State.riseReset_ident (s : State) : s.riseReset.ident = s.ident := rfl
@[simp] theorem State.riseReset_store (s : State) : s.riseReset.store = s.store := rfl
@[simp] theorem State.riseReset_checksumFn (s : State) : s.riseReset.checksumFn = s.checksumFn := rfl
@[simp] theorem State.riseReset_now (s : State) : s.riseReset.now = s.now := rfl
@[simp] theorem State.riseReset_tStart (s : State) : s.riseReset.tStart = s.now := rfl
@[simp] theorem State.riseReset_tmrRestart (s : State) : s.riseReset.tmrRestart = true := rfl
@[simp] theorem State.riseReset_emitted (s : State) : s.riseReset.emitted = s.emitted ++ [.pullLow] := rfl
@[simp] theorem State.riseReset_inputs (s : State) : s.riseReset.inputs = s.inputs := rfl
@[simp] theorem State.riseReset_draws (s : State) : s.riseReset.draws = s.draws := rfl

/-! ### beginStep -/

@[simp] theorem State.beginStep_phase (s : State) (d : Delivery) : (s.beginStep d).phase = s.phase := rfl
@[simp] theorem State.beginStep_lastLineLevel (s : State) (d : Delivery) : (s.beginStep d).lastLineLevel = s.lastLineLevel := rfl
@[simp] theorem State.beginStep_bitIndex (s : State) (d : Delivery) : (s.beginStep d).bitIndex = s.bitIndex := rfl
@[simp] theorem State.beginStep_byteIndex (s : State) (d : Delivery) : (s.beginStep d).byteIndex = s.byteIndex := rfl
@[simp] theorem State.beginStep_accumulator (s : State) (d : Delivery) : (s.beginStep d).accumulator = s.accumulator := rfl
@[simp] theorem State.beginStep_activeBuffer (s : State) (d : Delivery) : (s.beginStep d).activeBuffer = s.activeBuffer := rfl
@[simp] theorem State.beginStep_pendingDriveLow (s : State) (d : Delivery) : (s.beginStep d).pendingDriveLow = s.pendingDriveLow := rfl
@[simp] theorem State.beginStep_continuation (s : State) (d : Delivery) : (s.beginStep d).continuation = s.continuation := rfl
@[simp] theorem State.beginStep_selected (s : State) (d : Delivery) : (s.beginStep d).selected = s.selected := rfl
@[simp] theorem State.beginStep_trans (s : State) (d : Delivery) : (s.beginStep d).trans = s.trans := rfl
@[simp] theorem State.beginStep_drive (s : State) (d : Delivery) : (s.beginStep d).drive = s.drive := rfl
@[simp] theorem State.beginStep_ovfArmed (s : State) (d : Delivery) : (s.beginStep d).ovfArmed = s.ovfArmed := rfl
@[simp] theorem State.beginStep_cmpArmed (s : State) (d : Delivery) : (s.beginStep d).cmpArmed = s.cmpArmed := rfl
@[simp] theorem State.beginStep_faults (s : State) (d : Delivery) : (s.beginStep d).faults = s.faults := rfl
@[simp] theorem State.beginStep_ident (s : State) (d : Delivery) : (s.beginStep d).ident = s.ident := rfl
@[simp] theorem State.beginStep_store (s : State) (d : Delivery) : (s.beginStep d).store = s.store := rfl
@[simp] theorem State.beginStep_checksumFn (s : State) (d : Delivery) : (s.beginStep d).checksumFn = s.checksumFn := rfl
@[simp] theorem State.beginStep_now (s : State) (d : Delivery) : (s.beginStep d).now = s.now + d.dt := rfl
@[simp] theorem State.beginStep_tStart (s : State) (d : Delivery) : (s.beginStep d).tStart = s.tStart := rfl
@[simp] theorem State.beginStep_tmrRestart (s : State) (d : Delivery) : (s.beginStep d).tmrRestart = false := rfl
@[simp] theorem State.beginStep_emitted (s : State) (d : Delivery) : (s.beginStep d).emitted = [] := rfl
@[simp] theorem State.beginStep_inputs (s : State) (d : Delivery) : (s.beginStep d).inputs = d.rest := rfl
@[simp] theorem State.beginStep_draws (s : State) (d : Delivery) : (s.beginStep d).draws = s.draws := rfl

/-! ### placeEvent -/

@[simp] theorem State.placeEvent_phase (s : State) (w : EventWord) : (s.placeEvent w).phase = s.phase := rfl
@[simp] theorem State.placeEvent_lastLineLevel (s : State) (w : EventWord) : (s.placeEvent w).lastLineLevel = s.lastLineLevel := rfl
@[simp] theorem State.placeEvent_bitIndex (s : State) (w : EventWord) : (s.placeEvent w).bitIndex = s.bitIndex := rfl
@[simp] theorem State.placeEvent_byteIndex (s : State) (w : EventWord) : (s.placeEvent w).byteIndex = s.byteIndex := rfl
@[simp] theorem State.placeEvent_accumulator (s : State) (w : EventWord) : (s.placeEvent w).accumulator = s.accumulator := rfl
@[simp] theorem State.placeEvent_activeBuffer (s : State) (w : EventWord) : (s.placeEvent w).activeBuffer = s.activeBuffer := rfl
@[simp] theorem State.placeEvent_pendingDriveLow (s : State) (w : EventWord) : (s.placeEvent w).pendingDriveLow = s.pendingDriveLow := rfl
@[simp] theorem State.placeEvent_continuation (s : State) (w : EventWord) : (s.placeEvent w).continuation = s.continuation := rfl
@[simp] theorem State.placeEvent_selected (s : State) (w : EventWord) : (s.placeEvent w).selected = s.selected := rfl
@[simp] theorem State.placeEvent_trans (s : State) (w : EventWord) : (s.placeEvent w).trans = s.trans := rfl
@[simp] theorem State.placeEvent_drive (s : State) (w : EventWord) : (s.placeEvent w).drive = s.drive := rfl
@[simp] theorem State.placeEvent_ovfArmed (s : State) (w : EventWord) : (s.placeEvent w).ovfArmed = s.ovfArmed := rfl
@[simp] theorem State.placeEvent_cmpArmed (s : State) (w : EventWord) : (s.placeEvent w).cmpArmed = s.cmpArmed := rfl
@[simp] theorem State.placeEvent_faults (s : State) (w : EventWord) : (s.placeEvent w).faults = s.faults := rfl
@[simp] theorem State.placeEvent_ident (s : State) (w : EventWord) : (s.placeEvent w).ident = s.ident := rfl
@[simp] theorem State.placeEvent_store (s : State) (w : EventWord) : (s.placeEvent w).store = s.store := rfl
@[simp] theorem State.placeEvent_checksumFn (s : State) (w : EventWord) : (s.placeEvent w).checksumFn = s.checksumFn := rfl
@[simp] theorem State.placeEvent_now (s : State) (w : EventWord) : (s.placeEvent w).now = s.now := rfl
@[simp] theorem State.placeEvent_tStart (s : State) (w : EventWord) : (s.placeEvent w).tStart = s.tStart := rfl
@[simp] theorem State.placeEvent_tmrRestart (s : State) (w : EventWord) : (s.placeEvent w).tmrRestart = s.tmrRestart := rfl
@[simp] theorem State.placeEvent_emitted (s : State) (w : EventWord) : (s.placeEvent w).emitted = s.emitted := rfl
@[simp] theorem State.placeEvent_inputs (s : State) (w : EventWord) : (s.placeEvent w).inputs = [⟨0, w⟩] := rfl
@[simp] theorem State.placeEvent_draws (s : State) (w : EventWord) : (s.placeEvent w).draws = s.draws := rfl

/-! ### releaseIfDriven and enterReset -/

@[simp] theorem State.releaseIfDriven_phase (s : State) : s.releaseIfDriven.phase = s.phase := by
  unfold State.releaseIfDriven
  split <;> rfl
@[simp] theorem State.releaseIfDriven_lastLineLevel (s : State) : s.releaseIfDriven.lastLineLevel = s.lastLineLevel := by
  unfold State.releaseIfDriven
  split <;> rfl
@[simp] theorem State.releaseIfDriven_bitIndex (s : State) : s.releaseIfDriven.bitIndex = s.bitIndex := by
  unfold State.releaseIfDriven
  split <;> rfl
@[simp] theorem State.releaseIfDriven_byteIndex (s : State) : s.releaseIfDriven.byteIndex = s.byteIndex := by
  unfold State.releaseIfDriven
  split <;> rfl
@[simp] theorem State.releaseIfDriven_accumulator (s : State) : s.releaseIfDriven.accumulator = s.accumulator := by
  unfold State.releaseIfDriven
  split <;> rfl
@[simp] theorem State.releaseIfDriven_activeBuffer (s : State) : s.releaseIfDriven.activeBuffer = s.activeBuffer := by
  unfold State.releaseIfDriven
  split <;> rfl
@[simp] theorem State.releaseIfDriven_pendingDriveLow (s : State) : s.releaseIfDriven.pendingDriveLow = s.pendingDriveLow := by
  unfold State.releaseIfDriven
  split <;> rfl
@[simp] theorem State.releaseIfDriven_continuation (s : State) : s.releaseIfDriven.continuation = s.continuation := by
  unfold State.releaseIfDriven
  split <;> rfl
@[simp] theorem State.releaseIfDriven_selected (s : State) : s.releaseIfDriven.selected = s.selected := by
  unfold State.releaseIfDriven
  split <;> rfl
@[simp] theorem State.releaseIfDriven_trans (s : State) : s.releaseIfDriven.trans = s.trans := by
  unfold State.releaseIfDriven
  split <;> rfl
@[simp] theorem State.releaseIfDriven_drive (s : State) : s.releaseIfDriven.drive = false := by
  unfold State.releaseIfDriven
  cases h : s.drive <;> simp [h]
@[simp] theorem State.releaseIfDriven_ovfArmed (s : State) : s.releaseIfDriven.ovfArmed = s.ovfArmed := by
  unfold State.releaseIfDriven
  split <;> rfl
@[simp] theorem State.releaseIfDriven_cmpArmed (s : State) : s.releaseIfDriven.cmpArmed = s.cmpArmed := by
  unfold State.releaseIfDriven
  split <;> rfl
@[simp] theorem State.releaseIfDriven_faults (s : State) : s.releaseIfDriven.faults = s.faults := by
  unfold State.releaseIfDriven
  split <;> rfl
@[simp] theorem State.releaseIfDriven_ident (s : State) : s.releaseIfDriven.ident = s.ident := by
  unfold State.releaseIfDriven
  split <;> rfl
@[simp] theorem State.releaseIfDriven_store (s : State) : s.releaseIfDriven.store = s.store := by
  unfold State.releaseIfDriven
  split <;> rfl
@[simp] theorem State.releaseIfDriven_checksumFn (s : State) : s.releaseIfDriven.checksumFn = s.checksumFn := by
  unfold State.releaseIfDriven
  split <;> rfl
@[simp] theorem State.releaseIfDriven_now (s : State) : s.releaseIfDriven.now = s.now := by
  unfold State.releaseIfDriven
  split <;> rfl
@[simp] theorem State.releaseIfDriven_tStart (s : State) : s.releaseIfDriven.tStart = s.tStart := by
  unfold State.releaseIfDriven
  split <;> rfl
@[simp] theorem State.releaseIfDriven_tmrRestart (s : State) : s.releaseIfDriven.tmrRestart = s.tmrRestart := by
  unfold State.releaseIfDriven
  split <;> rfl
@[simp] theorem State.releaseIfDriven_emitted (s : State) :
    s.releaseIfDriven.emitted = s.emitted ++ (if s.drive then [.release] else []) := by
  unfold State.releaseIfDriven
  cases h : s.drive <;> simp
@[simp] theorem State.releaseIfDriven_inputs (s : State) : s.releaseIfDriven.inputs = s.inputs := by
  unfold State.releaseIfDriven
  split <;> rfl
@[simp] theorem State.releaseIfDriven_draws (s : State) : s.releaseIfDriven.draws = s.draws := by
  unfold State.releaseIfDriven
  split <;> rfl
@[simp] theorem State.enterReset_phase (s : State) : s.enterReset.phase = .reset := rfl
@[simp] theorem State.enterReset_lastLineLevel (s : State) : s.enterReset.lastLineLevel = s.lastLineLevel :=
  s.releaseIfDriven_lastLineLevel
@[simp] theorem State.enterReset_bitIndex (s : State) : s.enterReset.bitIndex = 0 := rfl
@[simp] theorem State.enterReset_byteIndex (s : State) : s.enterReset.byteIndex = 0 := rfl
@[simp] theorem State.enterReset_accumulator (s : State) : s.enterReset.accumulator = s.accumulator :=
  s.releaseIfDriven_accumulator
@[simp] theorem State.enterReset_activeBuffer (s : State) : s.enterReset.activeBuffer = s.activeBuffer :=
  s.releaseIfDriven_activeBuffer
@[simp] theorem State.enterReset_pendingDriveLow (s : State) : s.enterReset.pendingDriveLow = false := rfl
@[simp] theorem State.enterReset_continuation (s : State) : s.enterReset.continuation = .none := rfl
@[simp] theorem State.enterReset_selected (s : State) : s.enterReset.selected = false := rfl
@[simp] theorem State.enterReset_trans (s : State) : s.enterReset.trans = s.trans :=
  s.releaseIfDriven_trans
@[simp] theorem State.enterReset_drive (s : State) : s.enterReset.drive = false :=
  s.releaseIfDriven_drive
@[simp] theorem State.enterReset_ovfArmed (s : State) : s.enterReset.ovfArmed = false := rfl
@[simp] theorem State.enterReset_cmpArmed (s : State) : s.enterReset.cmpArmed = false := rfl
@[simp] theorem State.enterReset_faults (s : State) : s.enterReset.faults = s.faults :=
  s.releaseIfDriven_faults
@[simp] theorem State.enterReset_ident (s : State) : s.enterReset.ident = s.ident :=
  s.releaseIfDriven_ident
@[simp] theorem State.enterReset_store (s : State) : s.enterReset.store = s.store :=
  s.releaseIfDriven_store
@[simp] theorem State.enterReset_checksumFn (s : State) : s.enterReset.checksumFn = s.checksumFn :=
  s.releaseIfDriven_checksumFn
@[simp] theorem State.enterReset_now (s : State) : s.enterReset.now = s.now :=
  s.releaseIfDriven_now
@[simp] theorem State.enterReset_tStart (s : State) : s.enterReset.tStart = s.tStart :=
  s.releaseIfDriven_tStart
@[simp] theorem State.enterReset_tmrRestart (s : State) : s.enterReset.tmrRestart = s.tmrRestart :=
  s.releaseIfDriven_tmrRestart
@[simp] theorem State.enterReset_emitted (s : State) :
    s.enterReset.emitted = s.emitted ++ (if s.drive then [.release] else []) :=
  s.releaseIfDriven_emitted
@[simp] theorem State.enterReset_inputs (s : State) : s.enterReset.inputs = s.inputs :=
  s.releaseIfDriven_inputs
@[simp] theorem State.enterReset_draws (s : State) : s.enterReset.draws = s.draws :=
  s.releaseIfDriven_draws

end Sys2Proof.Machine
end

