-- ==== Sys2Proof/Laws/Ops.lean ====
section
/-! SUPPORT. For each shared operation one lemma that says once everything it can do; later proofs cite
these and do not unfold the operation. -/

namespace Sys2Proof.Machine

/-! ### Bits and operands -/

/-- Writing bit `i` of a byte changes that bit alone (R112). -/
theorem setBit_getLsbD (v : Byte) (i : BitPos) (b : Bool) (k : Nat) (hk : k < 8) :
    (setBit v i b).getLsbD k = if k = i.toNat then b else v.getLsbD k := by
  have hi : i.toNat < 8 := i.isLt
  unfold setBit
  by_cases h : k = i.toNat
  · subst h
    cases b <;> simp [hk]
  · cases b <;> simp [hk, h] <;> omega

/-- A byte is its eight bits. -/
theorem byte_ext {v w : Byte} (h : ∀ k, k < 8 → v.getLsbD k = w.getLsbD k) : v = w :=
  BitVec.eq_of_getLsbD_eq h

/-- The offset is addressHigh * 256 + addressLow (R68). -/
theorem offsetOf_toNat (hi lo : Byte) : (offsetOf hi lo).toNat = hi.toNat * 256 + lo.toNat := by
  have h1 := hi.isLt
  have h2 := lo.isLt
  have : offsetOf hi lo = hi ++ lo := by
    unfold offsetOf
    apply BitVec.eq_of_getLsbD_eq
    intro k hk
    rw [BitVec.getLsbD_append]
    by_cases h : k < 8
    · simp [h, hk]
    · simp [h, hk, BitVec.getLsbD_of_ge lo k (by omega)]
  rw [this, BitVec.toNat_append, Nat.shiftLeft_eq, Nat.mul_comm hi.toNat,
    ← Nat.two_pow_add_eq_or_of_lt h2]

/-- The remaining length, by cases (R168). -/
theorem remainingFrom_toNat (o : Index) :
    (remainingFrom o).toNat = if o.toNat ≤ 128 then 128 - o.toNat else 65664 - o.toNat := by
  have := o.isLt
  unfold remainingFrom Config.storeSize
  rw [BitVec.toNat_sub]
  simp only [BitVec.toNat_ofNat]
  split <;> omega

/-! ### Reads and writes -/

/-- A draw gives the byte of the draw counter and advances it. -/
theorem drawByte_eq (s : State) :
    drawByte s = (Config.draw s.draws, { s with draws := s.draws + 1 }) := rfl

/-- A read of a byte the space holds gives it and does nothing else (R66). -/
theorem memRead_of_byteAt {s : State} {k : SourceKind} {i : Index} {v : Byte}
    (h : s.byteAt k i = some v) : memRead k i s = (v, s) := by
  cases k <;> simp only [State.byteAt] at h <;> simp only [memRead, readCell]
  · split at h <;> simp_all
  · split at h <;> simp_all
  · split at h <;> simp_all
  · simp at h

/-- A read of T, as MemRead gives it, where T lists the byte. -/
theorem memRead_transient {s : State} {i : Index} {v : Byte} (hi : i.toNat < 4)
    (h : s.trans.read i.toNat = some v) : memRead .transient i s = (v, s) :=
  memRead_of_byteAt (by simpa [State.byteAt, Config.transientSize, Config.scratchSize, hi] using h)

/-- All a read can do: nothing, or draw a byte and set one fault bit. Every other field stays. -/
theorem memRead_frame (k : SourceKind) (i : Index) (s : State) :
    ∃ f d, (memRead k i s).2 = { s with faults := f, draws := d } ∧
      (s.faults.oobRead = true → f.oobRead = true) ∧
      f.reservedEvent = s.faults.reservedEvent ∧
      (s.faults.poisonRead = true → f.poisonRead = true) ∧
      (s.faults.internal = true → f.internal = true) := by
  have hcell : ∀ (m : Memory) (n : Nat), ∃ f d, (readCell m n s).2 = { s with faults := f, draws := d } ∧
      (s.faults.oobRead = true → f.oobRead = true) ∧
      f.reservedEvent = s.faults.reservedEvent ∧
      (s.faults.poisonRead = true → f.poisonRead = true) ∧
      (s.faults.internal = true → f.internal = true) := by
    intro m n
    unfold readCell
    split
    · exact ⟨s.faults, s.draws, rfl, id, rfl, id, id⟩
    · exact ⟨s.raisePoisonRead.faults, s.draws + 1, rfl, by simp⟩
  have hint : ∃ f d, (drawByte s.raiseInternal).2 = { s with faults := f, draws := d } ∧
      (s.faults.oobRead = true → f.oobRead = true) ∧
      f.reservedEvent = s.faults.reservedEvent ∧
      (s.faults.poisonRead = true → f.poisonRead = true) ∧
      (s.faults.internal = true → f.internal = true) :=
    ⟨s.raiseInternal.faults, s.draws + 1, rfl, by simp⟩
  cases k <;> simp only [memRead]
  · split
    · exact hcell _ _
    · exact hint
  · split
    · exact hcell _ _
    · exact hint
  · split
    · exact hcell _ _
    · exact ⟨s.raiseOobRead.faults, s.draws + 1, rfl, by simp⟩
  · exact hint

/-- A store read beyond the store (R64). -/
theorem memRead_beyond_store {s : State} {i : Index} (h : 128 ≤ i.toNat) :
    memRead .persistent i s = (Config.draw s.draws,
      { s with draws := s.draws + 1, faults := { s.faults with oobRead := true } }) := by
  have : ¬ i.toNat < 128 := by omega
  simp [memRead, Config.storeSize, this, drawByte, State.raiseOobRead]

/-- A write inside T. -/
theorem memWrite_inside {s : State} {i : Index} (v : Byte) (h : i.toNat < 4) :
    memWrite i v s = { s with trans := s.trans.write i.toNat v } := by
  simp [memWrite, Config.transientSize, Config.scratchSize, h]

/-- A write outside T sets F_INTERNAL and writes nothing (R65). -/
theorem memWrite_outside {s : State} {i : Index} (v : Byte) (h : 4 ≤ i.toNat) :
    memWrite i v s = s.raiseInternal := by
  have : ¬ i.toNat < 4 := by omega
  simp [memWrite, Config.transientSize, Config.scratchSize, this]

/-- All a write can do: one byte of T, or the F_INTERNAL bit. -/
theorem memWrite_frame (i : Index) (v : Byte) (s : State) :
    ∃ m f, memWrite i v s = { s with trans := m, faults := f } ∧
      (s.faults.oobRead = true → f.oobRead = true) ∧
      f.reservedEvent = s.faults.reservedEvent ∧
      f.poisonRead = s.faults.poisonRead ∧
      (s.faults.internal = true → f.internal = true) := by
  unfold memWrite
  split
  · exact ⟨_, s.faults, rfl, id, rfl, rfl, id⟩
  · exact ⟨s.trans, s.raiseInternal.faults, rfl, by simp⟩

/-- A write keeps the canonical form of T. -/
theorem memWrite_wf {i : Index} {v : Byte} {s : State} (h : s.trans.wf Config.transientSize = true) :
    (memWrite i v s).trans.wf Config.transientSize = true := by
  unfold memWrite
  split
  · rename_i hi
    exact Memory.write_wf v h hi
  · exact h

/-- The power-on memories have the canonical form, and the two read-only ones hold every byte. -/
theorem reset_spacesWf : SpacesWf State.reset :=
  ⟨rfl, parameterCells_wf _ _, parameterCells_length _ _, parameterCells_wf _ _,
    parameterCells_length _ _⟩

@[simp] theorem readAccumulator_val {s : State} {v : Byte} (h : s.accumulator = .val v) :
    readAccumulator s = (v, s) := by
  simp [readAccumulator, h]

@[simp] theorem readBuffer_val {s : State} {b : Buffer} (h : s.activeBuffer = .val b) :
    readBuffer s = (b, s) := by
  simp [readBuffer, h]

/-- All a read of the accumulator can do: nothing, or a draw and F_POISON_READ. -/
theorem readAccumulator_frame (s : State) :
    ∃ f d, (readAccumulator s).2 = { s with faults := f, draws := d } ∧
      f.oobRead = s.faults.oobRead ∧ f.reservedEvent = s.faults.reservedEvent ∧
      (s.faults.poisonRead = true → f.poisonRead = true) ∧ f.internal = s.faults.internal := by
  unfold readAccumulator
  split
  · exact ⟨s.faults, s.draws, rfl, rfl, rfl, id, rfl⟩
  · exact ⟨s.raisePoisonRead.faults, s.draws + 1, rfl, by simp⟩

/-- All a read of the active buffer can do: nothing, or draws and F_POISON_READ. -/
theorem readBuffer_frame (s : State) :
    ∃ f d, (readBuffer s).2 = { s with faults := f, draws := d } ∧
      f.oobRead = s.faults.oobRead ∧ f.reservedEvent = s.faults.reservedEvent ∧
      (s.faults.poisonRead = true → f.poisonRead = true) ∧ f.internal = s.faults.internal := by
  unfold readBuffer
  split
  · exact ⟨s.faults, s.draws, rfl, rfl, rfl, id, rfl⟩
  · exact ⟨s.raisePoisonRead.faults, s.draws + 2, rfl, by simp⟩

/-! ### The fields a read and a write leave alone -/

@[simp] theorem memRead_phase (k : SourceKind) (i : Index) (s : State) :
    (memRead k i s).2.phase = s.phase := by
  obtain ⟨f, d, h, -⟩ := memRead_frame k i s
  rw [h]
@[simp] theorem readAccumulator_phase (s : State) : (readAccumulator s).2.phase = s.phase := by
  obtain ⟨f, d, h, -⟩ := readAccumulator_frame s
  rw [h]
@[simp] theorem readBuffer_phase (s : State) : (readBuffer s).2.phase = s.phase := by
  obtain ⟨f, d, h, -⟩ := readBuffer_frame s
  rw [h]
@[simp] theorem memWrite_phase (i : Index) (v : Byte) (s : State) :
    (memWrite i v s).phase = s.phase := by
  obtain ⟨m, f, h, -⟩ := memWrite_frame i v s
  rw [h]
@[simp] theorem memRead_lastLineLevel (k : SourceKind) (i : Index) (s : State) :
    (memRead k i s).2.lastLineLevel = s.lastLineLevel := by
  obtain ⟨f, d, h, -⟩ := memRead_frame k i s
  rw [h]
@[simp] theorem readAccumulator_lastLineLevel (s : State) : (readAccumulator s).2.lastLineLevel = s.lastLineLevel := by
  obtain ⟨f, d, h, -⟩ := readAccumulator_frame s
  rw [h]
@[simp] theorem readBuffer_lastLineLevel (s : State) : (readBuffer s).2.lastLineLevel = s.lastLineLevel := by
  obtain ⟨f, d, h, -⟩ := readBuffer_frame s
  rw [h]
@[simp] theorem memWrite_lastLineLevel (i : Index) (v : Byte) (s : State) :
    (memWrite i v s).lastLineLevel = s.lastLineLevel := by
  obtain ⟨m, f, h, -⟩ := memWrite_frame i v s
  rw [h]
@[simp] theorem memRead_bitIndex (k : SourceKind) (i : Index) (s : State) :
    (memRead k i s).2.bitIndex = s.bitIndex := by
  obtain ⟨f, d, h, -⟩ := memRead_frame k i s
  rw [h]
@[simp] theorem readAccumulator_bitIndex (s : State) : (readAccumulator s).2.bitIndex = s.bitIndex := by
  obtain ⟨f, d, h, -⟩ := readAccumulator_frame s
  rw [h]
@[simp] theorem readBuffer_bitIndex (s : State) : (readBuffer s).2.bitIndex = s.bitIndex := by
  obtain ⟨f, d, h, -⟩ := readBuffer_frame s
  rw [h]
@[simp] theorem memWrite_bitIndex (i : Index) (v : Byte) (s : State) :
    (memWrite i v s).bitIndex = s.bitIndex := by
  obtain ⟨m, f, h, -⟩ := memWrite_frame i v s
  rw [h]
@[simp] theorem memRead_byteIndex (k : SourceKind) (i : Index) (s : State) :
    (memRead k i s).2.byteIndex = s.byteIndex := by
  obtain ⟨f, d, h, -⟩ := memRead_frame k i s
  rw [h]
@[simp] theorem readAccumulator_byteIndex (s : State) : (readAccumulator s).2.byteIndex = s.byteIndex := by
  obtain ⟨f, d, h, -⟩ := readAccumulator_frame s
  rw [h]
@[simp] theorem readBuffer_byteIndex (s : State) : (readBuffer s).2.byteIndex = s.byteIndex := by
  obtain ⟨f, d, h, -⟩ := readBuffer_frame s
  rw [h]
@[simp] theorem memWrite_byteIndex (i : Index) (v : Byte) (s : State) :
    (memWrite i v s).byteIndex = s.byteIndex := by
  obtain ⟨m, f, h, -⟩ := memWrite_frame i v s
  rw [h]
@[simp] theorem memRead_accumulator (k : SourceKind) (i : Index) (s : State) :
    (memRead k i s).2.accumulator = s.accumulator := by
  obtain ⟨f, d, h, -⟩ := memRead_frame k i s
  rw [h]
@[simp] theorem readAccumulator_accumulator (s : State) : (readAccumulator s).2.accumulator = s.accumulator := by
  obtain ⟨f, d, h, -⟩ := readAccumulator_frame s
  rw [h]
@[simp] theorem readBuffer_accumulator (s : State) : (readBuffer s).2.accumulator = s.accumulator := by
  obtain ⟨f, d, h, -⟩ := readBuffer_frame s
  rw [h]
@[simp] theorem memWrite_accumulator (i : Index) (v : Byte) (s : State) :
    (memWrite i v s).accumulator = s.accumulator := by
  obtain ⟨m, f, h, -⟩ := memWrite_frame i v s
  rw [h]
@[simp] theorem memRead_activeBuffer (k : SourceKind) (i : Index) (s : State) :
    (memRead k i s).2.activeBuffer = s.activeBuffer := by
  obtain ⟨f, d, h, -⟩ := memRead_frame k i s
  rw [h]
@[simp] theorem readAccumulator_activeBuffer (s : State) : (readAccumulator s).2.activeBuffer = s.activeBuffer := by
  obtain ⟨f, d, h, -⟩ := readAccumulator_frame s
  rw [h]
@[simp] theorem readBuffer_activeBuffer (s : State) : (readBuffer s).2.activeBuffer = s.activeBuffer := by
  obtain ⟨f, d, h, -⟩ := readBuffer_frame s
  rw [h]
@[simp] theorem memWrite_activeBuffer (i : Index) (v : Byte) (s : State) :
    (memWrite i v s).activeBuffer = s.activeBuffer := by
  obtain ⟨m, f, h, -⟩ := memWrite_frame i v s
  rw [h]
@[simp] theorem memRead_pendingDriveLow (k : SourceKind) (i : Index) (s : State) :
    (memRead k i s).2.pendingDriveLow = s.pendingDriveLow := by
  obtain ⟨f, d, h, -⟩ := memRead_frame k i s
  rw [h]
@[simp] theorem readAccumulator_pendingDriveLow (s : State) : (readAccumulator s).2.pendingDriveLow = s.pendingDriveLow := by
  obtain ⟨f, d, h, -⟩ := readAccumulator_frame s
  rw [h]
@[simp] theorem readBuffer_pendingDriveLow (s : State) : (readBuffer s).2.pendingDriveLow = s.pendingDriveLow := by
  obtain ⟨f, d, h, -⟩ := readBuffer_frame s
  rw [h]
@[simp] theorem memWrite_pendingDriveLow (i : Index) (v : Byte) (s : State) :
    (memWrite i v s).pendingDriveLow = s.pendingDriveLow := by
  obtain ⟨m, f, h, -⟩ := memWrite_frame i v s
  rw [h]
@[simp] theorem memRead_continuation (k : SourceKind) (i : Index) (s : State) :
    (memRead k i s).2.continuation = s.continuation := by
  obtain ⟨f, d, h, -⟩ := memRead_frame k i s
  rw [h]
@[simp] theorem readAccumulator_continuation (s : State) : (readAccumulator s).2.continuation = s.continuation := by
  obtain ⟨f, d, h, -⟩ := readAccumulator_frame s
  rw [h]
@[simp] theorem readBuffer_continuation (s : State) : (readBuffer s).2.continuation = s.continuation := by
  obtain ⟨f, d, h, -⟩ := readBuffer_frame s
  rw [h]
@[simp] theorem memWrite_continuation (i : Index) (v : Byte) (s : State) :
    (memWrite i v s).continuation = s.continuation := by
  obtain ⟨m, f, h, -⟩ := memWrite_frame i v s
  rw [h]
@[simp] theorem memRead_selected (k : SourceKind) (i : Index) (s : State) :
    (memRead k i s).2.selected = s.selected := by
  obtain ⟨f, d, h, -⟩ := memRead_frame k i s
  rw [h]
@[simp] theorem readAccumulator_selected (s : State) : (readAccumulator s).2.selected = s.selected := by
  obtain ⟨f, d, h, -⟩ := readAccumulator_frame s
  rw [h]
@[simp] theorem readBuffer_selected (s : State) : (readBuffer s).2.selected = s.selected := by
  obtain ⟨f, d, h, -⟩ := readBuffer_frame s
  rw [h]
@[simp] theorem memWrite_selected (i : Index) (v : Byte) (s : State) :
    (memWrite i v s).selected = s.selected := by
  obtain ⟨m, f, h, -⟩ := memWrite_frame i v s
  rw [h]
@[simp] theorem memRead_trans (k : SourceKind) (i : Index) (s : State) :
    (memRead k i s).2.trans = s.trans := by
  obtain ⟨f, d, h, -⟩ := memRead_frame k i s
  rw [h]
@[simp] theorem readAccumulator_trans (s : State) : (readAccumulator s).2.trans = s.trans := by
  obtain ⟨f, d, h, -⟩ := readAccumulator_frame s
  rw [h]
@[simp] theorem readBuffer_trans (s : State) : (readBuffer s).2.trans = s.trans := by
  obtain ⟨f, d, h, -⟩ := readBuffer_frame s
  rw [h]
@[simp] theorem memRead_drive (k : SourceKind) (i : Index) (s : State) :
    (memRead k i s).2.drive = s.drive := by
  obtain ⟨f, d, h, -⟩ := memRead_frame k i s
  rw [h]
@[simp] theorem readAccumulator_drive (s : State) : (readAccumulator s).2.drive = s.drive := by
  obtain ⟨f, d, h, -⟩ := readAccumulator_frame s
  rw [h]
@[simp] theorem readBuffer_drive (s : State) : (readBuffer s).2.drive = s.drive := by
  obtain ⟨f, d, h, -⟩ := readBuffer_frame s
  rw [h]
@[simp] theorem memWrite_drive (i : Index) (v : Byte) (s : State) :
    (memWrite i v s).drive = s.drive := by
  obtain ⟨m, f, h, -⟩ := memWrite_frame i v s
  rw [h]
@[simp] theorem memRead_ovfArmed (k : SourceKind) (i : Index) (s : State) :
    (memRead k i s).2.ovfArmed = s.ovfArmed := by
  obtain ⟨f, d, h, -⟩ := memRead_frame k i s
  rw [h]
@[simp] theorem readAccumulator_ovfArmed (s : State) : (readAccumulator s).2.ovfArmed = s.ovfArmed := by
  obtain ⟨f, d, h, -⟩ := readAccumulator_frame s
  rw [h]
@[simp] theorem readBuffer_ovfArmed (s : State) : (readBuffer s).2.ovfArmed = s.ovfArmed := by
  obtain ⟨f, d, h, -⟩ := readBuffer_frame s
  rw [h]
@[simp] theorem memWrite_ovfArmed (i : Index) (v : Byte) (s : State) :
    (memWrite i v s).ovfArmed = s.ovfArmed := by
  obtain ⟨m, f, h, -⟩ := memWrite_frame i v s
  rw [h]
@[simp] theorem memRead_cmpArmed (k : SourceKind) (i : Index) (s : State) :
    (memRead k i s).2.cmpArmed = s.cmpArmed := by
  obtain ⟨f, d, h, -⟩ := memRead_frame k i s
  rw [h]
@[simp] theorem readAccumulator_cmpArmed (s : State) : (readAccumulator s).2.cmpArmed = s.cmpArmed := by
  obtain ⟨f, d, h, -⟩ := readAccumulator_frame s
  rw [h]
@[simp] theorem readBuffer_cmpArmed (s : State) : (readBuffer s).2.cmpArmed = s.cmpArmed := by
  obtain ⟨f, d, h, -⟩ := readBuffer_frame s
  rw [h]
@[simp] theorem memWrite_cmpArmed (i : Index) (v : Byte) (s : State) :
    (memWrite i v s).cmpArmed = s.cmpArmed := by
  obtain ⟨m, f, h, -⟩ := memWrite_frame i v s
  rw [h]
@[simp] theorem memRead_ident (k : SourceKind) (i : Index) (s : State) :
    (memRead k i s).2.ident = s.ident := by
  obtain ⟨f, d, h, -⟩ := memRead_frame k i s
  rw [h]
@[simp] theorem readAccumulator_ident (s : State) : (readAccumulator s).2.ident = s.ident := by
  obtain ⟨f, d, h, -⟩ := readAccumulator_frame s
  rw [h]
@[simp] theorem readBuffer_ident (s : State) : (readBuffer s).2.ident = s.ident := by
  obtain ⟨f, d, h, -⟩ := readBuffer_frame s
  rw [h]
@[simp] theorem memWrite_ident (i : Index) (v : Byte) (s : State) :
    (memWrite i v s).ident = s.ident := by
  obtain ⟨m, f, h, -⟩ := memWrite_frame i v s
  rw [h]
@[simp] theorem memRead_store (k : SourceKind) (i : Index) (s : State) :
    (memRead k i s).2.store = s.store := by
  obtain ⟨f, d, h, -⟩ := memRead_frame k i s
  rw [h]
@[simp] theorem memRead_checksumFn (k : SourceKind) (i : Index) (s : State) :
    (memRead k i s).2.checksumFn = s.checksumFn := by
  obtain ⟨f, d, h, -⟩ := memRead_frame k i s
  rw [h]
@[simp] theorem readAccumulator_store (s : State) : (readAccumulator s).2.store = s.store := by
  obtain ⟨f, d, h, -⟩ := readAccumulator_frame s
  rw [h]
@[simp] theorem readAccumulator_checksumFn (s : State) : (readAccumulator s).2.checksumFn = s.checksumFn := by
  obtain ⟨f, d, h, -⟩ := readAccumulator_frame s
  rw [h]
@[simp] theorem readBuffer_store (s : State) : (readBuffer s).2.store = s.store := by
  obtain ⟨f, d, h, -⟩ := readBuffer_frame s
  rw [h]
@[simp] theorem readBuffer_checksumFn (s : State) : (readBuffer s).2.checksumFn = s.checksumFn := by
  obtain ⟨f, d, h, -⟩ := readBuffer_frame s
  rw [h]
@[simp] theorem memWrite_store (i : Index) (v : Byte) (s : State) :
    (memWrite i v s).store = s.store := by
  obtain ⟨m, f, h, -⟩ := memWrite_frame i v s
  rw [h]
@[simp] theorem memWrite_checksumFn (i : Index) (v : Byte) (s : State) :
    (memWrite i v s).checksumFn = s.checksumFn := by
  obtain ⟨m, f, h, -⟩ := memWrite_frame i v s
  rw [h]
@[simp] theorem memRead_now (k : SourceKind) (i : Index) (s : State) :
    (memRead k i s).2.now = s.now := by
  obtain ⟨f, d, h, -⟩ := memRead_frame k i s
  rw [h]
@[simp] theorem readAccumulator_now (s : State) : (readAccumulator s).2.now = s.now := by
  obtain ⟨f, d, h, -⟩ := readAccumulator_frame s
  rw [h]
@[simp] theorem readBuffer_now (s : State) : (readBuffer s).2.now = s.now := by
  obtain ⟨f, d, h, -⟩ := readBuffer_frame s
  rw [h]
@[simp] theorem memWrite_now (i : Index) (v : Byte) (s : State) :
    (memWrite i v s).now = s.now := by
  obtain ⟨m, f, h, -⟩ := memWrite_frame i v s
  rw [h]
@[simp] theorem memRead_tStart (k : SourceKind) (i : Index) (s : State) :
    (memRead k i s).2.tStart = s.tStart := by
  obtain ⟨f, d, h, -⟩ := memRead_frame k i s
  rw [h]
@[simp] theorem readAccumulator_tStart (s : State) : (readAccumulator s).2.tStart = s.tStart := by
  obtain ⟨f, d, h, -⟩ := readAccumulator_frame s
  rw [h]
@[simp] theorem readBuffer_tStart (s : State) : (readBuffer s).2.tStart = s.tStart := by
  obtain ⟨f, d, h, -⟩ := readBuffer_frame s
  rw [h]
@[simp] theorem memWrite_tStart (i : Index) (v : Byte) (s : State) :
    (memWrite i v s).tStart = s.tStart := by
  obtain ⟨m, f, h, -⟩ := memWrite_frame i v s
  rw [h]
@[simp] theorem memRead_tmrRestart (k : SourceKind) (i : Index) (s : State) :
    (memRead k i s).2.tmrRestart = s.tmrRestart := by
  obtain ⟨f, d, h, -⟩ := memRead_frame k i s
  rw [h]
@[simp] theorem readAccumulator_tmrRestart (s : State) : (readAccumulator s).2.tmrRestart = s.tmrRestart := by
  obtain ⟨f, d, h, -⟩ := readAccumulator_frame s
  rw [h]
@[simp] theorem readBuffer_tmrRestart (s : State) : (readBuffer s).2.tmrRestart = s.tmrRestart := by
  obtain ⟨f, d, h, -⟩ := readBuffer_frame s
  rw [h]
@[simp] theorem memWrite_tmrRestart (i : Index) (v : Byte) (s : State) :
    (memWrite i v s).tmrRestart = s.tmrRestart := by
  obtain ⟨m, f, h, -⟩ := memWrite_frame i v s
  rw [h]
@[simp] theorem memRead_emitted (k : SourceKind) (i : Index) (s : State) :
    (memRead k i s).2.emitted = s.emitted := by
  obtain ⟨f, d, h, -⟩ := memRead_frame k i s
  rw [h]
@[simp] theorem readAccumulator_emitted (s : State) : (readAccumulator s).2.emitted = s.emitted := by
  obtain ⟨f, d, h, -⟩ := readAccumulator_frame s
  rw [h]
@[simp] theorem readBuffer_emitted (s : State) : (readBuffer s).2.emitted = s.emitted := by
  obtain ⟨f, d, h, -⟩ := readBuffer_frame s
  rw [h]
@[simp] theorem memWrite_emitted (i : Index) (v : Byte) (s : State) :
    (memWrite i v s).emitted = s.emitted := by
  obtain ⟨m, f, h, -⟩ := memWrite_frame i v s
  rw [h]
@[simp] theorem memRead_inputs (k : SourceKind) (i : Index) (s : State) :
    (memRead k i s).2.inputs = s.inputs := by
  obtain ⟨f, d, h, -⟩ := memRead_frame k i s
  rw [h]
@[simp] theorem readAccumulator_inputs (s : State) : (readAccumulator s).2.inputs = s.inputs := by
  obtain ⟨f, d, h, -⟩ := readAccumulator_frame s
  rw [h]
@[simp] theorem readBuffer_inputs (s : State) : (readBuffer s).2.inputs = s.inputs := by
  obtain ⟨f, d, h, -⟩ := readBuffer_frame s
  rw [h]
@[simp] theorem memWrite_inputs (i : Index) (v : Byte) (s : State) :
    (memWrite i v s).inputs = s.inputs := by
  obtain ⟨m, f, h, -⟩ := memWrite_frame i v s
  rw [h]
@[simp] theorem memWrite_draws (i : Index) (v : Byte) (s : State) :
    (memWrite i v s).draws = s.draws := by
  obtain ⟨m, f, h, -⟩ := memWrite_frame i v s
  rw [h]

/-! ### Transfers and the driver -/

/-- A transmit of no byte completes at once (R115). -/
theorem startTransmit_empty (g : State → State) (k : SourceKind) (base : Index) (c : Continuation)
    (s : State) :
    s.startTransmit g k base 0 c = g { s with
      activeBuffer := .val ⟨k, base, 0⟩, bitIndex := 0, byteIndex := 0, continuation := c,
      phase := .idle, pendingDriveLow := false } := by
  simp only [State.startTransmit, if_true]
  rfl

/-- A transmit whose first byte the space holds (R115). -/
theorem startTransmit_of_byteAt (g : State → State) {k : SourceKind} {base len : Index}
    (c : Continuation) {s : State} {x : Byte} (hlen : len ≠ 0) (h : s.byteAt k base = some x) :
    s.startTransmit g k base len c = { s with
      activeBuffer := .val ⟨k, base, len⟩, bitIndex := 0, byteIndex := 0, continuation := c,
      phase := .transmitting, accumulator := .val x, pendingDriveLow := pendingFor x 0 } := by
  have h' : ((s.openBuffer k base len c).setPhase .transmitting).byteAt k base = some x := h
  simp only [State.startTransmit, hlen, if_false, memRead_of_byteAt h']
  rfl

/-- A store transmit that starts beyond the store (R115, R64). -/
theorem startTransmit_beyond_store (g : State → State) {base len : Index} (c : Continuation)
    {s : State} (hlen : len ≠ 0) (h : 128 ≤ base.toNat) :
    s.startTransmit g .persistent base len c = { s with
      activeBuffer := .val ⟨.persistent, base, len⟩, bitIndex := 0, byteIndex := 0,
      continuation := c, phase := .transmitting, accumulator := .val (Config.draw s.draws),
      pendingDriveLow := pendingFor (Config.draw s.draws) 0, draws := s.draws + 1,
      faults := { s.faults with oobRead := true } } := by
  simp only [State.startTransmit, hlen, if_false, memRead_beyond_store h]
  rfl

/-- The driver in a sent slot: it ends released, and its changes show whether the slot read 0 (R107,
R50). -/
theorem sendBit_eq (s : State) :
    s.sendBit = { s with
      drive := false
      emitted := s.emitted ++ (if s.pendingDriveLow then [.pullLow, .release]
        else if s.drive then [.release] else []) } := by
  obtain ⟨⟩ := s
  rename_i pdl _ _ _ drive _ _ _ _ _ _ _ _ _ _ _ _
  cases pdl <;> cases drive <;>
    simp [State.sendBit, State.releaseIfDriven, State.pullLow, State.release]

@[simp] theorem State.sendBit_phase (s : State) : s.sendBit.phase = s.phase := by
  rw [sendBit_eq]
@[simp] theorem State.sendBit_lastLineLevel (s : State) : s.sendBit.lastLineLevel = s.lastLineLevel := by
  rw [sendBit_eq]
@[simp] theorem State.sendBit_bitIndex (s : State) : s.sendBit.bitIndex = s.bitIndex := by
  rw [sendBit_eq]
@[simp] theorem State.sendBit_byteIndex (s : State) : s.sendBit.byteIndex = s.byteIndex := by
  rw [sendBit_eq]
@[simp] theorem State.sendBit_accumulator (s : State) : s.sendBit.accumulator = s.accumulator := by
  rw [sendBit_eq]
@[simp] theorem State.sendBit_activeBuffer (s : State) : s.sendBit.activeBuffer = s.activeBuffer := by
  rw [sendBit_eq]
@[simp] theorem State.sendBit_pendingDriveLow (s : State) : s.sendBit.pendingDriveLow = s.pendingDriveLow := by
  rw [sendBit_eq]
@[simp] theorem State.sendBit_continuation (s : State) : s.sendBit.continuation = s.continuation := by
  rw [sendBit_eq]
@[simp] theorem State.sendBit_selected (s : State) : s.sendBit.selected = s.selected := by
  rw [sendBit_eq]
@[simp] theorem State.sendBit_trans (s : State) : s.sendBit.trans = s.trans := by
  rw [sendBit_eq]
@[simp] theorem State.sendBit_drive (s : State) : s.sendBit.drive = false := by
  rw [sendBit_eq]
@[simp] theorem State.sendBit_ovfArmed (s : State) : s.sendBit.ovfArmed = s.ovfArmed := by
  rw [sendBit_eq]
@[simp] theorem State.sendBit_cmpArmed (s : State) : s.sendBit.cmpArmed = s.cmpArmed := by
  rw [sendBit_eq]
@[simp] theorem State.sendBit_faults (s : State) : s.sendBit.faults = s.faults := by
  rw [sendBit_eq]
@[simp] theorem State.sendBit_ident (s : State) : s.sendBit.ident = s.ident := by
  rw [sendBit_eq]
@[simp] theorem State.sendBit_store (s : State) : s.sendBit.store = s.store := by
  rw [sendBit_eq]
@[simp] theorem State.sendBit_checksumFn (s : State) : s.sendBit.checksumFn = s.checksumFn := by
  rw [sendBit_eq]
@[simp] theorem State.sendBit_now (s : State) : s.sendBit.now = s.now := by
  rw [sendBit_eq]
@[simp] theorem State.sendBit_tStart (s : State) : s.sendBit.tStart = s.tStart := by
  rw [sendBit_eq]
@[simp] theorem State.sendBit_tmrRestart (s : State) : s.sendBit.tmrRestart = s.tmrRestart := by
  rw [sendBit_eq]
@[simp] theorem State.sendBit_emitted (s : State) :
    s.sendBit.emitted = s.emitted ++ (if s.pendingDriveLow then [.pullLow, .release]
        else if s.drive then [.release] else []) := by
  rw [sendBit_eq]
@[simp] theorem State.sendBit_inputs (s : State) : s.sendBit.inputs = s.inputs := by
  rw [sendBit_eq]
@[simp] theorem State.sendBit_draws (s : State) : s.sendBit.draws = s.draws := by
  rw [sendBit_eq]

/-! ### Delivery -/

/-- A lone event is the one delivered. -/
@[simp] theorem nextDelivery_single (i : Input) : nextDelivery [i] = some ⟨i.dt, i.word, []⟩ := by
  simp [nextDelivery, takeLine]

/-- A step on one placed word is the meaning of that word. -/
theorem step_placeEvent (w : EventWord) (s : State) :
    step (s.placeEvent w) = exec (decodeEvent w)
      { s with tmrRestart := false, emitted := [], inputs := [] } := by
  unfold step
  rw [State.placeEvent_inputs, nextDelivery_single]
  rfl

end Sys2Proof.Machine
end

