-- ==== Sys2Proof/Laws/Transfer.lean ====
section
/-! SUPPORT. What a receive, a transmit and a continuation can do: the shell of the state they leave alone,
and one equation for each case of RxBit, TxAdvance and the continuations. -/

namespace Sys2Proof.Machine

/-- `t` differs from `s` only in fields the framer and the continuations write: outside them everything
is the same, and no fault bit is cleared. -/
structure Shell (s t : State) : Prop where
  lastLineLevel : t.lastLineLevel = s.lastLineLevel
  drive : t.drive = s.drive
  ovfArmed : t.ovfArmed = s.ovfArmed
  cmpArmed : t.cmpArmed = s.cmpArmed
  ident : t.ident = s.ident
  store : t.store = s.store
  checksumFn : t.checksumFn = s.checksumFn
  now : t.now = s.now
  tStart : t.tStart = s.tStart
  tmrRestart : t.tmrRestart = s.tmrRestart
  emitted : t.emitted = s.emitted
  inputs : t.inputs = s.inputs
  oobRead : s.faults.oobRead = true → t.faults.oobRead = true
  reservedEvent : t.faults.reservedEvent = s.faults.reservedEvent
  poisonRead : s.faults.poisonRead = true → t.faults.poisonRead = true
  internal : s.faults.internal = true → t.faults.internal = true

theorem Shell.refl (s : State) : Shell s s :=
  ⟨rfl, rfl, rfl, rfl, rfl, rfl, rfl, rfl, rfl, rfl, rfl, rfl, id, rfl, id, id⟩

theorem Shell.trans {s t u : State} (h : Shell s t) (k : Shell t u) : Shell s u :=
  ⟨k.lastLineLevel.trans h.lastLineLevel, k.drive.trans h.drive, k.ovfArmed.trans h.ovfArmed,
    k.cmpArmed.trans h.cmpArmed, k.ident.trans h.ident, k.store.trans h.store,
    k.checksumFn.trans h.checksumFn, k.now.trans h.now,
    k.tStart.trans h.tStart, k.tmrRestart.trans h.tmrRestart, k.emitted.trans h.emitted,
    k.inputs.trans h.inputs, fun e => k.oobRead (h.oobRead e),
    k.reservedEvent.trans h.reservedEvent, fun e => k.poisonRead (h.poisonRead e),
    fun e => k.internal (h.internal e)⟩

theorem memRead_shell (k : SourceKind) (i : Index) (s : State) : Shell s (memRead k i s).2 := by
  obtain ⟨f, d, h, h1, h2, h3, h4⟩ := memRead_frame k i s
  rw [h]
  exact ⟨rfl, rfl, rfl, rfl, rfl, rfl, rfl, rfl, rfl, rfl, rfl, rfl, h1, h2, h3, h4⟩

theorem memWrite_shell (i : Index) (v : Byte) (s : State) : Shell s (memWrite i v s) := by
  obtain ⟨m, f, h, h1, h2, h3, h4⟩ := memWrite_frame i v s
  rw [h]
  exact ⟨rfl, rfl, rfl, rfl, rfl, rfl, rfl, rfl, rfl, rfl, rfl, rfl, h1, h2, fun e => h3.trans e, h4⟩

theorem readAccumulator_shell (s : State) : Shell s (readAccumulator s).2 := by
  obtain ⟨f, d, h, h1, h2, h3, h4⟩ := readAccumulator_frame s
  rw [h]
  exact ⟨rfl, rfl, rfl, rfl, rfl, rfl, rfl, rfl, rfl, rfl, rfl, rfl, fun e => h1.trans e, h2, h3,
    fun e => h4.trans e⟩

theorem readBuffer_shell (s : State) : Shell s (readBuffer s).2 := by
  obtain ⟨f, d, h, h1, h2, h3, h4⟩ := readBuffer_frame s
  rw [h]
  exact ⟨rfl, rfl, rfl, rfl, rfl, rfl, rfl, rfl, rfl, rfl, rfl, rfl, fun e => h1.trans e, h2, h3,
    fun e => h4.trans e⟩

theorem startReceive_shell (base len : Index) (c : Continuation) (s : State) :
    Shell s (s.startReceive base len c) :=
  ⟨rfl, rfl, rfl, rfl, rfl, rfl, rfl, rfl, rfl, rfl, rfl, rfl, id, rfl, id, id⟩

/-- An update of the framer's own fields keeps the shell: it is one of the named setters. -/
theorem setPhase_shell (p : Phase) (s : State) : Shell s (s.setPhase p) :=
  ⟨rfl, rfl, rfl, rfl, rfl, rfl, rfl, rfl, rfl, rfl, rfl, rfl, id, rfl, id, id⟩

theorem setAccumulator_shell (v : Byte) (s : State) : Shell s (s.setAccumulator v) :=
  ⟨rfl, rfl, rfl, rfl, rfl, rfl, rfl, rfl, rfl, rfl, rfl, rfl, id, rfl, id, id⟩

theorem setPending_shell (p : Bool) (s : State) : Shell s (s.setPending p) :=
  ⟨rfl, rfl, rfl, rfl, rfl, rfl, rfl, rfl, rfl, rfl, rfl, rfl, id, rfl, id, id⟩

theorem nextBit_shell (s : State) : Shell s s.nextBit :=
  ⟨rfl, rfl, rfl, rfl, rfl, rfl, rfl, rfl, rfl, rfl, rfl, rfl, id, rfl, id, id⟩

theorem nextByte_shell (s : State) : Shell s s.nextByte :=
  ⟨rfl, rfl, rfl, rfl, rfl, rfl, rfl, rfl, rfl, rfl, rfl, rfl, id, rfl, id, id⟩

theorem openBuffer_shell (k : SourceKind) (base len : Index) (c : Continuation) (s : State) :
    Shell s (s.openBuffer k base len c) :=
  ⟨rfl, rfl, rfl, rfl, rfl, rfl, rfl, rfl, rfl, rfl, rfl, rfl, id, rfl, id, id⟩

theorem startTransmit_shell {g : State → State} (hg : ∀ s, Shell s (g s)) (k : SourceKind)
    (base len : Index) (c : Continuation) (s : State) : Shell s (s.startTransmit g k base len c) := by
  have h0 := openBuffer_shell k base len c s
  unfold State.startTransmit
  split
  · exact ((h0.trans (setPhase_shell _ _)).trans (setPending_shell _ _)).trans (hg _)
  · exact (((h0.trans (setPhase_shell _ _)).trans (memRead_shell _ _ _)).trans
      (setAccumulator_shell _ _)).trans (setPending_shell _ _)

theorem runNone_shell (s : State) : Shell s s.runNone :=
  ⟨rfl, rfl, rfl, rfl, rfl, rfl, rfl, rfl, rfl, rfl, rfl, rfl, id, rfl, id, id⟩

theorem readMemoryStep_shell (s : State) : Shell s s.readMemoryStep :=
  ((memRead_shell _ _ _).trans (memRead_shell _ _ _)).trans (startTransmit_shell runNone_shell _ _ _ _ _)

theorem runReadMemory_shell (s : State) : Shell s s.runReadMemory :=
  (runNone_shell s).trans (readMemoryStep_shell _)

theorem computeChecksumAndRead_shell (s : State) : Shell s s.computeChecksumAndRead := by
  unfold State.computeChecksumAndRead
  exact ((((memRead_shell _ _ _).trans (memRead_shell _ _ _)).trans (memRead_shell _ _ _)).trans
    (memWrite_shell _ _ _)).trans (startTransmit_shell runReadMemory_shell _ _ _ _ _)

theorem readIdentifier_shell (s : State) : Shell s s.readIdentifier :=
  startTransmit_shell runNone_shell _ _ _ _ _

theorem selectAll_shell (s : State) : Shell s s.selectAll :=
  ⟨rfl, rfl, rfl, rfl, rfl, rfl, rfl, rfl, rfl, rfl, rfl, rfl, id, rfl, id, id⟩

theorem readMemoryCommand_shell (s : State) : Shell s s.readMemoryCommand := by
  unfold State.readMemoryCommand
  split
  · exact startReceive_shell _ _ _ _
  · exact Shell.refl s

theorem dispatch_shell (s : State) : Shell s s.dispatch := by
  unfold State.dispatch
  refine (memRead_shell .transient 0 s).trans ?_
  simp only []
  split
  · exact readIdentifier_shell _
  · exact selectAll_shell _
  · exact readMemoryCommand_shell _
  · exact Shell.refl _

theorem runContinuation_shell (s : State) : Shell s s.runContinuation := by
  unfold State.runContinuation
  split
  · exact runNone_shell s
  · exact (runNone_shell s).trans (dispatch_shell _)
  · exact (runNone_shell s).trans (computeChecksumAndRead_shell _)
  · exact runReadMemory_shell s

theorem rxBit_shell (b : Bool) (s : State) : Shell s (s.rxBit b) := by
  have h0 := (readAccumulator_shell s).trans (setAccumulator_shell (setBit (readAccumulator s).1 s.bitIndex b) _)
  unfold State.rxBit
  split
  · have h1 := ((((h0.trans (readBuffer_shell _)).trans (memWrite_shell
      ((readBuffer ((readAccumulator s).2.setAccumulator
        (setBit (readAccumulator s).1 s.bitIndex b))).1.base + s.byteIndex)
      (setBit (readAccumulator s).1 s.bitIndex b) _)).trans
      (setAccumulator_shell 0 _)).trans (nextByte_shell _))
    simp only []
    split
    · exact (h1.trans (setPhase_shell _ _)).trans (runContinuation_shell _)
    · exact h1
  · exact h0.trans (nextBit_shell _)

theorem txAdvance_shell (s : State) : Shell s s.txAdvance := by
  unfold State.txAdvance
  split
  · have h1 := (nextByte_shell s).trans (readBuffer_shell _)
    simp only []
    split
    · exact ((h1.trans (setPhase_shell _ _)).trans (setPending_shell _ _)).trans
        (runContinuation_shell _)
    · exact ((h1.trans (memRead_shell _ _ _)).trans (setAccumulator_shell _ _)).trans
        (setPending_shell _ _)
  · exact ((nextBit_shell s).trans (readAccumulator_shell _)).trans (setPending_shell _ _)

/-! ### RxBit, case by case (R112) -/

/-- A bit that does not end its byte. -/
theorem rxBit_inside_byte {s : State} {v : Byte} (b : Bool) (hv : s.accumulator = .val v)
    (h7 : s.bitIndex ≠ 7) :
    s.rxBit b = (s.setAccumulator (setBit v s.bitIndex b)).nextBit := by
  simp only [State.rxBit, readAccumulator_val hv, h7, if_false]

/-- The eighth bit: the byte goes to base + byteIndex, and the buffer may be complete. -/
theorem rxBit_ends_byte {s : State} {v : Byte} {buf : Buffer} (b : Bool)
    (hv : s.accumulator = .val v) (hb : s.activeBuffer = .val buf) (h7 : s.bitIndex = 7) :
    s.rxBit b =
      if s.byteIndex + 1 = buf.len then
        ((((memWrite (buf.base + s.byteIndex) (setBit v 7 b)
            (s.setAccumulator (setBit v 7 b))).setAccumulator 0).nextByte).setPhase .idle).runContinuation
      else
        ((memWrite (buf.base + s.byteIndex) (setBit v 7 b)
            (s.setAccumulator (setBit v 7 b))).setAccumulator 0).nextByte := by
  have hb' : (s.setAccumulator (setBit v 7 b)).activeBuffer = .val buf := hb
  have hbyte : (memWrite (buf.base + s.byteIndex) (setBit v 7 b)
      (s.setAccumulator (setBit v 7 b))).byteIndex = s.byteIndex := by
    unfold memWrite
    split <;> rfl
  simp only [State.rxBit, readAccumulator_val hv, h7, if_true, readBuffer_val hb',
    State.nextByte_byteIndex, State.setAccumulator_byteIndex, hbyte]

/-- The eighth bit of a byte that goes into T. -/
theorem rxBit_ends_byte_inside {s : State} {v : Byte} {buf : Buffer} (b : Bool)
    (hv : s.accumulator = .val v) (hb : s.activeBuffer = .val buf) (h7 : s.bitIndex = 7)
    (hi : (buf.base + s.byteIndex).toNat < 4) :
    s.rxBit b =
      if s.byteIndex + 1 = buf.len then
        State.runContinuation { s with
          trans := s.trans.write (buf.base + s.byteIndex).toNat (setBit v 7 b),
          accumulator := .val 0, bitIndex := 0, byteIndex := s.byteIndex + 1, phase := .idle }
      else
        { s with
          trans := s.trans.write (buf.base + s.byteIndex).toNat (setBit v 7 b),
          accumulator := .val 0, bitIndex := 0, byteIndex := s.byteIndex + 1 } := by
  rw [rxBit_ends_byte b hv hb h7, memWrite_inside _ hi]
  rfl

/-! ### TxAdvance, case by case (R113) -/

/-- A sent bit that does not end its byte. -/
theorem txAdvance_inside_byte {s : State} {v : Byte} (hv : s.accumulator = .val v)
    (h7 : s.bitIndex ≠ 7) :
    s.txAdvance = s.nextBit.setPending (pendingFor v (s.bitIndex + 1)) := by
  have hv' : s.nextBit.accumulator = .val v := hv
  simp only [State.txAdvance, h7, if_false, readAccumulator_val hv', State.nextBit_bitIndex]

/-- The last bit of the buffer: Idle, and the continuation runs. -/
theorem txAdvance_ends_buffer {s : State} {buf : Buffer} (hb : s.activeBuffer = .val buf)
    (h7 : s.bitIndex = 7) (hl : s.byteIndex + 1 = buf.len) :
    s.txAdvance = ((s.nextByte.setPhase .idle).setPending false).runContinuation := by
  have hb' : s.nextByte.activeBuffer = .val buf := hb
  simp only [State.txAdvance, h7, if_true, readBuffer_val hb', State.nextByte_byteIndex, hl]

/-- The eighth bit of a byte that is not the last: the next byte is read. -/
theorem txAdvance_next_byte {s : State} {buf : Buffer} (hb : s.activeBuffer = .val buf)
    (h7 : s.bitIndex = 7) (hl : s.byteIndex + 1 ≠ buf.len) :
    s.txAdvance =
      ((memRead buf.kind (buf.base + (s.byteIndex + 1)) s.nextByte).2.setAccumulator
        (memRead buf.kind (buf.base + (s.byteIndex + 1)) s.nextByte).1).setPending
          (pendingFor (memRead buf.kind (buf.base + (s.byteIndex + 1)) s.nextByte).1 0) := by
  have hb' : s.nextByte.activeBuffer = .val buf := hb
  simp only [State.txAdvance, h7, if_true, readBuffer_val hb', State.nextByte_byteIndex, hl, if_false]

/-- The same, where the space holds the next byte. -/
theorem txAdvance_next_byte_of_byteAt {s : State} {buf : Buffer} {x : Byte}
    (hb : s.activeBuffer = .val buf) (h7 : s.bitIndex = 7) (hl : s.byteIndex + 1 ≠ buf.len)
    (hx : s.byteAt buf.kind (buf.base + (s.byteIndex + 1)) = some x) :
    s.txAdvance = (s.nextByte.setAccumulator x).setPending (pendingFor x 0) := by
  have hx' : s.nextByte.byteAt buf.kind (buf.base + (s.byteIndex + 1)) = some x := hx
  rw [txAdvance_next_byte hb h7 hl, memRead_of_byteAt hx']

/-! ### The continuations (R116, R160, R166, R167) -/

theorem runContinuation_none {s : State} (h : s.continuation = .none) :
    s.runContinuation = s.runNone := by
  simp only [State.runContinuation, h]

theorem runContinuation_dispatch {s : State} (h : s.continuation = .dispatchCommand) :
    s.runContinuation = s.runNone.dispatch := by
  simp only [State.runContinuation, h]

theorem runContinuation_checksum {s : State} (h : s.continuation = .computeChecksumAndRead) :
    s.runContinuation = s.runNone.computeChecksumAndRead := by
  simp only [State.runContinuation, h]

theorem runContinuation_readMemory {s : State} (h : s.continuation = .readMemory) :
    s.runContinuation = s.runNone.readMemoryStep := by
  simp only [State.runContinuation, h, State.runReadMemory]

/-- Dispatch on a command byte that T[0] holds. -/
theorem dispatch_of_command {s : State} {c : Byte} (h : s.trans.read 0 = some c) :
    s.dispatch = match commandCode c with
      | .readIdentifier => s.readIdentifier
      | .selectAll => s.selectAll
      | .readMemory => s.readMemoryCommand
      | .unrecognized => s.unrecognized := by
  have hc := memRead_transient (i := 0) (by decide) h
  cases e : commandCode c <;> simp only [State.dispatch, hc, e]

/-- ReadMemoryStep on two address bytes that T holds. -/
theorem readMemoryStep_of_address {s : State} {lo hi : Byte} (h1 : s.trans.read 1 = some lo)
    (h2 : s.trans.read 2 = some hi) :
    s.readMemoryStep =
      s.startTransmit State.runNone .persistent (offsetOf hi lo) (remainingFrom (offsetOf hi lo)) .none := by
  simp only [State.readMemoryStep, memRead_transient (i := 2) (by decide) h2,
    memRead_transient (i := 1) (by decide) h1]

/-- ComputeChecksumAndRead on the three bytes that T holds. -/
theorem computeChecksumAndRead_of_bytes {s : State} {c lo hi : Byte} (h0 : s.trans.read 0 = some c)
    (h1 : s.trans.read 1 = some lo) (h2 : s.trans.read 2 = some hi) :
    s.computeChecksumAndRead = { s with
      trans := s.trans.write 3 (checksum s.checksumFn [c, lo, hi]), phase := .transmitting,
      activeBuffer := .val ⟨.transient, 3, 1⟩, bitIndex := 0, byteIndex := 0,
      accumulator := .val (checksum s.checksumFn [c, lo, hi]),
      pendingDriveLow := pendingFor (checksum s.checksumFn [c, lo, hi]) 0, continuation := .readMemory } := by
  simp only [State.computeChecksumAndRead, memRead_transient (i := 0) (by decide) h0,
    memRead_transient (i := 1) (by decide) h1, memRead_transient (i := 2) (by decide) h2]
  rw [memWrite_inside _ (by decide)]
  rw [startTransmit_of_byteAt (x := checksum s.checksumFn [c, lo, hi]) _ _ (by decide)]
  · rfl
  · simp [State.byteAt, Config.transientSize, Config.scratchSize]

end Sys2Proof.Machine
end

