-- ==== Sys2Proof/Laws/Events.lean ====
section
/-! SUPPORT. Which rule an event takes in which state (30_encoding.md R88): exec of a line event as the
rule of its edge and state. -/

namespace Sys2Proof.Machine

/-- A falling edge runs the falling-edge rule of the state. -/
theorem exec_falling {s : State} (b : Bool) (hl : s.lastLineLevel = true) :
    exec (.evLine false b) s = .next (s.fallingEdge b) := by
  simp [exec, execEvLine, hl]

/-- A rising edge runs the rising-edge rule of the state. -/
theorem exec_rising {s : State} (b : Bool) (hl : s.lastLineLevel = false) :
    exec (.evLine true b) s = .next s.risingEdge := by
  simp [exec, execEvLine, hl]

theorem fallingEdge_idle {s : State} (b : Bool) (h : s.phase = .idle) :
    s.fallingEdge b = s.fallIdle := by
  simp only [State.fallingEdge, h]

theorem fallingEdge_reset {s : State} (b : Bool) (h : s.phase = .reset) :
    s.fallingEdge b = s.fallReset := by
  simp only [State.fallingEdge, h]

theorem fallingEdge_presence {s : State} (b : Bool) (h : s.phase = .presence) :
    s.fallingEdge b = s.fallPresence := by
  simp only [State.fallingEdge, h]

theorem fallingEdge_receiving {s : State} (b : Bool) (h : s.phase = .receiving) :
    s.fallingEdge b = (s.fallPrologue.rxBit b).reconcile b := by
  simp only [State.fallingEdge, h, State.fallReceiving]

theorem fallingEdge_transmitting {s : State} (b : Bool) (h : s.phase = .transmitting) :
    s.fallingEdge b = s.fallPrologue.sendBit.txAdvance.reconcile b := by
  simp only [State.fallingEdge, h, State.fallTransmitting]

theorem risingEdge_reset {s : State} (h : s.phase = .reset) : s.risingEdge = s.riseReset := by
  simp only [State.risingEdge, h]

theorem risingEdge_presence {s : State} (h : s.phase = .presence) :
    s.risingEdge = s.risePresence := by
  simp only [State.risingEdge, h]

theorem risingEdge_other {s : State} (hr : s.phase ≠ .reset) (hp : s.phase ≠ .presence) :
    s.risingEdge = s.risePrologue := by
  unfold State.risingEdge
  split <;> simp_all

/-- All a line event can be: no transition, a rising edge, or a falling edge. -/
theorem exec_evLine_cases {p b : Bool} {s t : State} (h : exec (.evLine p b) s = .next t) :
    (p = s.lastLineLevel ∧ t = s) ∨
    (p = true ∧ s.lastLineLevel = false ∧ t = s.risingEdge) ∨
    (p = false ∧ s.lastLineLevel = true ∧ t = s.fallingEdge b) := by
  unfold exec execEvLine at h
  simp only [] at h
  cases p <;> cases hl : s.lastLineLevel <;> simp_all

/-- All an overflow can be: not accepted, disarmed with the line high, or a bus reset. -/
theorem exec_evOverflow_cases {s t : State} (h : exec .evOverflow s = .next t) :
    (s.ovfArmed = false ∧ t = s) ∨
    (s.ovfArmed = true ∧ s.lastLineLevel = true ∧ t = { s with ovfArmed := false }) ∨
    (s.ovfArmed = true ∧ s.lastLineLevel = false ∧ t = State.enterReset { s with ovfArmed := false }) := by
  unfold exec execEvOverflow at h
  simp only [] at h
  cases ho : s.ovfArmed <;> cases hl : s.lastLineLevel <;> simp_all

/-- All a compare can be: not accepted, disarmed outside Presence, or the end of the pulse. -/
theorem exec_evCompare_cases {s t : State} (h : exec .evCompare s = .next t) :
    (s.cmpArmed = false ∧ t = s) ∨
    (s.cmpArmed = true ∧ s.phase ≠ .presence ∧ t = { s with cmpArmed := false }) ∨
    (s.cmpArmed = true ∧ s.phase = .presence ∧
      t = State.startReceive 0 1 .dispatchCommand
        (State.setPhase .idle (State.release { s with cmpArmed := false }))) := by
  unfold exec execEvCompare at h
  simp only [] at h
  cases hc : s.cmpArmed
  · simp_all
  · simp only [hc, if_true] at h
    cases hp : s.phase <;> simp only [hp] at h <;> cases h <;> simp_all
    rfl

end Sys2Proof.Machine
end

