-- ==== Sys2Proof/Laws/Invariant.lean ====
section
/-! SUPPORT. The invariant from its parts, one lemma for each kind of state (quiet, receiving, transmitting),
and what a step can be. -/

namespace Sys2Proof.Machine

/-- A step waits, or it runs the event delivered. -/
theorem step_cases {s t : State} (h : step s = .next t) :
    (nextDelivery s.inputs = none ∧ t = s) ∨
    ∃ d, nextDelivery s.inputs = some d ∧ exec (decodeEvent d.word) (s.beginStep d) = .next t := by
  unfold step at h
  split at h
  · cases h
    exact .inl ⟨‹_›, rfl⟩
  · exact .inr ⟨_, ‹_›, h⟩

/-- An event word decodes to an event row, never to a command row. -/
theorem decodeEvent_cases (w : EventWord) :
    (∃ p b, decodeEvent w = .evLine p b) ∨ decodeEvent w = .evOverflow ∨
    decodeEvent w = .evCompare ∨ decodeEvent w = .evReserved := by
  unfold decodeEvent
  split <;> simp

/-- The invariant says nothing of the clock, the outputs or the pending events. -/
theorem Inv.beginStep {s : State} (d : Delivery) (h : Inv s) : Inv (s.beginStep d) := by
  obtain ⟨⟨a, b, c, e, f, g, i⟩, j, k, l, m, n, o, p, q⟩ := h
  exact ⟨⟨a, b, c, e, f, g, i⟩, j, k, l, m, n, o, p, q⟩

theorem Inv.placeEvent {s : State} (w : EventWord) (h : Inv s) : Inv (s.placeEvent w) := by
  obtain ⟨⟨a, b, c, e, f, g, i⟩, j, k, l, m, n, o, p, q⟩ := h
  exact ⟨⟨a, b, c, e, f, g, i⟩, j, k, l, m, n, o, p, q⟩

/-- The invariant of a state that is neither receiving nor transmitting. -/
theorem Inv.of_quiet {t : State} (hr : t.phase ≠ .receiving) (ht : t.phase ≠ .transmitting)
    (hc : t.continuation = .none) (hp : t.pendingDriveLow = false)
    (hd : t.drive = true ↔ t.phase = .presence) (hm : t.cmpArmed = true ↔ t.phase = .presence)
    (ho : t.phase = .presence → t.ovfArmed = false) (hh : t.lastLineLevel = true → t.ovfArmed = false)
    (hres : t.phase = .reset → t.lastLineLevel = false) (hs : SpacesWf t) : Inv t where
  rules :=
    { bitRange := by have := t.bitIndex.isLt; omega
      byteInBuffer := fun h => absurd h (by simp [hr, ht])
      receiveBuffer := fun h => absurd h hr
      transmitBit := fun h => absurd h ht
      driveIffPresence := hd
      timerArming := ⟨hm.1, ho⟩
      idleNoContinuation := fun _ => hc }
  spaces := hs
  highDisarmed := hh
  resetLow := hres
  presenceArmed := hm.2
  pendingOnlySending := fun _ => hp
  continuationOnlyBusy := fun _ _ => hc
  receive := fun h => absurd h hr
  transmit := fun h => absurd h ht

/-- The invariant of a receiving state. -/
theorem Inv.of_receiving {t : State} (hr : t.phase = .receiving) (hp : t.pendingDriveLow = false)
    (hd : t.drive = false) (hm : t.cmpArmed = false)
    (hh : t.lastLineLevel = true → t.ovfArmed = false) (hs : SpacesWf t)
    (ha : ∃ v, t.accumulator = .val v) (hshape : ReceiveShape t) : Inv t where
  rules :=
    { bitRange := by have := t.bitIndex.isLt; omega
      byteInBuffer := fun _ => by
        rcases hshape with ⟨h1, -, h2⟩ | ⟨h1, -, -, -, h2⟩
        · exact ⟨_, h1, by rw [h2]; decide⟩
        · refine ⟨_, h1, ?_⟩
          rcases h2 with h2 | ⟨h2, -⟩ <;> rw [h2] <;> decide
      receiveBuffer := fun _ => hshape.imp (fun h => h.1) (fun h => h.1)
      transmitBit := fun h => by simp [hr] at h
      driveIffPresence := by simp [hd, hr]
      timerArming := by simp [hm, hr]
      idleNoContinuation := fun h => by simp [hr] at h }
  spaces := hs
  highDisarmed := hh
  resetLow := fun h => by simp [hr] at h
  presenceArmed := fun h => by simp [hr] at h
  pendingOnlySending := fun _ => hp
  continuationOnlyBusy := fun h => absurd hr h
  receive := fun _ => ⟨ha, hshape⟩
  transmit := fun h => by simp [hr] at h

/-- The invariant of a transmitting state. -/
theorem Inv.of_transmitting {t : State} (hr : t.phase = .transmitting) (hd : t.drive = false)
    (hm : t.cmpArmed = false) (hh : t.lastLineLevel = true → t.ovfArmed = false) (hs : SpacesWf t)
    (buf : Buffer) (v : Byte) (hb : t.activeBuffer = .val buf)
    (hlen : t.byteIndex.toNat < buf.len.toNat) (hv : t.accumulator = .val v)
    (hp : t.pendingDriveLow = !v.getLsbD t.bitIndex.toNat)
    (hx : ∀ x, t.byteAt buf.kind (buf.base + t.byteIndex) = some x → v = x)
    (hshape : TransmitShape t) : Inv t where
  rules :=
    { bitRange := by have := t.bitIndex.isLt; omega
      byteInBuffer := fun _ => ⟨_, hb, hlen⟩
      receiveBuffer := fun h => by simp [hr] at h
      transmitBit := fun _ => ⟨_, _, hb, hv, hp, hx⟩
      driveIffPresence := by simp [hd, hr]
      timerArming := by simp [hm, hr]
      idleNoContinuation := fun h => by simp [hr] at h }
  spaces := hs
  highDisarmed := hh
  resetLow := fun h => by simp [hr] at h
  presenceArmed := fun h => by simp [hr] at h
  pendingOnlySending := fun h => absurd hr h
  continuationOnlyBusy := fun _ h => absurd hr h
  receive := fun h => by simp [hr] at h
  transmit := fun _ => hshape

end Sys2Proof.Machine
end

