-- ==== Sys2Proof/Laws/PerInstr.lean ====
section
/-! SUPPORT. One law per row of the opcode table: the encoder's word carries the row's pattern under the
row's mask, on the row's channel. The table's rows are the spec's (30_encoding.md R84 to R87), so an
encoding that drops or misplaces a fixed bit fails here. -/

namespace Sys2Proof.Laws.TableRow

/-- A well-formed instruction is encoded as one byte, on the channel of its row, and that byte matches
the row's pattern under the row's mask. -/
def Statement (i : Instr) : Prop :=
  i.wf = true →
    ∃ w : Byte, encode i = ⟨(tableRow i).channel, [w]⟩ ∧ w &&& (tableRow i).mask = (tableRow i).pattern

theorem cmdReadIdentifier : Statement .cmdReadIdentifier := fun _ => ⟨_, rfl, by decide⟩

theorem cmdSelectAll : Statement .cmdSelectAll := fun _ => ⟨_, rfl, by decide⟩

theorem cmdReadMemory : Statement .cmdReadMemory := fun _ => ⟨_, rfl, by decide⟩

theorem cmdReadMemoryUnselected : Statement .cmdReadMemoryUnselected := fun _ => ⟨_, rfl, by decide⟩

theorem cmdUnrecognized (c : Byte) : Statement (.cmdUnrecognized c) := fun _ => ⟨c, rfl, by simp [tableRow]⟩

theorem evLine (p s : Bool) : Statement (.evLine p s) := by
  intro _
  exact ⟨_, rfl, by cases p <;> cases s <;> decide⟩

theorem evOverflow : Statement .evOverflow := fun _ => ⟨_, rfl, by decide⟩

theorem evCompare : Statement .evCompare := fun _ => ⟨_, rfl, by decide⟩

theorem evReserved : Statement .evReserved := fun _ => ⟨_, rfl, by decide⟩

end Sys2Proof.Laws.TableRow
end

