-- ==== Sys2Proof/Laws/Script.lean ====
section
/-! SUPPORT. Running event words one after another, and a master's reading of slots as bytes. -/

namespace Sys2Proof.Machine

/-- One event word runs the instruction it decodes to, with the outputs of the last step gone. -/
theorem stepWord_of_exec {w : EventWord} {i : Instr} {s t : State} (hd : decodeEvent w = i)
    (h : exec i { s with tmrRestart := false, emitted := [], inputs := [] } = .next t) :
    stepWord w s = some t := by
  unfold stepWord
  rw [step_placeEvent, hd, h]

theorem stepWords_append (a b : List EventWord) (s : State) :
    stepWords (a ++ b) s = (stepWords a s).bind (stepWords b) := by
  induction a generalizing s with
  | nil => rfl
  | cons w ws ih =>
    simp only [List.cons_append, stepWords]
    cases stepWord w s <;> simp [ih]

/-- The two words a write or read slot of bit `b` starts with. -/
theorem decodeEvent_slot (b : Bool) : decodeEvent (if b then 0x1 else 0x0) = .evLine false b := by
  cases b <;> decide

/-- One more read slot at the end. -/
theorem readSlots_snoc {n : Nat} {s t u : State} {l : List Bool} {b : Bool}
    (h : readSlots n s = some (l, t)) (h2 : readSlot t = some (b, u)) :
    readSlots (n + 1) s = some (l ++ [b], u) := by
  induction n generalizing s l with
  | zero =>
    simp only [readSlots, Option.some.injEq, Prod.mk.injEq] at h
    obtain ⟨rfl, rfl⟩ := h
    simp [readSlots, h2]
  | succ n ih =>
    rw [readSlots] at h
    cases hr : readSlot s with
    | none => simp [hr] at h
    | some a =>
      simp only [hr, Option.bind_some] at h
      cases hr2 : readSlots n a.2 with
      | none => simp [hr2] at h
      | some c =>
        simp only [hr2, Option.map_some, Option.some.injEq, Prod.mk.injEq] at h
        have := ih (s := a.2) (l := c.1) (by rw [hr2, ← h.2])
        rw [readSlots, hr, Option.bind_some, this, ← h.1]
        rfl

/-- The bits of a byte, least significant first, are that byte. -/
theorem byteOfBits_getLsbD (x : Byte) :
    byteOfBits [x.getLsbD 0, x.getLsbD 1, x.getLsbD 2, x.getLsbD 3, x.getLsbD 4, x.getLsbD 5,
      x.getLsbD 6, x.getLsbD 7] = x := by
  apply BitVec.eq_of_getLsbD_eq
  intro k hk
  simp only [byteOfBits, List.zipIdx, List.foldl, setBit_getLsbD _ _ _ _ hk]
  have : k = 0 ∨ k = 1 ∨ k = 2 ∨ k = 3 ∨ k = 4 ∨ k = 5 ∨ k = 6 ∨ k = 7 := by omega
  rcases this with rfl | rfl | rfl | rfl | rfl | rfl | rfl | rfl <;> simp

end Sys2Proof.Machine
end

