-- ==== Sys2Proof/Tests/Slice0.lean ====
section
/-! SUPPORT. Tests: the WellFormed smoke, words written out from 30_encoding.md, one-step vectors of
95_test_vectors.md (their numbers are in the names), and for each statement with hypotheses a witness
that meets them. The sample parameters are those of 95_test_vectors.md. -/

namespace Sys2Proof.Tests

open Sys2Proof.Machine

/-! ### States (the helpers) -/

/-- The sample identifier, 09 01 02 03 04 05 06 4C. -/
def sampleId (i : Nat) : Byte :=
  if i = 0 then 0x09 else if i = 7 then 0x4C else BitVec.ofNat 8 i

/-- Power-on with the sample parameters: STORE[i] = i. -/
def base : State :=
  { State.reset with
    ident := parameterCells 8 sampleId
    store := parameterCells 128 (BitVec.ofNat 8) }

/-- Receiving a command byte, at a bit of it, with the line high. -/
def receiving (bit : BitPos) (acc : Byte) : State :=
  { base.startReceive 0 1 .dispatchCommand with bitIndex := bit, accumulator := .val acc }

/-- Receiving READ MEMORY's address bytes, at the last bit of one of them. -/
def addressing (byte : Index) (acc : Byte) : State :=
  { base.startReceive 1 2 .computeChecksumAndRead with
    selected := true, trans := [(0, 0xF0), (1, 0x00)], byteIndex := byte, bitIndex := 7
    accumulator := .val acc }

/-- Sending the identifier, at a bit of one of its bytes. -/
def sendingId (byte : Index) (bit : BitPos) : State :=
  let acc := sampleId byte.toNat
  { base with
    phase := .transmitting, activeBuffer := .val ⟨.identifier, 0, 8⟩, byteIndex := byte
    bitIndex := bit, accumulator := .val acc, pendingDriveLow := !acc.getLsbD bit.toNat }

/-- Sending the checksum byte of an address, at a bit of it. -/
def sendingCrc (lo hi : Byte) (bit : BitPos) : State :=
  let acc := checksum .crc8 [0xF0, lo, hi]
  { base with
    phase := .transmitting, activeBuffer := .val ⟨.transient, 3, 1⟩, continuation := .readMemory
    selected := true, trans := [(0, 0xF0), (1, lo), (2, hi), (3, acc)]
    bitIndex := bit, accumulator := .val acc, pendingDriveLow := !acc.getLsbD bit.toNat }

/-- The presence pulse. -/
def presence : State :=
  { base with phase := .presence, drive := true, cmpArmed := true, lastLineLevel := false }

/-- Reset, the line low. -/
def inReset : State := { base with phase := .reset, lastLineLevel := false }

/-- Idle, selected, the line low since a falling edge. -/
def lowIdle : State := { base with lastLineLevel := false, ovfArmed := true, selected := true }

theorem base_spacesWf (s : State) (ht : s.trans.wf Config.transientSize = true)
    (hi : s.ident = base.ident) (hs : s.store = base.store) : SpacesWf s := by
  refine ⟨ht, ?_, ?_, ?_, ?_⟩ <;> simp only [hi, hs]
  · exact parameterCells_wf _ _
  · exact parameterCells_length _ _
  · exact parameterCells_wf _ _
  · exact parameterCells_length _ _

theorem presence_inv : Inv presence :=
  .of_quiet (by decide) (by decide) rfl rfl (by decide) (by decide) (by decide) (by decide)
    (by decide) (base_spacesWf _ (by decide) rfl rfl)

theorem inReset_inv : Inv inReset :=
  .of_quiet (by decide) (by decide) rfl rfl (by decide) (by decide) (by decide) (by decide)
    (by decide) (base_spacesWf _ (by decide) rfl rfl)

theorem lowIdle_inv : Inv lowIdle :=
  .of_quiet (by decide) (by decide) rfl rfl (by decide) (by decide) (by decide) (by decide)
    (by decide) (base_spacesWf _ (by decide) rfl rfl)

theorem receiving_inv (bit : BitPos) (acc : Byte) : Inv (receiving bit acc) :=
  .of_receiving rfl rfl rfl rfl (fun _ => rfl) (base_spacesWf _ rfl rfl rfl) ⟨acc, rfl⟩
    (.inl ⟨rfl, rfl, rfl⟩)

theorem sendingCrc_inv (lo hi : Byte) (bit : BitPos) : Inv (sendingCrc lo hi bit) :=
  .of_transmitting rfl rfl rfl (fun _ => rfl)
    (base_spacesWf _ (by simp [sendingCrc, Memory.wf, Config.transientSize, Config.scratchSize]) rfl rfl)
    ⟨.transient, 3, 1⟩ (checksum .crc8 [0xF0, lo, hi]) rfl
    (show (0 : Index).toNat < (1 : Index).toNat by decide) rfl rfl
    (fun _ h => Option.some.inj h)
    (.inr (.inl ⟨rfl, rfl, rfl, by simp [sendingCrc, Memory.read],
      by simp [sendingCrc, Memory.read], by simp [sendingCrc, Memory.read]⟩))

/-! ### WellFormed smoke (R85): the three codes the engine knows are not unrecognized ones -/

theorem test_wf_refuses_read_identifier_code : (Instr.cmdUnrecognized 0x33).wf = false := by decide
theorem test_wf_refuses_select_all_code : (Instr.cmdUnrecognized 0xCC).wf = false := by decide
theorem test_wf_refuses_read_memory_code : (Instr.cmdUnrecognized 0xF0).wf = false := by decide
theorem test_wf_accepts_other_code : (Instr.cmdUnrecognized 0xF1).wf = true := by decide

/-! ### Decoding of words written out from R84 to R87 -/

theorem test_decode_read_identifier :
    decode .command false [0b00110011] = .ok .cmdReadIdentifier := rfl
theorem test_decode_select_all : decode .command true [0b11001100] = .ok .cmdSelectAll := rfl
theorem test_decode_read_memory_frame :
    decode .command true [0b11110000, 0x7E, 0x00] = .ok .cmdReadMemory := rfl
theorem test_decode_read_memory_unselected :
    decode .command false [0b11110000] = .ok .cmdReadMemoryUnselected := rfl
theorem test_decode_unrecognized :
    decode .command false [0b11001111] = .ok (.cmdUnrecognized 0xCF) := rfl
theorem test_decode_line_0_1 : decode .event false [0b0001] = .ok (.evLine false true) := rfl
theorem test_decode_line_1_0 : decode .event false [0b0010] = .ok (.evLine true false) := rfl
theorem test_decode_overflow_low_bits : decode .event false [0b0110] = .ok .evOverflow := rfl
theorem test_decode_compare_low_bits : decode .event false [0b1001] = .ok .evCompare := rfl
theorem test_decode_reserved : decode .event true [0b1101] = .ok .evReserved := rfl
theorem test_decode_refuses_nothing : decode .event true [] = .error .noBytes := rfl
theorem test_decode_refuses_wide_event :
    decode .event true [0x14] = .error (.eventWordTooWide 0x14) := rfl
theorem test_decode_refuses_trailing :
    decode .command true [0x33, 0x00, 0x00] = .error .trailingBytes := rfl

/-- Every row's word, as the table numbers its bits. -/
theorem test_decodeTableWord :
    decodeTableWord 8 0x33 = some .cmdReadIdentifier ∧ decodeTableWord 8 0xCC = some .cmdSelectAll ∧
    decodeTableWord 8 0xF0 = some .cmdReadMemory ∧ decodeTableWord 24 0xF0 = some .cmdReadMemory ∧
    decodeTableWord 8 0x55 = some (.cmdUnrecognized 0x55) ∧
    decodeTableWord 8 0x2 = some (.evLine true false) ∧ decodeTableWord 8 0x4 = some .evOverflow ∧
    decodeTableWord 8 0x8 = some .evCompare ∧ decodeTableWord 8 0xC = some .evReserved := by decide

/-! ### One-step vectors of 95_test_vectors.md -/

/-- T15 and X1: the last bit of 0x33 starts the identifier. -/
theorem test_T15_read_identifier :
    (stepWord 0x0 (receiving 7 0x33)).map (fun t =>
      (t.phase, t.activeBuffer, t.accumulator, t.pendingDriveLow, t.lastLineLevel, t.ovfArmed)) =
    some (.transmitting, .val ⟨.identifier, 0, 8⟩, .val 0x09, false, false, true) := by decide

/-- X3: SELECT ALL. -/
theorem test_X3_select_all :
    (stepWord 0x1 (receiving 7 0x4C)).map (fun t =>
      (t.selected, t.phase, t.continuation, t.command)) =
    some (true, .receiving, .dispatchCommand, .val 0xCC) := by decide

/-- X5: READ MEMORY, selected. -/
theorem test_X5_read_memory :
    (stepWord 0x1 { receiving 7 0x70 with selected := true }).map (fun t =>
      (t.phase, t.activeBuffer, t.continuation)) =
    some (.receiving, .val ⟨.transient, 1, 2⟩, .computeChecksumAndRead) := by decide

/-- X6: READ MEMORY, not selected. -/
theorem test_X6_read_memory_unselected :
    (stepWord 0x1 (receiving 7 0x70)).map (fun t => (t.phase, t.continuation, t.faults.word)) =
    some (.idle, .none, 0) := by decide

/-- X7: an unrecognized code. -/
theorem test_X7_unrecognized :
    (stepWord 0x0 (receiving 7 0x55)).map (fun t => (t.phase, t.continuation, t.command)) =
    some (.idle, .none, .val 0x55) := by decide

/-- T16: the checksum of {F0, 00, 00} is 8D, and goes out from T[3]. -/
theorem test_T16_line_checksum :
    (stepWord 0x0 (addressing 1 0x00)).map (fun t =>
      (t.trans.read 2, t.trans.read 3, t.phase, t.accumulator, t.pendingDriveLow)) =
    some (some 0x00, some 0x8D, .transmitting, .val 0x8D, false) := by decide +kernel

/-- T20b: at offset 128 nothing is sent, and the device is Idle in the same step. -/
theorem test_T20b_line_zero_length :
    (stepWord 0x1 (sendingCrc 0x80 0x00 7)).map (fun t =>
      (t.phase, t.activeBuffer, t.pendingDriveLow, t.continuation)) =
    some (.idle, .val ⟨.persistent, 128, 0⟩, false, .none) := by decide +kernel

/-- T21: a bus reset clears `selected` and both arming bits. -/
theorem test_T21_overflow :
    (stepWord 0x4 lowIdle).map (fun t => (t.phase, t.selected, t.ovfArmed, t.cmpArmed)) =
    some (.reset, false, false, false) := by decide

/-- T25: with the line high the overflow only disarms. -/
theorem test_T25_overflow_high :
    (stepWord 0x4 { base with ovfArmed := true }).map (fun t => (t.phase, t.ovfArmed)) =
    some (.idle, false) := by decide

/-- T23: the compare releases the line and starts the command receive. -/
theorem test_T23_compare :
    (stepWord 0x8 presence).map (fun t => (t.emitted, t.phase, t.activeBuffer, t.lastLineLevel)) =
    some ([.release], .receiving, .val ⟨.transient, 0, 1⟩, false) := by decide

/-- T27: a reserved word. -/
theorem test_T27_reserved :
    (stepWord 0xC base).map (fun t => (t.faults.word, t.phase)) = some (2, .idle) := by decide

/-- The check values of R170's table: 01, and ASCII "123456789". -/
theorem test_crc8_check_values :
    crc8 [0x01] = 0x5E ∧ crc8 [0x31, 0x32, 0x33, 0x34, 0x35, 0x36, 0x37, 0x38, 0x39] = 0xA1 := by
  decide +kernel

/-- Table L: the lengths from 0x0000, 0x0080, 0x0081 and 0xFFFF. -/
theorem test_remaining_lengths :
    remainingFrom 0x0000 = 128 ∧ remainingFrom 0x0080 = 0 ∧ remainingFrom 0x0081 = 65535 ∧
    remainingFrom 0xFFFF = 129 := by decide

/-- withFetchWord: the first step after reset runs the placed row. SELECT ALL shows it. -/
theorem test_fetch_select_all :
    (match step (State.reset.withFetchWord 8 0xCC) with
      | .next t => some (t.selected, t.command)
      | .fault _ => none
      | .refused _ => none) = some (true, .val 0xCC) := by decide

/-! ### Witnesses: states and operands that meet the hypotheses of each statement -/

theorem witness_PowerOnHoldsParameters :
    (7 : Index).toNat < 8 ∧ 8 ≤ (8 : Index).toNat ∧ (127 : Index).toNat < 128 ∧
      128 ≤ (128 : Index).toNat := by decide

theorem witness_StepRunsDecodedEvent :
    nextDelivery (base.placeEvent 0x0).inputs = some ⟨0, 0x0, []⟩ := by decide

theorem witness_StepWaitsWithoutEvent : base.inputs = [] := rfl

theorem witness_LevelChange_line_behind_overflow :
    ([⟨0, 0x4⟩, ⟨0, 0x3⟩] : List Input).find? (fun k => decide (k.word.toNat < 4)) = some ⟨0, 0x3⟩ ∧
      ([⟨0, 0x3⟩, ⟨5, 0x0⟩] : List Input).takeWhile (fun k => k.dt == 0) = [⟨0, 0x3⟩] := by decide

theorem witness_LevelChange_no_line :
    ∀ j ∈ ([⟨0, 0x4⟩, ⟨0, 0x8⟩] : List Input), 4 ≤ j.word.toNat := by decide

theorem witness_FallingEdgeInIdleOrReset :
    (base.phase = .idle ∧ base.lastLineLevel = true) ∧
    { inReset with lastLineLevel := true }.phase = .reset ∧
    { inReset with lastLineLevel := true }.lastLineLevel = true := by decide

theorem witness_EdgesInPresence :
    (presence.phase = .presence ∧ presence.lastLineLevel = false) ∧
    { presence with lastLineLevel := true }.phase = .presence ∧
    { presence with lastLineLevel := true }.lastLineLevel = true := by decide

theorem witness_RisingEdgeInReset : inReset.phase = .reset ∧ inReset.lastLineLevel = false := by decide

theorem witness_RisingEdgeTakesNoBit :
    (lowIdle.phase = .idle ∧ lowIdle.lastLineLevel = false) ∧
    ({ receiving 3 0 with lastLineLevel := false }.phase = .receiving ∧
      { receiving 3 0 with lastLineLevel := false }.lastLineLevel = false) ∧
    ({ sendingId 0 0 with lastLineLevel := false }.phase = .transmitting ∧
      { sendingId 0 0 with lastLineLevel := false }.lastLineLevel = false) := by decide

theorem witness_ReceivedBitInsideByte :
    (receiving 6 0x05).phase = .receiving ∧ (receiving 6 0x05).lastLineLevel = true ∧
    (receiving 6 0x05).accumulator = .val 0x05 ∧ (receiving 6 0x05).bitIndex ≠ 7 := by decide

/-- The first address byte goes to T[1]. -/
theorem witness_ReceivedByteInsideBuffer :
    let s := addressing 0 0x7E
    s.phase = .receiving ∧ s.lastLineLevel = true ∧ s.accumulator = .val 0x7E ∧
      s.activeBuffer = .val ⟨.transient, 1, 2⟩ ∧ s.bitIndex = 7 ∧ s.byteIndex + 1 ≠ 2 ∧
      (1 + s.byteIndex).toNat < 4 := by decide

/-- The last index of T, 3, in a buffer that goes on beyond it. No reachable state has it. -/
theorem witness_ReceivedByteInsideBuffer_last :
    let s : State := { addressing 0 0x7E with activeBuffer := .val ⟨.transient, 3, 2⟩ }
    s.phase = .receiving ∧ s.lastLineLevel = true ∧ s.accumulator = .val 0x7E ∧
      s.activeBuffer = .val ⟨.transient, 3, 2⟩ ∧ s.bitIndex = 7 ∧ s.byteIndex + 1 ≠ 2 ∧
      (3 + s.byteIndex).toNat < 4 := by decide

/-- The first index outside T, 4. No reachable state has it. -/
theorem witness_ReceivedByteOutsideTransient :
    let s : State := { addressing 0 0x7E with activeBuffer := .val ⟨.transient, 4, 2⟩ }
    s.phase = .receiving ∧ s.lastLineLevel = true ∧ s.accumulator = .val 0x7E ∧
      s.activeBuffer = .val ⟨.transient, 4, 2⟩ ∧ s.bitIndex = 7 ∧ s.byteIndex + 1 ≠ 2 ∧
      4 ≤ (4 + s.byteIndex).toNat := by decide

theorem witness_CommandByteRunsDecodedCommand :
    let s := receiving 7 0x33
    s.phase = .receiving ∧ s.lastLineLevel = true ∧ s.accumulator = .val 0x33 ∧
      s.activeBuffer = .val ⟨.transient, 0, 1⟩ ∧ s.bitIndex = 7 ∧ s.byteIndex = 0 ∧
      s.continuation = .dispatchCommand := by decide

theorem witness_AddressBytesStartChecksum :
    let s := addressing 1 0x00
    s.phase = .receiving ∧ s.lastLineLevel = true ∧ s.accumulator = .val 0x00 ∧
      s.activeBuffer = .val ⟨.transient, 1, 2⟩ ∧ s.bitIndex = 7 ∧ s.byteIndex = 1 ∧
      s.continuation = .computeChecksumAndRead ∧ s.trans.read 0 = some 0xF0 ∧
      s.trans.read 1 = some 0x00 := by decide

/-- The same with CHECKSUM left uninterpreted (R11): the step goes on, with that function's byte. -/
theorem test_R11_uninterpreted_checksum :
    (stepWord 0x0 { addressing 1 0x00 with checksumFn := .uninterpreted }).map (fun t =>
      (t.phase, t.accumulator)) =
    some (.transmitting, .val (Config.checksum [0xF0, 0x00, 0x00])) := rfl

theorem witness_SentBitInsideByte :
    (sendingId 0 6).phase = .transmitting ∧ (sendingId 0 6).lastLineLevel = true ∧
    (sendingId 0 6).accumulator = .val 0x09 ∧ (sendingId 0 6).bitIndex ≠ 7 := by decide

theorem witness_SentByteFetchesNext :
    let s := sendingId 6 7
    s.phase = .transmitting ∧ s.lastLineLevel = true ∧ s.activeBuffer = .val ⟨.identifier, 0, 8⟩ ∧
      s.bitIndex = 7 ∧ s.byteIndex + 1 ≠ 8 ∧
      s.byteAt .identifier (0 + (s.byteIndex + 1)) = some 0x4C := by decide

/-- The first index beyond the store, 128. -/
theorem witness_SentByteBeyondStore :
    let s : State := { sendingId 0 7 with activeBuffer := .val ⟨.persistent, 127, 2⟩ }
    s.phase = .transmitting ∧ s.lastLineLevel = true ∧ s.activeBuffer = .val ⟨.persistent, 127, 2⟩ ∧
      s.bitIndex = 7 ∧ s.byteIndex + 1 ≠ 2 ∧ 128 ≤ ((127 : Index) + (s.byteIndex + 1)).toNat := by
  decide

theorem witness_LastSentBitEndsTransmit :
    let s := sendingId 7 7
    s.phase = .transmitting ∧ s.lastLineLevel = true ∧ s.activeBuffer = .val ⟨.identifier, 0, 8⟩ ∧
      s.bitIndex = 7 ∧ s.byteIndex + 1 = 8 ∧ s.continuation = .none := by decide

/-- The hypotheses at every address, and the offsets 127, 128 and 129, one for each clause. -/
theorem witness_ChecksumSentStartsStore :
    (∀ lo hi : Byte, (sendingCrc lo hi 7).phase = .transmitting ∧
      (sendingCrc lo hi 7).lastLineLevel = true ∧
      (sendingCrc lo hi 7).activeBuffer = .val ⟨.transient, 3, 1⟩ ∧ (sendingCrc lo hi 7).bitIndex = 7 ∧
      (sendingCrc lo hi 7).byteIndex + 1 = 1 ∧ (sendingCrc lo hi 7).continuation = .readMemory ∧
      (sendingCrc lo hi 7).trans.read 1 = some lo ∧ (sendingCrc lo hi 7).trans.read 2 = some hi) ∧
    (sendingCrc 0x7F 0x00 7).byteAt .persistent 127 = some 127 ∧
    offsetOf 0x00 0x7F = 127 ∧ offsetOf 0x00 0x80 = 128 ∧ offsetOf 0x00 0x81 = 129 := by
  refine ⟨fun lo hi => ⟨rfl, rfl, rfl, rfl, rfl, rfl, rfl, rfl⟩, ?_⟩
  decide

theorem witness_OverflowEntersReset : lowIdle.ovfArmed = true ∧ lowIdle.lastLineLevel = false := by
  decide

theorem witness_OverflowWithoutReset :
    ({ base with ovfArmed := true }.ovfArmed = true ∧
      { base with ovfArmed := true }.lastLineLevel = true) ∧ base.ovfArmed = false := by decide

theorem witness_CompareEndsPresence : presence.cmpArmed = true ∧ presence.phase = .presence := by decide

theorem witness_CompareOutsidePresence :
    ({ base with cmpArmed := true }.cmpArmed = true ∧
      { base with cmpArmed := true }.phase ≠ .presence) ∧ base.cmpArmed = false := by decide

theorem witness_ReadIdentifierStartsTransmit : base.byteAt .identifier 0 = some 0x09 := by decide

theorem witness_ReadMemoryReceivesAddress : lowIdle.selected = true := rfl

theorem witness_ReadMemoryUnselectedIgnored : base.selected = false := rfl

theorem witness_ReadMemoryRowsAgree : base.selected = false := rfl

theorem witness_CommandBytesDecode : (0x34 : Byte) ≠ 0x33 ∧ (0x34 : Byte) ≠ 0xCC ∧ (0x34 : Byte) ≠ 0xF0 := by
  decide

theorem witness_DecodeOfEncode :
    Instr.wf .cmdReadMemory = true ∧ Instr.guardMet true .cmdReadMemory = true ∧
    Instr.guardMet false .cmdReadMemoryUnselected = true ∧ (Instr.cmdUnrecognized 0xFF).wf = true := by
  decide

theorem witness_DecodeGivesTheTablesRow :
    decode .command true [0xF0, 0x00, 0x00] = .ok .cmdReadMemory ∧
    decode .event false [0x0F] = .ok .evReserved := ⟨rfl, rfl⟩

/-- Each clause at the ends of its range. -/
theorem witness_MemReadOutcomes :
    base.byteAt .identifier 7 = some 0x4C ∧ base.byteAt .persistent 127 = some 127 ∧
    128 ≤ (128 : Index).toNat ∧ 128 ≤ (0xFFFF : Index).toNat ∧ 4 ≤ (4 : Index).toNat ∧
    8 ≤ (8 : Index).toNat ∧ base.byteAt .transient 3 = none ∧ (3 : Index).toNat < 4 ∧
    { base with ident := [] }.byteAt .identifier 7 = none ∧ (7 : Index).toNat < 8 ∧
    { base with store := [] }.byteAt .persistent 127 = none ∧ (127 : Index).toNat < 128 := by
  decide

theorem witness_ReadOnlySpacesUnwritten :
    exec .evReserved base = .next base.raiseReservedEvent := rfl

theorem witness_FaultBitsSticky :
    exec .evReserved { base with faults := ⟨true, true, true, true⟩ } =
      .next { base with faults := ⟨true, true, true, true⟩ } := rfl

/-- Both ways: the last bit of a command byte, and the compare that ends a presence pulse. -/
theorem witness_BufferFixedMidExchange :
    (∃ t, nextDelivery ((receiving 7 0x33).placeEvent 0x0).inputs = some ⟨0, 0x0, []⟩ ∧
      step ((receiving 7 0x33).placeEvent 0x0) = .next t ∧
      t.activeBuffer ≠ (receiving 7 0x33).activeBuffer) ∧
    (∃ t, nextDelivery (presence.placeEvent 0x8).inputs = some ⟨0, 0x8, []⟩ ∧
      step (presence.placeEvent 0x8) = .next t ∧ t.activeBuffer ≠ presence.activeBuffer) :=
  ⟨⟨_, by decide, rfl, by decide⟩, ⟨_, by decide, rfl, by decide⟩⟩

/-- A step from a state with the invariant: the statements that assume one. -/
theorem witness_StepKeepsInv :
    Inv ((receiving 7 0x33).placeEvent 0x0) ∧ ∃ t, step ((receiving 7 0x33).placeEvent 0x0) = .next t :=
  ⟨(receiving_inv 7 0x33).placeEvent 0x0, _, rfl⟩

theorem witness_NoPoisonReadNoInternalFault :
    Inv (inReset.placeEvent 0x3) ∧ ∃ t, step (inReset.placeEvent 0x3) = .next t :=
  ⟨inReset_inv.placeEvent 0x3, _, rfl⟩

/-- READ MEMORY at 129: the step of the checksum's last bit draws. -/
theorem witness_OobReadOnlyAboveStore :
    ∃ t, Inv ((sendingCrc 0x81 0x00 7).placeEvent 0x1) ∧
      step ((sendingCrc 0x81 0x00 7).placeEvent 0x1) = .next t ∧
      (sendingCrc 0x81 0x00 7).faults.oobRead = false ∧ t.faults.oobRead = true :=
  ⟨_, (sendingCrc_inv _ _ _).placeEvent 0x1, rfl, by decide, by decide +kernel⟩

/-- Both directions: SELECT ALL's last bit, and a bus reset of a selected device. -/
theorem witness_SelectedChanges :
    (∃ t, Inv ((receiving 7 0x4C).placeEvent 0x1) ∧ step ((receiving 7 0x4C).placeEvent 0x1) = .next t ∧
      (receiving 7 0x4C).selected = false ∧ t.selected = true) ∧
    (∃ t, Inv (lowIdle.placeEvent 0x4) ∧ step (lowIdle.placeEvent 0x4) = .next t ∧
      lowIdle.selected = true ∧ t.selected = false) :=
  ⟨⟨_, (receiving_inv _ _).placeEvent 0x1, rfl, by decide, by decide⟩,
    ⟨_, lowIdle_inv.placeEvent 0x4, rfl, by decide, by decide⟩⟩

theorem witness_PhaseTransitions :
    ∃ t, Inv (presence.placeEvent 0x8) ∧ nextDelivery (presence.placeEvent 0x8).inputs = some ⟨0, 0x8, []⟩ ∧
      step (presence.placeEvent 0x8) = .next t ∧ presence.phase ≠ t.phase :=
  ⟨_, presence_inv.placeEvent 0x8, by decide, rfl, by decide⟩

theorem witness_UnselectedStepIgnoresStore :
    ∃ t, Inv ((receiving 7 0x70).placeEvent 0x1) ∧ (receiving 7 0x70).selected = false ∧
      step ((receiving 7 0x70).placeEvent 0x1) = .next t :=
  ⟨_, (receiving_inv _ _).placeEvent 0x1, by decide, rfl⟩

/-- The pulse ends at the first time the timing allows, and an edge before that leaves it on. -/
theorem witness_PresencePulseWidth :
    let τ : Config.Timing := ⟨60, 6, 18, 100, 400, 3⟩
    let early : State := presence.beginStep ⟨99, 0x3, [⟨0, 0x3⟩]⟩
    let due : State := presence.beginStep ⟨100, 0x8, [⟨0, 0x8⟩]⟩
    (Inv early ∧ ∃ t, timedStep τ early t ∧ t.phase = .presence) ∧
    (Inv due ∧ ∃ t, timedStep τ due t ∧ t.phase = .receiving) :=
  ⟨⟨presence_inv.beginStep _, _, ⟨_, rfl, by decide, by decide, rfl⟩, rfl⟩,
    ⟨presence_inv.beginStep _, _, ⟨_, rfl, by decide, by decide, rfl⟩, rfl⟩⟩

/-- The overflow with the line low since time 0, at both ends of its window, 400 and 403, and one with the
line high at 400. -/
theorem witness_TimedOverflowWindow :
    let τ : Config.Timing := ⟨60, 6, 18, 100, 400, 3⟩
    let first : State := { lowIdle with inputs := [⟨400, 0x4⟩] }
    let last : State := { lowIdle with inputs := [⟨403, 0x4⟩] }
    let high : State := { base with ovfArmed := true, inputs := [⟨400, 0x4⟩] }
    (∃ t, timedStep τ first t ∧ t.now = 400 ∧ t.phase = .reset ∧ first.phase ≠ .reset) ∧
    (∃ t, timedStep τ last t ∧ t.now = 403 ∧ t.phase = .reset ∧ last.phase ≠ .reset) ∧
    (∃ t, timedStep τ high t ∧ high.lastLineLevel = true ∧ t.phase = .idle) ∧
    nextDelivery first.inputs = some ⟨400, 0x4, []⟩ ∧ decodeEvent 0x4 = .evOverflow :=
  ⟨⟨_, ⟨_, rfl, by decide, by decide, rfl⟩, rfl, rfl, by decide⟩,
    ⟨_, ⟨_, rfl, by decide, by decide, rfl⟩, rfl, rfl, by decide⟩,
    ⟨_, ⟨_, rfl, by decide, by decide, rfl⟩, rfl, rfl⟩, rfl, rfl⟩

theorem witness_ShortPulseIsNoReset : base.phase = .idle ∧ base.lastLineLevel = true := by decide

theorem witness_ResetPulseLeadsToPresence :
    (receiving 3 0x01).lastLineLevel = true ∧ (receiving 3 0x01).phase ≠ .presence := by decide

theorem witness_ResetForgetsExchange :
    (sendingId 3 0).lastLineLevel = true ∧ (sendingId 3 0).phase ≠ .presence := by decide

theorem witness_CommandOverTheBusRunsDecoded :
    (receiving 0 0).phase = .receiving ∧ (receiving 0 0).lastLineLevel = true ∧
    (receiving 0 0).accumulator = .val 0 ∧ (receiving 0 0).activeBuffer = .val ⟨.transient, 0, 1⟩ ∧
    (receiving 0 0).bitIndex = 0 ∧ (receiving 0 0).byteIndex = 0 ∧
    (receiving 0 0).continuation = .dispatchCommand := by decide

theorem witness_ReadIdentifierReturnsIdentifier :
    base.lastLineLevel = true ∧ base.drive = false ∧
    (∀ i : Index, i.toNat < 8 → base.byteAt .identifier i = some (sampleId i.toNat)) ∧
    ∃ t, exec .cmdReadIdentifier base = .next t := by
  refine ⟨rfl, rfl, fun i hi => ?_, _, rfl⟩
  show (if i.toNat < 8 then (parameterCells 8 sampleId).read i.toNat else none) = _
  rw [if_pos hi, read_parameterCells, if_pos hi]

/-- The hypotheses at every address, and the offsets 0 and 128, the ends of the range. -/
theorem witness_ReadMemoryReturnsStoreTail :
    (∀ hi lo : Byte, (sendingCrc lo hi 0).phase = .transmitting ∧
      (sendingCrc lo hi 0).lastLineLevel = true ∧ (sendingCrc lo hi 0).drive = false ∧
      (sendingCrc lo hi 0).activeBuffer = .val ⟨.transient, 3, 1⟩ ∧ (sendingCrc lo hi 0).bitIndex = 0 ∧
      (sendingCrc lo hi 0).byteIndex = 0 ∧
      (sendingCrc lo hi 0).accumulator = .val (checksum .crc8 [0xF0, lo, hi]) ∧
      (sendingCrc lo hi 0).pendingDriveLow = !(checksum .crc8 [0xF0, lo, hi]).getLsbD 0 ∧
      (sendingCrc lo hi 0).continuation = .readMemory ∧
      (sendingCrc lo hi 0).trans.read 1 = some lo ∧ (sendingCrc lo hi 0).trans.read 2 = some hi ∧
      ∀ i : Index, i.toNat < 128 →
        (sendingCrc lo hi 0).byteAt .persistent i = some (BitVec.ofNat 8 i.toNat)) ∧
    (0x00 : Byte).toNat * 256 + (0x00 : Byte).toNat ≤ 128 ∧
    (0x00 : Byte).toNat * 256 + (0x80 : Byte).toNat ≤ 128 := by
  refine ⟨fun hi lo => ⟨rfl, rfl, rfl, rfl, rfl, rfl, rfl, rfl, rfl, rfl, rfl, fun i h => ?_⟩,
    by decide, by decide⟩
  show (if i.toNat < 128 then (parameterCells 128 (BitVec.ofNat 8)).read i.toNat else none) = _
  rw [if_pos h, read_parameterCells, if_pos h]

theorem witness_SilentUntilFirstReset :
    base.phase = .idle ∧ base.drive = false ∧ base.emitted = [] ∧
    ∀ w ∈ ([0x0, 0x3, 0x1, 0x8, 0xC] : List EventWord), decodeEvent w ≠ .evOverflow := by decide

theorem witness_QuiescentTakesOnlyAFallingEdge :
    ∃ t, quiescent (base.placeEvent 0x0) ∧
      nextDelivery (base.placeEvent 0x0).inputs = some ⟨0, 0x0, []⟩ ∧
      step (base.placeEvent 0x0) = .next t :=
  ⟨_, ⟨rfl, rfl, rfl, rfl, rfl, rfl⟩, rfl, rfl⟩

theorem witness_ReservedWordSetsItsBit :
    (0xD : EventWord).getLsbD 3 = true ∧ (0xD : EventWord).getLsbD 2 = true := by decide

theorem witness_IdleDeviceReadsOnes : base.phase = .idle ∧ base.lastLineLevel = true := by decide

end Sys2Proof.Tests
end

/-! The reserved event word (30_encoding.md R87): the row that kind 11 decodes to, and that row's meaning. -/

namespace Sys2Proof.Machine

/-- The kind of an event word is its bits 3..2 alone: the low two bits play no part in the reserved row. -/
theorem decodeEvent_of_reservedKind {w : EventWord} (h3 : w.getLsbD 3 = true) (h2 : w.getLsbD 2 = true) :
    decodeEvent w = .evReserved := by
  simp only [decodeEvent, h3, h2]

/-- The reserved row does nothing but raise its fault; `State.raiseReservedEvent` has the frame. -/
theorem exec_evReserved (s : State) : exec .evReserved s = .next s.raiseReservedEvent := rfl

/-- Settles O26: the decoder's branch for kind 11, then the reserved row's meaning, where raising the fault
is by definition the update of its one bit. -/
theorem reservedWordSetsItsBit : Obligations.ReservedWordSetsItsBit :=
  ⟨fun _ h3 h2 => decodeEvent_of_reservedKind h3 h2, fun s => exec_evReserved s⟩

end Sys2Proof.Machine

/-! Line edges in Presence and the rising edge out of Reset (40_line_events.md R105, R109, R110): which
handler the edge reaches, and the handler's update written out over the state before. -/

namespace Sys2Proof.Machine

/-- R105: the falling edge in Presence neither restarts the timer nor takes a bit. -/
theorem State.fallPresence_eq (s : State) : s.fallPresence = { s with lastLineLevel := false } := rfl

/-- R110: the pulse outlasts the rising edge; the overflow is not disarmed, for this handler runs no
RisePrologue(). -/
theorem State.risePresence_eq (s : State) : s.risePresence = { s with lastLineLevel := true } := rfl

/-- R109: RisePrologue(), the driver and the timer restart taken together. The handler's last assignment
overwrites the level 1 of RisePrologue(), since the device itself now holds the line low. -/
theorem State.riseReset_eq (s : State) : s.riseReset = { s with
    lastLineLevel := false, ovfArmed := false, drive := true, emitted := s.emitted ++ [.pullLow],
    tStart := s.now, tmrRestart := true, cmpArmed := true, phase := .presence } := rfl

/-- Settles O9: each edge is a transition from the other level, and Presence sends it to its own handler. -/
theorem edgesInPresence : Obligations.EdgesInPresence := by
  intro s smp hphase
  constructor
  · intro hhigh
    rw [exec_falling smp hhigh, fallingEdge_presence smp hphase, State.fallPresence_eq]
  · intro hlow
    rw [exec_rising smp hlow, risingEdge_presence hphase, State.risePresence_eq]

/-- Settles O10: the line being low makes the event a rising edge, which Reset sends to the handler that
starts the presence pulse. -/
theorem risingEdgeInReset : Obligations.RisingEdgeInReset := by
  intro s smp hphase hlow
  rw [exec_rising smp hlow, risingEdge_reset hphase, State.riseReset_eq]

end Sys2Proof.Machine

/-! The bus reset (41_timer_events.md R141, R142): when an overflow is one, and EnterReset() written out over
the state before. -/

namespace Sys2Proof.Machine

/-- R142: the conditional release as one update. A driver that is off emits nothing and stays off, so both
branches of the test have the same form. -/
theorem State.releaseIfDriven_eq (s : State) : s.releaseIfDriven = { s with
    drive := false, emitted := s.emitted ++ (if s.drive then [.release] else []) } := by
  cases hdrive : s.drive with
  | true => simp [State.releaseIfDriven, State.release, hdrive]
  | false =>
    have hkeep : s = { s with drive := false } := by rw [← hdrive]
    simpa [State.releaseIfDriven, hdrive] using hkeep

/-- R142: the whole of EnterReset(). The accumulator, the active buffer and T are not among its updates. -/
theorem State.enterReset_eq (s : State) : s.enterReset = { s with
    phase := .reset, selected := false, continuation := .none, pendingDriveLow := false,
    bitIndex := 0, byteIndex := 0, ovfArmed := false, cmpArmed := false, drive := false,
    emitted := s.emitted ++ (if s.drive then [.release] else []) } := by
  rw [State.enterReset, State.releaseIfDriven_eq]

/-- R141: an armed overflow that finds the line low is a bus reset. -/
theorem exec_evOverflow_low {s : State} (harmed : s.ovfArmed = true) (hlow : s.lastLineLevel = false) :
    exec .evOverflow s = .next (State.enterReset { s with ovfArmed := false }) := by
  simp [exec, execEvOverflow, harmed, hlow]

/-- Settles O22: the guard sends the overflow to EnterReset(), which disarms it again, so the disarming that
comes first leaves no trace of its own. -/
theorem overflowEntersReset : Obligations.OverflowEntersReset := by
  intro s harmed hlow
  rw [exec_evOverflow_low harmed hlow, State.enterReset_eq]

end Sys2Proof.Machine

/-! The last bit of the checksum byte (42_commands.md R167, R168): the transmit that ends there hands over to
ReadMemoryStep(), whose start has one form below, at and above the store's end. -/

namespace Sys2Proof.Machine

/-- R113, R116: the state in which the continuation of a transmit runs, when its last bit has been sent. -/
def State.sentLastBit (s : State) : State := { s with
  phase := .idle, bitIndex := 0, byteIndex := s.byteIndex + 1, pendingDriveLow := false,
  drive := false, ovfArmed := true, tStart := s.now, tmrRestart := true,
  emitted := s.emitted ++ (if s.pendingDriveLow then [.pullLow, .release]
    else if s.drive then [.release] else []) }

/-- R107, R113: the falling edge that sends the last bit of a buffer runs the continuation and reconciles. -/
theorem exec_falling_sends_lastBit {s : State} {buf : Buffer} (smp : Bool)
    (hphase : s.phase = .transmitting) (hhigh : s.lastLineLevel = true)
    (hbuf : s.activeBuffer = .val buf) (hbit : s.bitIndex = 7) (hlast : s.byteIndex + 1 = buf.len) :
    exec (.evLine false smp) s = .next (s.sentLastBit.runContinuation.reconcile smp) := by
  have hadvance : s.fallPrologue.sendBit.txAdvance = s.sentLastBit.runContinuation := by
    rw [sendBit_eq]
    exact txAdvance_ends_buffer hbuf hbit hlast
  rw [exec_falling smp hhigh, fallingEdge_transmitting smp hphase, hadvance]

/-- R167: after the checksum that continuation is ReadMemoryStep(), on the address T holds. -/
theorem runContinuation_sentLastBit_readMemory {s : State} {lo hi : Byte}
    (hcont : s.continuation = .readMemory) (hlo : s.trans.read 1 = some lo)
    (hhi : s.trans.read 2 = some hi) :
    s.sentLastBit.runContinuation = s.sentLastBit.runNone.startTransmit State.runNone .persistent
      (offsetOf hi lo) (remainingFrom (offsetOf hi lo)) .none := by
  have hcont' : s.sentLastBit.continuation = .readMemory := hcont
  rw [runContinuation_readMemory hcont']
  exact readMemoryStep_of_address hlo hhi

/-- R117 after an armed overflow: it stays armed exactly if the line is still low. -/
theorem State.reconcile_of_ovfArmed {s : State} (smp : Bool) (harmed : s.ovfArmed = true) :
    s.reconcile smp = { s with lastLineLevel := smp, ovfArmed := !smp } := by
  cases smp <;> simp [State.reconcile, harmed]

/-- R168: nothing remains exactly at the store's end. -/
theorem remainingFrom_eq_zero_iff (o : Index) : remainingFrom o = 0 ↔ o.toNat = 128 := by
  rw [← BitVec.toNat_inj, remainingFrom_toNat, show (0 : Index).toNat = 0 from rfl]
  split <;> omega

/-- Settles O21: one continuation in all three cases, then StartTransmit's case for the offset: a byte of the
store, no byte to send, or a read beyond the store. -/
theorem checksumSentStartsStore : Obligations.ChecksumSentStartsStore := by
  intro s smp buf lo hi hphase hhigh hbuf hbit hlast hcont hlo hhi
  have hexec := exec_falling_sends_lastBit smp hphase hhigh hbuf hbit hlast
  rw [runContinuation_sentLastBit_readMemory hcont hlo hhi] at hexec
  have hlen := remainingFrom_toNat (offsetOf hi lo)
  refine ⟨offsetOf hi lo, remainingFrom (offsetOf hi lo), offsetOf_toNat hi lo, ?below, ?at_end, ?above⟩
  case below =>
    intro hbelow x hx
    have hne : remainingFrom (offsetOf hi lo) ≠ 0 := by rw [Ne, remainingFrom_eq_zero_iff]; omega
    have hx' : s.sentLastBit.runNone.byteAt .persistent (offsetOf hi lo) = some x := hx
    refine ⟨by rw [hlen, if_pos (by omega)], ?_⟩
    rw [hexec, startTransmit_of_byteAt _ _ hne hx', State.reconcile_of_ovfArmed smp rfl]
    rfl
  case at_end =>
    intro hend
    have hzero : remainingFrom (offsetOf hi lo) = 0 := (remainingFrom_eq_zero_iff _).mpr hend
    refine ⟨hzero, ?_⟩
    rw [hexec, hzero, startTransmit_empty, State.reconcile_of_ovfArmed smp rfl]
    rfl
  case above =>
    intro habove
    have hne : remainingFrom (offsetOf hi lo) ≠ 0 := by rw [Ne, remainingFrom_eq_zero_iff]; omega
    refine ⟨by rw [hlen, if_neg (by omega)], ?_⟩
    rw [hexec, startTransmit_beyond_store _ _ hne (by omega), State.reconcile_of_ovfArmed smp rfl]
    rfl

end Sys2Proof.Machine

/-! A master's reading of a transmit (30_encoding.md R90, 40_line_events.md R107, R113): slot by slot through a
byte, byte by byte through a buffer; then READ IDENTIFIER (42_commands.md R171). -/

namespace Sys2Proof.Machine

/-- R107: a transmitting device in a read slot after the driver has sent its bit, before TxAdvance(). -/
def State.slotDriven (s : State) : State := { s with
  drive := false, ovfArmed := true, tStart := s.now, tmrRestart := true, inputs := []
  emitted := if s.pendingDriveLow then [.pullLow, .release] else if s.drive then [.release] else [] }

/-- R117, R101: the slot's end, when the line is high and the rising-edge word has found no transition. -/
def State.slotEnded (s : State) : State := { s with
  lastLineLevel := true, ovfArmed := false, tmrRestart := false, emitted := [], inputs := [] }

/-- R50, R107: the slot reads 0 exactly if the bit asked for the line pulled low. -/
theorem slotValue_slotDriven (s : State) : slotValue s.slotDriven.emitted = !s.pendingDriveLow := by
  cases hp : s.pendingDriveLow <;> cases hd : s.drive <;> simp [slotValue, State.slotDriven, hp, hd]

/-- R107: the first word of a read slot sends one bit and advances; the master has released the line by the
handler's end. -/
theorem stepWord_slot_transmitting {s : State} (hphase : s.phase = .transmitting)
    (hhigh : s.lastLineLevel = true) :
    stepWord 0x1 s = some (s.slotDriven.txAdvance.reconcile true) := by
  refine stepWord_of_exec (decodeEvent_slot true) ?_
  rw [exec_falling true (by exact hhigh), fallingEdge_transmitting true (by exact hphase), sendBit_eq]
  rfl

/-- R101: with the line already high, the second word of a slot clears the outputs and does nothing else. -/
theorem stepWord_slot_end {s : State} (hhigh : s.lastLineLevel = true) :
    stepWord 0x3 s = some { s with tmrRestart := false, emitted := [], inputs := [] } := by
  refine stepWord_of_exec (i := .evLine true true) (by decide) ?_
  simp [exec, execEvLine, hhigh]

/-- A read slot of a transmitting device reads the current bit and is one TxAdvance(). -/
theorem readSlot_transmitting {s : State} (hphase : s.phase = .transmitting)
    (hhigh : s.lastLineLevel = true) :
    readSlot s = some (!s.pendingDriveLow, s.slotDriven.txAdvance.slotEnded) := by
  have hvalue : slotValue (s.slotDriven.txAdvance.reconcile true).emitted = !s.pendingDriveLow := by
    rw [← slotValue_slotDriven, ← (txAdvance_shell s.slotDriven).emitted]
    rfl
  rw [readSlot, stepWord_slot_transmitting hphase hhigh, Option.bind_some, stepWord_slot_end rfl,
    Option.map_some, hvalue]
  rfl

/-! ### A transmit in progress -/

/-- What sending leaves alone: the continuation to come, `selected`, the fault bits and the bytes of the
spaces. -/
structure Undisturbed (s t : State) : Prop where
  continuation : t.continuation = s.continuation
  selected : t.selected = s.selected
  faults : t.faults = s.faults
  byteAt : ∀ k i, t.byteAt k i = s.byteAt k i

theorem Undisturbed.trans {s t u : State} (h : Undisturbed s t) (k : Undisturbed t u) : Undisturbed s u :=
  ⟨k.continuation.trans h.continuation, k.selected.trans h.selected, k.faults.trans h.faults,
    fun kind i => (k.byteAt kind i).trans (h.byteAt kind i)⟩

/-- In `s`, the transmit of `buf` that began in `s₀` is about to send bit `bit` of its byte `x` number
`byte`, with the line high. -/
structure Sending (s₀ : State) (buf : Buffer) (byte : Nat) (x : Byte) (bit : Nat) (s : State) : Prop where
  phase : s.phase = .transmitting
  lineHigh : s.lastLineLevel = true
  buffer : s.activeBuffer = .val buf
  byteIndex : s.byteIndex.toNat = byte
  bitIndex : s.bitIndex.toNat = bit
  accumulator : s.accumulator = .val x
  pending : s.pendingDriveLow = !x.getLsbD bit
  undisturbed : Undisturbed s₀ s

section
variable {s₀ s : State} {buf : Buffer} {byte bit : Nat} {x y : Byte}

/-- The slot reads the bit that is about to be sent. -/
theorem Sending.readSlot_eq (h : Sending s₀ buf byte x bit s) :
    readSlot s = some (x.getLsbD bit, s.slotDriven.txAdvance.slotEnded) := by
  rw [readSlot_transmitting h.phase h.lineHigh, h.pending, Bool.not_not]

/-- Inside a byte the next bit comes up. -/
theorem Sending.slot_inside_byte (h : Sending s₀ buf byte x bit s) (hbit : bit < 7) :
    Sending s₀ buf byte x (bit + 1) s.slotDriven.txAdvance.slotEnded := by
  have hindex := h.bitIndex
  have hne : s.bitIndex ≠ 7 := by bv_omega
  have hnext : (s.bitIndex + 1).toNat = bit + 1 := by bv_omega
  rw [txAdvance_inside_byte (s := s.slotDriven) h.accumulator hne]
  exact
    { phase := h.phase, lineHigh := rfl, buffer := h.buffer, byteIndex := h.byteIndex,
      bitIndex := hnext, accumulator := h.accumulator
      pending := congrArg (fun i => !x.getLsbD i) hnext
      undisturbed := h.undisturbed.trans ⟨rfl, rfl, rfl, fun _ _ => rfl⟩ }

/-- After a byte that is not the last, the buffer's next byte comes up. -/
theorem Sending.slot_next_byte (h : Sending s₀ buf byte x 7 s) (hmore : byte + 1 < buf.len.toNat)
    (hy : s₀.byteAt buf.kind (buf.base + (s.byteIndex + 1)) = some y) :
    Sending s₀ buf (byte + 1) y 0 s.slotDriven.txAdvance.slotEnded := by
  have hindex := h.byteIndex
  have hnext : (s.byteIndex + 1).toNat = byte + 1 := by bv_omega
  have hne : s.byteIndex + 1 ≠ buf.len := fun e => by rw [← e, hnext] at hmore; omega
  have hbit : s.bitIndex = 7 := BitVec.eq_of_toNat_eq h.bitIndex
  have hy' : s.slotDriven.byteAt buf.kind (buf.base + (s.byteIndex + 1)) = some y :=
    (h.undisturbed.byteAt _ _).trans hy
  rw [txAdvance_next_byte_of_byteAt (s := s.slotDriven) h.buffer hbit hne hy']
  exact
    { phase := h.phase, lineHigh := rfl, buffer := h.buffer, byteIndex := hnext, bitIndex := rfl,
      accumulator := rfl, pending := rfl
      undisturbed := h.undisturbed.trans ⟨rfl, rfl, rfl, fun _ _ => rfl⟩ }

/-- After the last byte a transmit without continuation leaves the device Idle. -/
theorem Sending.slot_last_byte (h : Sending s₀ buf byte x 7 s) (hlast : byte + 1 = buf.len.toNat)
    (hcont : s₀.continuation = .none) :
    s.slotDriven.txAdvance.slotEnded.phase = .idle ∧
      s.slotDriven.txAdvance.slotEnded.lastLineLevel = true ∧
      Undisturbed s₀ s.slotDriven.txAdvance.slotEnded := by
  have hindex := h.byteIndex
  have hend : s.byteIndex + 1 = buf.len := by bv_omega
  have hbit : s.bitIndex = 7 := BitVec.eq_of_toNat_eq h.bitIndex
  have hcont' : s.continuation = .none := h.undisturbed.continuation.trans hcont
  rw [txAdvance_ends_buffer (s := s.slotDriven) h.buffer hbit hend,
    runContinuation_none (by exact hcont')]
  exact ⟨rfl, rfl, h.undisturbed.trans ⟨hcont'.symm, rfl, rfl, fun _ _ => rfl⟩⟩

/-- The first `n` slots of a byte read its `n` lowest bits. -/
theorem Sending.readSlots_lowBits (h : Sending s₀ buf byte x 0 s) (n : Nat) (hn : n ≤ 7) :
    ∃ u, readSlots n s = some ((List.range n).map x.getLsbD, u) ∧ Sending s₀ buf byte x n u := by
  induction n with
  | zero => exact ⟨s, rfl, h⟩
  | succ n ih =>
    obtain ⟨u, hread, hu⟩ := ih (by omega)
    refine ⟨_, ?_, hu.slot_inside_byte hn⟩
    rw [List.range_succ, List.map_append]
    exact readSlots_snoc hread hu.readSlot_eq

/-- Eight slots read the byte; its last one is the slot that ends it. -/
theorem Sending.readByte_eq (h : Sending s₀ buf byte x 0 s) :
    ∃ u, readByte s = some (x, u.slotDriven.txAdvance.slotEnded) ∧ Sending s₀ buf byte x 7 u := by
  obtain ⟨u, hread, hu⟩ := h.readSlots_lowBits 7 le_rfl
  refine ⟨u, ?_, hu⟩
  rw [readByte, readSlots_snoc hread hu.readSlot_eq, Option.map_some]
  exact congrArg (fun v => some (v, _)) (byteOfBits_getLsbD x)

/-- The rest of a buffer, read to its end: its bytes in order, and then an Idle device. -/
theorem Sending.readBytes_rest {f : Nat → Byte}
    (hspace : ∀ i : Index, i.toNat < buf.len.toNat → s₀.byteAt buf.kind (buf.base + i) = some (f i.toNat))
    (hcont : s₀.continuation = .none) (n : Nat) (hn : byte + n + 1 = buf.len.toNat)
    (h : Sending s₀ buf byte (f byte) 0 s) :
    ∃ u, readBytes (n + 1) s = some ((List.range (n + 1)).map (fun i => f (byte + i)), u) ∧
      u.phase = .idle ∧ u.lastLineLevel = true ∧ Undisturbed s₀ u := by
  induction n generalizing byte s with
  | zero =>
    obtain ⟨t, hread, ht⟩ := h.readByte_eq
    refine ⟨_, ?_, ht.slot_last_byte hn hcont⟩
    simp [readBytes, hread]
  | succ n ih =>
    obtain ⟨t, hread, ht⟩ := h.readByte_eq
    have hindex := ht.byteIndex
    have hnext : (t.byteIndex + 1).toNat = byte + 1 := by bv_omega
    have hy := hspace (t.byteIndex + 1) (by omega)
    rw [hnext] at hy
    obtain ⟨u, hrest, hu⟩ := ih (by omega) (ht.slot_next_byte (by omega) hy)
    refine ⟨u, ?_, hu⟩
    rw [readBytes, hread, Option.bind_some, hrest, List.range_succ_eq_map (n := n + 1)]
    simp [Function.comp_def, Nat.add_assoc, Nat.add_comm 1]

end

/-! ### READ IDENTIFIER -/

/-- R161: a device whose ID holds its first byte starts sending that byte. -/
theorem readIdentifier_sending {s : State} {x : Byte} (hhigh : s.lastLineLevel = true)
    (hx : s.byteAt .identifier 0 = some x) :
    Sending s.readIdentifier ⟨.identifier, 0, 8⟩ 0 x 0 s.readIdentifier ∧
      s.readIdentifier.continuation = .none ∧ s.readIdentifier.selected = s.selected ∧
      s.readIdentifier.faults = s.faults ∧
      ∀ i, s.readIdentifier.byteAt .identifier i = s.byteAt .identifier i := by
  rw [State.readIdentifier, startTransmit_of_byteAt _ _ (by decide) hx]
  exact
    ⟨{ phase := rfl, lineHigh := hhigh, buffer := rfl, byteIndex := rfl, bitIndex := rfl,
       accumulator := rfl, pending := rfl, undisturbed := ⟨rfl, rfl, rfl, fun _ _ => rfl⟩ },
      rfl, rfl, rfl, fun _ => rfl⟩

/-- Settles O54: the command opens the transmit of all eight bytes, and the master reads it to its end. -/
theorem readIdentifierReturnsIdentifier : Obligations.ReadIdentifierReturnsIdentifier := by
  intro s t id hhigh _ hid hexec
  obtain rfl : s.readIdentifier = t := Host.Outcome.next.inj hexec
  obtain ⟨hsending, hcont, hselected, hfaults, hspace⟩ := readIdentifier_sending hhigh (hid 0 (by decide))
  have hbytes : ∀ i : Index, i.toNat < 8 →
      s.readIdentifier.byteAt .identifier (0 + i) = some (id i.toNat) := fun i hi => by
    rw [show 0 + i = i from BitVec.zero_add i, hspace, hid i hi]
  obtain ⟨u, hread, hidle, hline, hu⟩ :=
    Sending.readBytes_rest (buf := ⟨.identifier, 0, 8⟩) hbytes hcont 7 rfl hsending
  simp only [Nat.zero_add] at hread
  exact ⟨u, hread, hidle, hu.continuation.trans hcont, hu.selected.trans hselected, hline,
    hu.faults.trans hfaults⟩

end Sys2Proof.Machine

/-! Power-on (70_reset_and_hazards.md R230): the poison of the transient bytes, and the first step. -/

namespace Sys2Proof.Machine

/-- R49: while nothing has been written to T, ctx.command is poison. -/
theorem State.command_of_trans_nil {s : State} (h : s.trans = []) : s.command = .poison := by
  simp only [State.command, h, Memory.read_nil]

/-- R49: while nothing has been written to T, every byte of ctx.scratch is poison. -/
theorem State.scratch_of_trans_nil {s : State} (h : s.trans = []) (i : Fin 3) : s.scratch i = .poison := by
  simp only [State.scratch, h, Memory.read_nil]

/-- The state of R230 already stands at the start of a step: it shows no outputs and has no events pending,
so nothing happens before the meaning of the first word. -/
theorem step_first_event (w : EventWord) :
    step (State.reset.placeEvent w) = exec (decodeEvent w) State.reset :=
  step_placeEvent w State.reset

/-- Settles O1: the fields are those of `State.reset` itself, T holds no byte yet, and the first step is the
meaning of the one word placed. -/
theorem powerOnState : Obligations.PowerOnState := by
  refine ⟨⟨rfl, rfl, rfl, rfl, rfl, rfl, rfl, rfl, rfl, rfl, rfl, rfl, rfl, ?command, ?scratch⟩,
    step_first_event⟩
  case command => exact State.command_of_trans_nil rfl
  case scratch => exact State.scratch_of_trans_nil rfl

end Sys2Proof.Machine

/-! Delivery and the step (00_scope.md R6, 60_exceptions.md R218): what runs when an event is delivered and
what when none is; no row of the table stops the machine. -/

namespace Sys2Proof.Machine

/-- R6: the delivered event's row runs after the clock has moved and the last outputs are gone. -/
theorem step_of_delivery {s : State} {d : Delivery} (h : nextDelivery s.inputs = some d) :
    step s = exec (decodeEvent d.word) (s.beginStep d) := by
  simp only [step, h]

/-- R218: with nothing to deliver the step waits. -/
theorem step_of_no_delivery {s : State} (h : nextDelivery s.inputs = none) : step s = .next s := by
  simp only [step, h]

/-- R200: a line event has its effect in every state. -/
theorem execEvLine_next (p smp : Bool) (s : State) : ∃ t, execEvLine p smp s = .next t := by
  unfold execEvLine
  split
  · exact ⟨_, rfl⟩
  · split <;> exact ⟨_, rfl⟩

/-- R141: an overflow is accepted or not; it stops the machine in neither case. -/
theorem execEvOverflow_next (s : State) : ∃ t, execEvOverflow s = .next t := by
  cases harmed : s.ovfArmed <;> cases hline : s.lastLineLevel <;>
    simp [execEvOverflow, harmed, hline]

/-- R144: a compare has its effect in every state. -/
theorem execEvCompare_next (s : State) : ∃ t, execEvCompare s = .next t := by
  cases harmed : s.cmpArmed <;> cases hphase : s.phase <;> simp [execEvCompare, harmed, hphase]

/-- R200, R203: every row answers a next state. -/
theorem exec_next (i : Instr) (s : State) : ∃ t, exec i s = .next t := by
  cases i with
  | evLine p smp => exact execEvLine_next p smp s
  | evOverflow => exact execEvOverflow_next s
  | evCompare => exact execEvCompare_next s
  | evReserved | cmdReadIdentifier | cmdSelectAll | cmdReadMemory | cmdReadMemoryUnselected
  | cmdUnrecognized => exact ⟨_, rfl⟩

/-- Settles O3: `beginStep` is the update the statement writes out. -/
theorem stepRunsDecodedEvent : Obligations.StepRunsDecodedEvent :=
  fun _ _ hdelivery => step_of_delivery hdelivery

/-- Settles O4: nothing is delivered from an empty list. -/
theorem stepWaitsWithoutEvent : Obligations.StepWaitsWithoutEvent :=
  fun s hempty => step_of_no_delivery (s := s) (by rw [hempty]; rfl)

/-- Settles O5: a step waits or runs one row, and every row answers a next state. -/
theorem stepNeverStops : Obligations.StepNeverStops := by
  intro s
  cases hdelivery : nextDelivery s.inputs with
  | none => exact ⟨s, step_of_no_delivery hdelivery⟩
  | some d => simpa only [step_of_delivery hdelivery] using exec_next _ _

end Sys2Proof.Machine

/-! Power-on (10_state.md R49, 70_reset_and_hazards.md R230, R233): the parameters in the two read-only spaces, the
invariant and the boot requirements. -/

namespace Sys2Proof.Machine

/-- R61: a read of the identifier space at power-on. -/
theorem reset_byteAt_identifier (i : Index) :
    State.reset.byteAt .identifier i = if i.toNat < 8 then some (Config.identifier i.toNat) else none := by
  have hread : State.reset.ident.read i.toNat =
      if i.toNat < 8 then some (Config.identifier i.toNat) else none := read_parameterCells _ _ _
  simp only [State.byteAt, Config.idLen, hread]
  split <;> rfl

/-- R62: a read of the store at power-on. -/
theorem reset_byteAt_persistent (i : Index) :
    State.reset.byteAt .persistent i = if i.toNat < 128 then some (Config.store i.toNat) else none := by
  have hread : State.reset.store.read i.toNat =
      if i.toNat < 128 then some (Config.store i.toNat) else none := read_parameterCells _ _ _
  simp only [State.byteAt, Config.storeSize, hread]
  split <;> rfl

/-- Settles O2: the two spaces hold their parameter below their size and nothing from there on. -/
theorem powerOnHoldsParameters : Obligations.PowerOnHoldsParameters :=
  ⟨fun i hi => (reset_byteAt_identifier i).trans (if_pos hi),
    fun i hi => (reset_byteAt_identifier i).trans (if_neg (by omega)),
    fun i hi => (reset_byteAt_persistent i).trans (if_pos hi),
    fun i hi => (reset_byteAt_persistent i).trans (if_neg (by omega)), rfl⟩

/-- Settles O41: power-on is Idle with nothing pending, nothing armed and the driver off. -/
theorem powerOnMeetsInv : Obligations.PowerOnMeetsInv :=
  Inv.of_quiet (by decide) (by decide) rfl rfl (by decide) (by decide) (fun _ => rfl) (fun _ => rfl)
    (fun h => absurd h (by decide)) reset_spacesWf

/-- Settles O57: the parameters are whole spaces, and the other items are the power-on values. -/
theorem powerOnIsBootReady : Obligations.PowerOnIsBootReady :=
  ⟨rfl, rfl, rfl, ⟨parameterCells_wf _ _, parameterCells_length _ _⟩,
    ⟨parameterCells_wf _ _, parameterCells_length _ _⟩, rfl, rfl, rfl, rfl, rfl, rfl, rfl, rfl, rfl, rfl⟩

end Sys2Proof.Machine

/-! What a read gives (20_memory.md R63, R64; 10_state.md R49). -/

namespace Sys2Proof.Machine

/-- R63: outside T, outside the identifier and through kind 3 a read draws and sets F_INTERNAL. -/
theorem memRead_outside {s : State} {k : SourceKind} {i : Index}
    (h : (k = .transient ∧ 4 ≤ i.toNat) ∨ (k = .identifier ∧ 8 ≤ i.toNat) ∨ k = .noSource) :
    memRead k i s = drawByte s.raiseInternal := by
  obtain ⟨rfl, hi⟩ | ⟨rfl, hi⟩ | rfl := h
  · exact if_neg (by simpa [Config.transientSize, Config.scratchSize] using hi)
  · exact if_neg (by simpa [Config.idLen] using hi)
  · rfl

/-- R49: a byte inside a space that the space does not hold is poison. -/
theorem memRead_unheld {s : State} {k : SourceKind} {i : Index}
    (h : (k = .transient ∧ i.toNat < 4) ∨ (k = .identifier ∧ i.toNat < 8) ∨
      (k = .persistent ∧ i.toNat < 128)) (hnone : s.byteAt k i = none) :
    memRead k i s = drawByte s.raisePoisonRead := by
  obtain ⟨rfl, hi⟩ | ⟨rfl, hi⟩ | ⟨rfl, hi⟩ := h
  · have hread : s.trans.read i.toNat = none := by
      simpa [State.byteAt, Config.transientSize, Config.scratchSize, hi] using hnone
    simp [memRead, readCell, Config.transientSize, Config.scratchSize, hi, hread]
  · have hread : s.ident.read i.toNat = none := by simpa [State.byteAt, Config.idLen, hi] using hnone
    simp [memRead, readCell, Config.idLen, hi, hread]
  · have hread : s.store.read i.toNat = none := by
      simpa [State.byteAt, Config.storeSize, hi] using hnone
    simp [memRead, readCell, Config.storeSize, hi, hread]

/-- Settles O37: the four outcomes of a read, one lemma each. -/
theorem memReadOutcomes : Obligations.MemReadOutcomes := by
  intro s k i
  refine ⟨fun v hheld => memRead_of_byteAt hheld, ?beyond, fun hout => memRead_outside hout,
    fun hin hnone => memRead_unheld hin hnone⟩
  case beyond =>
    rintro rfl hi
    exact memRead_beyond_store hi

end Sys2Proof.Machine

/-! The command rows (42_commands.md R160 to R165): the opcode map and each row's effect. -/

namespace Sys2Proof.Machine

/-- R84: the opcode map gives its three codes in order, and every other code is unrecognized. -/
theorem commandCode_cases (c : Byte) :
    (c = 0x33 ∧ commandCode c = .readIdentifier) ∨ (c = 0xCC ∧ commandCode c = .selectAll) ∨
    (c = 0xF0 ∧ commandCode c = .readMemory) ∨
    ((c ≠ 0x33 ∧ c ≠ 0xCC ∧ c ≠ 0xF0) ∧ commandCode c = .unrecognized) := by
  by_cases h1 : c = 0x33
  · exact .inl ⟨h1, by rw [h1]; rfl⟩
  by_cases h2 : c = 0xCC
  · exact .inr (.inl ⟨h2, by rw [h2]; rfl⟩)
  by_cases h3 : c = 0xF0
  · exact .inr (.inr (.inl ⟨h3, by rw [h3]; rfl⟩))
  · exact .inr (.inr (.inr ⟨⟨h1, h2, h3⟩, by simp only [commandCode, h1, h2, h3, if_false]⟩))

/-- R85: a code the map does not know is carried by the unrecognized row. -/
theorem decodeCommand_unrecognized {c : Byte} (sel : Bool) (h : commandCode c = .unrecognized) :
    decodeCommand sel c = .cmdUnrecognized c := by
  simp only [decodeCommand, h]

/-- Settles O33: the three codes by evaluation, any other by the map's last line. -/
theorem commandBytesDecode : Obligations.CommandBytesDecode := by
  intro sel c
  refine ⟨?readIdentifier, ?selectAll, ?readMemory, ?other⟩
  case readIdentifier => rintro rfl; rfl
  case selectAll => rintro rfl; rfl
  case readMemory => rintro rfl; exact ⟨rfl, rfl⟩
  case other =>
    intro h1 h2 h3
    exact decodeCommand_unrecognized sel (by simp only [commandCode, h1, h2, h3, if_false])

/-- Settles O34: ten closed words. -/
theorem eventWordsDecode : Obligations.EventWordsDecode := by
  unfold Obligations.EventWordsDecode
  decide

/-- R161: a device whose identifier holds its first byte starts sending it. -/
theorem State.readIdentifier_eq {s : State} {x : Byte} (hx : s.byteAt .identifier 0 = some x) :
    s.readIdentifier = { s with
      phase := .transmitting, activeBuffer := .val ⟨.identifier, 0, 8⟩, bitIndex := 0, byteIndex := 0,
      accumulator := .val x, pendingDriveLow := !x.getLsbD 0, continuation := .none } := by
  rw [State.readIdentifier, startTransmit_of_byteAt _ _ (by decide) hx]
  rfl

/-- R163: honored, READ MEMORY receives its two address bytes. -/
theorem State.readMemoryCommand_selected {s : State} (h : s.selected = true) :
    s.readMemoryCommand = s.startReceive 1 2 .computeChecksumAndRead := if_pos h

/-- R164: not honored, READ MEMORY does nothing. -/
theorem State.readMemoryCommand_unselected {s : State} (h : s.selected = false) :
    s.readMemoryCommand = s := if_neg (by simp [h])

/-- Settles O27: the transmit starts at ID[0]. -/
theorem readIdentifierStartsTransmit : Obligations.ReadIdentifierStartsTransmit :=
  fun _ _ hx => congrArg Host.Outcome.next (State.readIdentifier_eq hx)

/-- Settles O28: SELECT ALL is one update followed by the start of a receive. -/
theorem selectAllReceivesNextCommand : Obligations.SelectAllReceivesNextCommand :=
  fun _ => rfl

/-- Settles O29: with `selected` set the row is the start of a receive. -/
theorem readMemoryReceivesAddress : Obligations.ReadMemoryReceivesAddress :=
  fun _ hsel => congrArg Host.Outcome.next (State.readMemoryCommand_selected hsel)

/-- Settles O30: the procedure's own test of `selected` fails. -/
theorem readMemoryUnselectedIgnored : Obligations.ReadMemoryUnselectedIgnored :=
  fun _ hsel => congrArg Host.Outcome.next (State.readMemoryCommand_unselected hsel)

/-- Settles O31: both rows call the one procedure of code 0xF0. -/
theorem readMemoryRowsAgree : Obligations.ReadMemoryRowsAgree :=
  fun s => ⟨rfl, fun hsel => readMemoryUnselectedIgnored s hsel⟩

/-- Settles O32: the row has no effect. -/
theorem unrecognizedCommandIgnored : Obligations.UnrecognizedCommandIgnored :=
  fun _ _ => rfl

end Sys2Proof.Machine

/-! Line events that take no bit (40_line_events.md R101, R103, R104, R111). -/

namespace Sys2Proof.Machine

/-- R101: an event at the known level is no transition. -/
theorem exec_evLine_same {p : Bool} (smp : Bool) {s : State} (h : p = s.lastLineLevel) :
    exec (.evLine p smp) s = .next s := if_pos h

/-- R103, R104: outside a transfer and outside Presence a falling edge starts the reset measurement. -/
theorem fallingEdge_takes_no_bit {s : State} (smp : Bool) (h : s.phase = .idle ∨ s.phase = .reset) :
    s.fallingEdge smp = { s with
      lastLineLevel := false, ovfArmed := true, tStart := s.now, tmrRestart := true } := by
  obtain hidle | hreset := h
  · rw [fallingEdge_idle smp hidle]; rfl
  · rw [fallingEdge_reset smp hreset]; rfl

/-- Settles O7: the level of the event is the one known. -/
theorem noTransitionChangesNothing : Obligations.NoTransitionChangesNothing :=
  fun _ smp => exec_evLine_same smp rfl

/-- Settles O8: both states have the same falling-edge rule. -/
theorem fallingEdgeInIdleOrReset : Obligations.FallingEdgeInIdleOrReset := by
  intro s smp hphase hhigh
  rw [exec_falling smp hhigh, fallingEdge_takes_no_bit smp hphase]

/-- Settles O11: outside Reset and Presence the rule of a rising edge is RisePrologue() alone. -/
theorem risingEdgeTakesNoBit : Obligations.RisingEdgeTakesNoBit := by
  intro s smp hphase hlow
  have hreset : s.phase ≠ .reset := by rintro e; simp [e] at hphase
  have hpresence : s.phase ≠ .presence := by rintro e; simp [e] at hphase
  rw [exec_rising smp hlow, risingEdge_other hreset hpresence]
  rfl

end Sys2Proof.Machine

/-! Timer events (41_timer_events.md R141, R144). -/

namespace Sys2Proof.Machine

/-- R141: with the line high the measurement ends without a reset. -/
theorem exec_evOverflow_high {s : State} (harmed : s.ovfArmed = true) (hhigh : s.lastLineLevel = true) :
    exec .evOverflow s = .next { s with ovfArmed := false } := by
  simp [exec, execEvOverflow, harmed, hhigh]

/-- R45: a strobe of an overflow that is not armed is not accepted. -/
theorem exec_evOverflow_unarmed {s : State} (h : s.ovfArmed = false) : exec .evOverflow s = .next s :=
  if_neg (by simp [h])

/-- R45: nor is a compare's. -/
theorem exec_evCompare_unarmed {s : State} (h : s.cmpArmed = false) : exec .evCompare s = .next s :=
  if_neg (by simp [h])

/-- R144: the compare ends the presence pulse. -/
theorem exec_evCompare_presence {s : State} (harmed : s.cmpArmed = true) (hphase : s.phase = .presence) :
    exec .evCompare s = .next { s with
      cmpArmed := false, drive := false, emitted := s.emitted ++ [.release], phase := .receiving,
      activeBuffer := .val ⟨.transient, 0, 1⟩, bitIndex := 0, byteIndex := 0, accumulator := .val 0,
      pendingDriveLow := false, continuation := .dispatchCommand } := by
  simp only [exec, execEvCompare, harmed, if_true, hphase]
  rfl

/-- R144: elsewhere an armed compare is only disarmed. -/
theorem exec_evCompare_elsewhere {s : State} (harmed : s.cmpArmed = true) (hphase : s.phase ≠ .presence) :
    exec .evCompare s = .next { s with cmpArmed := false } := by
  cases hp : s.phase <;> simp_all [exec, execEvCompare]

/-- Settles O23: the two ways an overflow is no reset. -/
theorem overflowWithoutReset : Obligations.OverflowWithoutReset :=
  fun _ => ⟨exec_evOverflow_high, exec_evOverflow_unarmed⟩

/-- Settles O24: the release and the start of the receive are one update. -/
theorem compareEndsPresence : Obligations.CompareEndsPresence :=
  fun _ => exec_evCompare_presence

/-- Settles O25: an armed compare looks at the state first, one that is not armed at nothing. -/
theorem compareOutsidePresence : Obligations.CompareOutsidePresence :=
  fun _ => ⟨exec_evCompare_elsewhere, exec_evCompare_unarmed⟩

end Sys2Proof.Machine

/-! One bit received or sent (40_line_events.md R106, R107, R112, R113, R117): each falling edge of a transfer as
one update of the state before. -/

namespace Sys2Proof.Machine

/-- R106: a falling edge in Receiving takes one bit, and the line level follows the sample. -/
theorem exec_falling_receiving {s : State} (b : Bool) (hphase : s.phase = .receiving)
    (hhigh : s.lastLineLevel = true) :
    exec (.evLine false b) s = .next ((s.fallPrologue.rxBit b).reconcile b) := by
  rw [exec_falling b hhigh, fallingEdge_receiving b hphase]

/-- R102, R107: a transmitting device when the driver has sent its bit, before TxAdvance(). -/
def State.bitDriven (s : State) : State := { s with
  drive := false, ovfArmed := true, tStart := s.now, tmrRestart := true,
  emitted := s.emitted ++ (if s.pendingDriveLow then [.pullLow, .release]
    else if s.drive then [.release] else []) }

theorem State.fallPrologue_sendBit (s : State) : s.fallPrologue.sendBit = s.bitDriven := sendBit_eq _

/-- R107: a falling edge in Transmitting sends one bit and makes the next one ready. -/
theorem exec_falling_transmitting {s : State} (b : Bool) (hphase : s.phase = .transmitting)
    (hhigh : s.lastLineLevel = true) :
    exec (.evLine false b) s = .next (s.bitDriven.txAdvance.reconcile b) := by
  rw [exec_falling b hhigh, fallingEdge_transmitting b hphase, State.fallPrologue_sendBit]

/-- Settles O12: RxBit() inside a byte writes one bit of the accumulator. -/
theorem receivedBitInsideByte : Obligations.ReceivedBitInsideByte := by
  intro s b v hphase hhigh hacc hbit
  refine ⟨setBit v s.bitIndex b, setBit_getLsbD v s.bitIndex b, ?_⟩
  rw [exec_falling_receiving b hphase hhigh, rxBit_inside_byte (s := s.fallPrologue) b hacc hbit,
    State.reconcile_of_ovfArmed b rfl]
  rfl

/-- Settles O13: the completed byte is written inside T, and the buffer has room for another. -/
theorem receivedByteInsideBuffer : Obligations.ReceivedByteInsideBuffer := by
  intro s b v buf hphase hhigh hacc hbuf hbit hmore hinside
  refine ⟨setBit v 7 b, s.trans.write (buf.base + s.byteIndex).toNat (setBit v 7 b),
    setBit_getLsbD v 7 b, fun a => ?read, ?step⟩
  case read => simp only [Memory.read_write, eq_comm]
  case step =>
    have hrx := rxBit_ends_byte_inside (s := s.fallPrologue) b hacc hbuf hbit hinside
    rw [if_neg (by exact hmore)] at hrx
    rw [exec_falling_receiving b hphase hhigh, hrx, State.reconcile_of_ovfArmed b rfl]
    rfl

/-- Settles O14: outside T the write raises its fault in place of storing. -/
theorem receivedByteOutsideTransient : Obligations.ReceivedByteOutsideTransient := by
  intro s b v buf hphase hhigh hacc hbuf hbit hmore houtside
  have hrx := rxBit_ends_byte (s := s.fallPrologue) b hacc hbuf hbit
  rw [if_neg (by exact hmore), memWrite_outside _ (by exact houtside)] at hrx
  rw [exec_falling_receiving b hphase hhigh, hrx, State.reconcile_of_ovfArmed b rfl]
  rfl

/-- Settles O17: TxAdvance() inside a byte makes the accumulator's next bit ready. -/
theorem sentBitInsideByte : Obligations.SentBitInsideByte := by
  intro s smp v hphase hhigh hacc hbit
  have hnext : (s.bitIndex + 1).toNat = s.bitIndex.toNat + 1 := by bv_omega
  rw [exec_falling_transmitting smp hphase hhigh, txAdvance_inside_byte (s := s.bitDriven) hacc hbit,
    State.reconcile_of_ovfArmed smp rfl, ← hnext]
  rfl

/-- Settles O18: TxAdvance() at a byte's end reads the buffer's next byte, which its space holds. -/
theorem sentByteFetchesNext : Obligations.SentByteFetchesNext := by
  intro s smp buf x hphase hhigh hbuf hbit hmore hx
  rw [exec_falling_transmitting smp hphase hhigh,
    txAdvance_next_byte_of_byteAt (s := s.bitDriven) hbuf hbit hmore hx,
    State.reconcile_of_ovfArmed smp rfl]
  rfl

/-- R64: TxAdvance() at a byte's end, where the next byte lies beyond the store. -/
theorem txAdvance_next_byte_beyond_store {s : State} {base len : Index}
    (hbuf : s.activeBuffer = .val ⟨.persistent, base, len⟩) (hbit : s.bitIndex = 7)
    (hmore : s.byteIndex + 1 ≠ len) (hbeyond : 128 ≤ (base + (s.byteIndex + 1)).toNat) :
    s.txAdvance = { s with
      bitIndex := 0, byteIndex := s.byteIndex + 1, accumulator := .val (Config.draw s.draws),
      pendingDriveLow := pendingFor (Config.draw s.draws) 0, draws := s.draws + 1,
      faults := { s.faults with oobRead := true } } := by
  rw [txAdvance_next_byte hbuf hbit hmore, memRead_beyond_store hbeyond]
  rfl

/-- Settles O19: the byte beyond the store is a draw with its fault bit, and sending goes on. -/
theorem sentByteBeyondStore : Obligations.SentByteBeyondStore := by
  intro s smp base len hphase hhigh hbuf hbit hmore hbeyond
  rw [exec_falling_transmitting smp hphase hhigh,
    txAdvance_next_byte_beyond_store (s := s.bitDriven) hbuf hbit hmore hbeyond,
    State.reconcile_of_ovfArmed smp rfl]
  rfl

/-- R116: clearing a continuation that is None already. -/
theorem State.runNone_eq_self {s : State} (h : s.continuation = .none) : s.runNone = s := by
  rw [State.runNone, ← h]

/-- Settles O20: at the buffer's end the continuation None has nothing left to do. -/
theorem lastSentBitEndsTransmit : Obligations.LastSentBitEndsTransmit := by
  intro s smp buf hphase hhigh hbuf hbit hlast hcont
  rw [exec_falling_sends_lastBit smp hphase hhigh hbuf hbit hlast,
    runContinuation_none (s := s.sentLastBit) hcont, State.runNone_eq_self (s := s.sentLastBit) hcont,
    State.reconcile_of_ovfArmed smp rfl]
  rfl

end Sys2Proof.Machine

/-! The command a received byte runs (42_commands.md R160): the opcode map applied to the byte, and the row it
decodes to, are one procedure. -/

namespace Sys2Proof.Machine

/-- R160: the procedure of a command byte, by the opcode map. -/
def State.runCommand (c : Byte) (s : State) : State :=
  match commandCode c with
  | .readIdentifier => s.readIdentifier
  | .selectAll => s.selectAll
  | .readMemory => s.readMemoryCommand
  | .unrecognized => s.unrecognized

/-- R160: Dispatch() is that procedure, for the byte T[0] holds. -/
theorem State.dispatch_eq_runCommand {s : State} {c : Byte} (h : s.trans.read 0 = some c) :
    s.dispatch = s.runCommand c := by
  rw [dispatch_of_command h]
  rfl

/-- R84, R160: the row a byte decodes to, under either value of `selected`, has that procedure as its
meaning. -/
theorem exec_decodeCommand (sel : Bool) (c : Byte) (s : State) :
    exec (decodeCommand sel c) s = .next (s.runCommand c) := by
  unfold decodeCommand State.runCommand
  cases commandCode c with
  | readIdentifier => rfl
  | selectAll => rfl
  | readMemory => cases sel <;> rfl
  | unrecognized => rfl

/-- R112: the state in which a completed command byte `c` is dispatched. -/
def State.commandReceived (c : Byte) (s : State) : State := { s with
  trans := s.trans.write 0 c, accumulator := .val 0, bitIndex := 0, byteIndex := 1, phase := .idle,
  continuation := .none }

/-- R112, R116, R160: the bit that completes a command byte stores it and runs its procedure. -/
theorem rxBit_completes_command {s : State} {v : Byte} (b : Bool) (hacc : s.accumulator = .val v)
    (hbuf : s.activeBuffer = .val ⟨.transient, 0, 1⟩) (hbit : s.bitIndex = 7) (hbyte : s.byteIndex = 0)
    (hcont : s.continuation = .dispatchCommand) :
    s.rxBit b = (s.commandReceived (setBit v 7 b)).runCommand (setBit v 7 b) := by
  rw [rxBit_ends_byte_inside b hacc hbuf hbit (by rw [hbyte]; decide), hbyte, if_pos (by decide),
    runContinuation_dispatch (by exact hcont),
    State.dispatch_eq_runCommand (Memory.read_write_same s.trans 0 (setBit v 7 b))]
  rfl

/-- R112: the first address byte is stored, and the second comes up. -/
theorem rxBit_completes_addressLow {s : State} {v : Byte} (b : Bool) (hacc : s.accumulator = .val v)
    (hbuf : s.activeBuffer = .val ⟨.transient, 1, 2⟩) (hbit : s.bitIndex = 7) (hbyte : s.byteIndex = 0) :
    s.rxBit b = { s with
      trans := s.trans.write 1 (setBit v 7 b), accumulator := .val 0, bitIndex := 0, byteIndex := 1 } := by
  rw [rxBit_ends_byte_inside b hacc hbuf hbit (by rw [hbyte]; decide), hbyte, if_neg (by decide)]
  rfl

/-- R166: the state in which the checksum byte `crc` has just been opened for sending. -/
def State.checksumOpened (crc : Byte) (s : State) : State := { s with
  phase := .transmitting, activeBuffer := .val ⟨.transient, 3, 1⟩, bitIndex := 0, byteIndex := 0,
  accumulator := .val crc, pendingDriveLow := !crc.getLsbD 0, continuation := .readMemory }

/-- R112, R116, R166: the second address byte is stored, and the checksum of the three bytes is opened. -/
theorem rxBit_completes_addressHigh {s : State} {v c lo : Byte} (b : Bool) (hacc : s.accumulator = .val v)
    (hbuf : s.activeBuffer = .val ⟨.transient, 1, 2⟩) (hbit : s.bitIndex = 7) (hbyte : s.byteIndex = 1)
    (hcont : s.continuation = .computeChecksumAndRead) (hc : s.trans.read 0 = some c)
    (hlo : s.trans.read 1 = some lo) :
    s.rxBit b = State.checksumOpened (checksum s.checksumFn [c, lo, setBit v 7 b]) { s with
      trans := (s.trans.write 2 (setBit v 7 b)).write 3 (checksum s.checksumFn [c, lo, setBit v 7 b]) } := by
  rw [rxBit_ends_byte_inside b hacc hbuf hbit (by rw [hbyte]; decide), hbyte, if_pos (by decide),
    runContinuation_checksum (by exact hcont), computeChecksumAndRead_of_bytes (c := c) (lo := lo)
      (hi := setBit v 7 b)]
  · rfl
  · exact (Memory.read_write_other _ _ (by decide)).trans hc
  · exact (Memory.read_write_other _ _ (by decide)).trans hlo
  · exact Memory.read_write_same _ _ _

/-- Settles O15: RxBit() runs the byte's procedure, which is the meaning of the row it decodes to. -/
theorem commandByteRunsDecodedCommand : Obligations.CommandByteRunsDecodedCommand := by
  intro s b v hphase hhigh hacc hbuf hbit hbyte hcont
  refine ⟨setBit v 7 b, s.trans.write 0 (setBit v 7 b),
    (s.fallPrologue.commandReceived (setBit v 7 b)).runCommand (setBit v 7 b),
    setBit_getLsbD v 7 b, fun a => ?read, exec_decodeCommand _ _ _, ?step⟩
  case read => simp only [Memory.read_write, eq_comm]
  case step =>
    rw [exec_falling_receiving b hphase hhigh,
      rxBit_completes_command (s := s.fallPrologue) b hacc hbuf hbit hbyte hcont]
    rfl

/-- Settles O16: the continuation of the address bytes opens the checksum. -/
theorem addressBytesStartChecksum : Obligations.AddressBytesStartChecksum := by
  intro s b v c lo hphase hhigh hacc hbuf hbit hbyte hcont hc hlo
  refine ⟨setBit v 7 b, _, (s.trans.write 2 (setBit v 7 b)).write 3
    (checksum s.checksumFn [c, lo, setBit v 7 b]), setBit_getLsbD v 7 b, rfl, fun a => ?read, ?step⟩
  case read => simp only [Memory.read_write, eq_comm]
  case step =>
    rw [exec_falling_receiving b hphase hhigh,
      rxBit_completes_addressHigh (s := s.fallPrologue) b hacc hbuf hbit hbyte hcont hc hlo,
      State.reconcile_of_ovfArmed b rfl]
    rfl

end Sys2Proof.Machine

/-! All that one bit can do to a transfer that meets the invariant (10_state.md R41, 40_line_events.md R112, R113):
a case for each way RxBit() and TxAdvance() can go, with the state it leaves. No case reads poison or leaves the
spaces, so none is there for it. -/

namespace Sys2Proof.Machine

/-- A receive the invariant allows, with the byte under construction. -/
structure Receives (s : State) (v : Byte) : Prop where
  phase : s.phase = .receiving
  pending : s.pendingDriveLow = false
  accumulator : s.accumulator = .val v
  shape : ReceiveShape s

/-- A transmit the invariant allows, with its buffer and the byte being sent. -/
structure Transmits (s : State) (buf : Buffer) (v : Byte) : Prop where
  phase : s.phase = .transmitting
  buffer : s.activeBuffer = .val buf
  inBuffer : s.byteIndex.toNat < buf.len.toNat
  accumulator : s.accumulator = .val v
  pending : s.pendingDriveLow = !v.getLsbD s.bitIndex.toNat
  held : ∀ x, s.byteAt buf.kind (buf.base + s.byteIndex) = some x → v = x
  shape : TransmitShape s

/-- What the framer leaves when it has taken a bit: an Idle device, or a transfer the invariant allows. -/
inductive Settled (s : State) : Prop
  | idle (phase : s.phase = .idle) (continuation : s.continuation = .none)
      (pending : s.pendingDriveLow = false)
  | receiving (v : Byte) (receives : Receives s v)
  | transmitting (buf : Buffer) (v : Byte) (transmits : Transmits s buf v)

/-- What a command's procedure can do (R161 to R165). -/
inductive CommandResult (c : Byte) (s : State) : State → Prop
  | identifierOpened (x : Byte) (held : s.byteAt .identifier 0 = some x) :
      CommandResult c s { s with
        phase := .transmitting, activeBuffer := .val ⟨.identifier, 0, 8⟩, bitIndex := 0, byteIndex := 0,
        accumulator := .val x, pendingDriveLow := !x.getLsbD 0, continuation := .none }
  | selected (code : c = 0xCC) : CommandResult c s s.selectAll
  | addressAwaited (selected : s.selected = true) :
      CommandResult c s (s.startReceive 1 2 .computeChecksumAndRead)
  | ignored : CommandResult c s s

/-- What RxBit() can do (R112). -/
inductive RxResult (b : Bool) (s : State) : State → Prop
  | bit (v : Byte) (inside : s.bitIndex ≠ 7) :
      RxResult b s { s with accumulator := .val (setBit v s.bitIndex b), bitIndex := s.bitIndex + 1 }
  | command (v : Byte) (r : State) (accumulator : s.accumulator = .val v) (last : s.bitIndex = 7)
      (continuation : s.continuation = .dispatchCommand)
      (result : CommandResult (setBit v 7 b) (s.commandReceived (setBit v 7 b)) r) : RxResult b s r
  | addressLow (v : Byte) (last : s.bitIndex = 7) (held : s.trans.read 0 ≠ none)
      (buffer : s.activeBuffer = .val ⟨.transient, 1, 2⟩)
      (continuation : s.continuation = .computeChecksumAndRead) (selected : s.selected = true) :
      RxResult b s { s with
        trans := s.trans.write 1 v, accumulator := .val 0, bitIndex := 0, byteIndex := 1 }
  | addressHigh (v crc : Byte) (last : s.bitIndex = 7) (held : s.trans.read 1 ≠ none)
      (selected : s.selected = true) :
      RxResult b s (State.checksumOpened crc { s with trans := (s.trans.write 2 v).write 3 crc })

/-- What TxAdvance() can do (R113). -/
inductive TxResult (s : State) (buf : Buffer) : State → Prop
  | bit (v : Byte) (inside : s.bitIndex ≠ 7) (accumulator : s.accumulator = .val v) :
      TxResult s buf { s with
        bitIndex := s.bitIndex + 1, pendingDriveLow := !v.getLsbD (s.bitIndex + 1).toNat }
  | byte (x : Byte) (more : (s.byteIndex + 1).toNat < buf.len.toNat)
      (held : s.byteAt buf.kind (buf.base + (s.byteIndex + 1)) = some x) :
      TxResult s buf { s with
        bitIndex := 0, byteIndex := s.byteIndex + 1, accumulator := .val x, pendingDriveLow := !x.getLsbD 0 }
  | byteBeyondStore (o : Index) (isStore : buf = ⟨.persistent, o, remainingFrom o⟩) (above : 128 < o.toNat)
      (more : (s.byteIndex + 1).toNat < buf.len.toNat)
      (beyond : 128 ≤ (o + (s.byteIndex + 1)).toNat) :
      TxResult s buf { s with
        bitIndex := 0, byteIndex := s.byteIndex + 1, accumulator := .val (Config.draw s.draws),
        pendingDriveLow := !(Config.draw s.draws).getLsbD 0, draws := s.draws + 1,
        faults := { s.faults with oobRead := true } }
  | ended (last : s.bitIndex = 7) (continuation : s.continuation = .none) :
      TxResult s buf { s with
        phase := .idle, bitIndex := 0, byteIndex := s.byteIndex + 1, pendingDriveLow := false }
  | storeOpened (o : Index) (x : Byte) (selected : s.selected = true) (below : o.toNat < 128)
      (held : s.byteAt .persistent o = some x) :
      TxResult s buf { s with
        activeBuffer := .val ⟨.persistent, o, remainingFrom o⟩, bitIndex := 0, byteIndex := 0,
        continuation := .none, accumulator := .val x, pendingDriveLow := !x.getLsbD 0 }
  | storeEmpty (o : Index) (last : s.bitIndex = 7) :
      TxResult s buf { s with
        phase := .idle, activeBuffer := .val ⟨.persistent, o, 0⟩, bitIndex := 0, byteIndex := 0,
        continuation := .none, pendingDriveLow := false }
  | storeOpenedBeyond (o : Index) (selected : s.selected = true) (above : 128 < o.toNat) :
      TxResult s buf { s with
        activeBuffer := .val ⟨.persistent, o, remainingFrom o⟩, bitIndex := 0, byteIndex := 0,
        continuation := .none, accumulator := .val (Config.draw s.draws),
        pendingDriveLow := !(Config.draw s.draws).getLsbD 0, draws := s.draws + 1,
        faults := { s.faults with oobRead := true } }

/-! ### The results are all there are -/

/-- R61: with the identifier whole, every index below 8 holds a byte. -/
theorem SpacesWf.identifier_held {s : State} (h : SpacesWf s) {i : Index} (hi : i.toNat < 8) :
    ∃ x, s.byteAt .identifier i = some x := by
  obtain ⟨-, hwf, hlen, -, -⟩ := h
  obtain ⟨x, hx⟩ := Option.ne_none_iff_exists'.mp (Memory.read_ne_none_of_full hwf hlen hi)
  exact ⟨x, by simp [State.byteAt, Config.idLen, hi, hx]⟩

/-- R62: with the store whole, every index below 128 holds a byte. -/
theorem SpacesWf.store_held {s : State} (h : SpacesWf s) {i : Index} (hi : i.toNat < 128) :
    ∃ x, s.byteAt .persistent i = some x := by
  obtain ⟨-, -, -, hwf, hlen⟩ := h
  obtain ⟨x, hx⟩ := Option.ne_none_iff_exists'.mp (Memory.read_ne_none_of_full hwf hlen hi)
  exact ⟨x, by simp [State.byteAt, Config.storeSize, hi, hx]⟩

/-- R168: a store transmit from an offset up to 128 ends before the store does. -/
theorem store_index_lt {o i : Index} (ho : o.toNat ≤ 128) (hi : i.toNat < (remainingFrom o).toNat) :
    (o + i).toNat < 128 := by
  rw [remainingFrom_toNat, if_pos ho] at hi
  bv_omega

/-- R161 to R165: a command's procedure, in a device with a whole identifier. -/
theorem runCommand_result (c : Byte) {s : State} (hspaces : SpacesWf s) :
    CommandResult c s (s.runCommand c) := by
  unfold State.runCommand
  obtain ⟨-, hcode⟩ | ⟨hc, hcode⟩ | ⟨-, hcode⟩ | ⟨-, hcode⟩ := commandCode_cases c <;>
    simp only [hcode]
  · obtain ⟨x, hx⟩ := hspaces.identifier_held (i := 0) (by decide)
    rw [State.readIdentifier_eq hx]
    exact .identifierOpened x hx
  · exact .selected hc
  · cases hsel : s.selected with
    | true => rw [State.readMemoryCommand_selected hsel]; exact .addressAwaited hsel
    | false => rw [State.readMemoryCommand_unselected hsel]; exact .ignored
  · exact .ignored

/-- R112: RxBit() in a receive the invariant allows. -/
theorem rxBit_result {s : State} {v : Byte} (b : Bool) (h : Receives s v) (hspaces : SpacesWf s) :
    RxResult b s (s.rxBit b) := by
  by_cases hbit : s.bitIndex = 7
  case neg => rw [rxBit_inside_byte b h.accumulator hbit]; exact .bit v hbit
  obtain ⟨hbuf, hcont, hbyte⟩ | ⟨hbuf, hcont, hsel, hcode, hbyte⟩ := h.shape
  · rw [rxBit_completes_command b h.accumulator hbuf hbit hbyte hcont]
    refine .command v _ h.accumulator hbit hcont (runCommand_result _ ?_)
    obtain ⟨htrans, hrest⟩ := hspaces
    exact ⟨Memory.write_wf _ htrans (by decide), hrest⟩
  obtain hbyte | ⟨hbyte, hlow⟩ := hbyte
  · rw [rxBit_completes_addressLow b h.accumulator hbuf hbit hbyte]
    exact .addressLow _ hbit hcode hbuf hcont hsel
  · obtain ⟨c, hc⟩ := Option.ne_none_iff_exists'.mp hcode
    obtain ⟨lo, hlo⟩ := Option.ne_none_iff_exists'.mp hlow
    rw [rxBit_completes_addressHigh b h.accumulator hbuf hbit hbyte hcont hc hlo]
    exact .addressHigh _ _ hbit hlow hsel

/-- R113: at a byte's end with more to send, the next byte is held by its space or lies beyond the store. -/
theorem txAdvance_result_next_byte {s : State} {buf : Buffer} {v : Byte} (h : Transmits s buf v)
    (hspaces : SpacesWf s) (hbit : s.bitIndex = 7) (hmore : s.byteIndex + 1 ≠ buf.len) :
    TxResult s buf s.txAdvance := by
  have hlt : (s.byteIndex + 1).toNat < buf.len.toNat := by
    have hin := h.inBuffer
    bv_omega
  have hheld : ∀ x, s.byteAt buf.kind (buf.base + (s.byteIndex + 1)) = some x →
      TxResult s buf s.txAdvance := fun x hx => by
    rw [txAdvance_next_byte_of_byteAt h.buffer hbit hmore hx]
    exact .byte x hlt hx
  have hbuf := h.buffer
  obtain ⟨hshape, -⟩ | ⟨hshape, -⟩ | ⟨o, hshape, -⟩ := h.shape <;>
    obtain rfl : buf = _ := Datum.val.inj (hbuf.symm.trans hshape)
  · obtain ⟨x, hx⟩ := hspaces.identifier_held (i := 0 + (s.byteIndex + 1)) (by simpa using hlt)
    exact hheld x hx
  · exact absurd hlt (by have hin := h.inBuffer; bv_omega)
  · by_cases hinside : (o + (s.byteIndex + 1)).toNat < 128
    · obtain ⟨x, hx⟩ := hspaces.store_held hinside
      exact hheld x hx
    · have habove : 128 < o.toNat := by
        by_contra hle
        exact hinside (store_index_lt (by omega) hlt)
      rw [txAdvance_next_byte_beyond_store hbuf hbit hmore (by omega)]
      exact .byteBeyondStore o rfl habove hlt (by omega)

/-- R167: ReadMemoryStep() of a selected device, as TxAdvance() calls it at the end of the checksum byte. -/
theorem txAdvance_result_store {s : State} {buf : Buffer} {lo hi : Byte} (hspaces : SpacesWf s)
    (hphase : s.phase = .transmitting) (hbuf : s.activeBuffer = .val buf) (hbit : s.bitIndex = 7)
    (hlast : s.byteIndex + 1 = buf.len) (hcont : s.continuation = .readMemory)
    (hsel : s.selected = true) (hlo : s.trans.read 1 = some lo) (hhi : s.trans.read 2 = some hi) :
    TxResult s buf s.txAdvance := by
  rw [txAdvance_ends_buffer hbuf hbit hlast, runContinuation_readMemory (by exact hcont),
    readMemoryStep_of_address (by exact hlo) (by exact hhi)]
  obtain hbelow | hend | habove := Nat.lt_trichotomy (offsetOf hi lo).toNat 128
  · obtain ⟨x, hx⟩ := hspaces.store_held hbelow
    have hne : remainingFrom (offsetOf hi lo) ≠ 0 := by rw [Ne, remainingFrom_eq_zero_iff]; omega
    rw [startTransmit_of_byteAt (x := x) _ _ hne (by exact hx), ← hphase]
    exact .storeOpened (offsetOf hi lo) x hsel hbelow hx
  · rw [(remainingFrom_eq_zero_iff _).mpr hend, startTransmit_empty]
    exact .storeEmpty (offsetOf hi lo) hbit
  · have hne : remainingFrom (offsetOf hi lo) ≠ 0 := by rw [Ne, remainingFrom_eq_zero_iff]; omega
    rw [startTransmit_beyond_store _ _ hne (by omega), ← hphase]
    exact .storeOpenedBeyond (offsetOf hi lo) hsel habove

/-- R113: TxAdvance() in a transmit the invariant allows. -/
theorem txAdvance_result {s : State} {buf : Buffer} {v : Byte} (h : Transmits s buf v)
    (hspaces : SpacesWf s) : TxResult s buf s.txAdvance := by
  by_cases hbit : s.bitIndex = 7
  case neg => rw [txAdvance_inside_byte h.accumulator hbit]; exact .bit v hbit h.accumulator
  by_cases hlast : s.byteIndex + 1 = buf.len
  case neg => exact txAdvance_result_next_byte h hspaces hbit hlast
  have hended : s.continuation = .none → TxResult s buf s.txAdvance := fun hcont => by
    rw [txAdvance_ends_buffer h.buffer hbit hlast, runContinuation_none (by exact hcont),
      State.runNone_eq_self (by exact hcont)]
    exact .ended hbit hcont
  obtain ⟨-, hcont⟩ | ⟨-, hcont, hsel, hlo, hhi, -⟩ | ⟨-, -, hcont, -⟩ := h.shape
  · exact hended hcont
  · obtain ⟨lo, hlo⟩ := Option.ne_none_iff_exists'.mp hlo
    obtain ⟨hi, hhi⟩ := Option.ne_none_iff_exists'.mp hhi
    exact txAdvance_result_store hspaces h.phase h.buffer hbit hlast hcont hsel hlo hhi
  · exact hended hcont

end Sys2Proof.Machine

/-! The invariant through a transfer (10_state.md R41): every result of a bit is settled, and keeps the form of
T. -/

namespace Sys2Proof.Machine

/-- R115: a transmit that has just been opened on a buffer with a byte to send. -/
theorem Transmits.opened {r : State} {buf : Buffer} {x : Byte} (hphase : r.phase = .transmitting)
    (hbuf : r.activeBuffer = .val buf) (hbit : r.bitIndex = 0) (hbyte : r.byteIndex = 0)
    (hlen : buf.len ≠ 0) (hacc : r.accumulator = .val x) (hpending : r.pendingDriveLow = !x.getLsbD 0)
    (hheld : ∀ y, r.byteAt buf.kind buf.base = some y → x = y) (hshape : TransmitShape r) :
    Transmits r buf x where
  phase := hphase
  buffer := hbuf
  inBuffer := by rw [hbyte]; bv_omega
  accumulator := hacc
  pending := by rw [hbit]; exact hpending
  held := fun y hy => hheld y (by rwa [hbyte, BitVec.ofNat_eq_ofNat, BitVec.add_zero] at hy)
  shape := hshape

/-- R62: the store holds nothing from index 128 on. -/
theorem byteAt_beyond_store {s : State} {i : Index} (h : 128 ≤ i.toNat) : s.byteAt .persistent i = none :=
  if_neg (by simpa [Config.storeSize] using h)

/-- R161 to R165: a command's procedure, run where a command byte has just been stored. -/
theorem CommandResult.settled {c : Byte} {s r : State} (h : CommandResult c s r) (hphase : s.phase = .idle)
    (hcont : s.continuation = .none) (hpending : s.pendingDriveLow = false)
    (hheld : s.trans.read 0 ≠ none) : Settled r := by
  cases h with
  | identifierOpened x held =>
    exact .transmitting ⟨.identifier, 0, 8⟩ x (.opened rfl rfl rfl rfl (by simp) rfl rfl
      (fun y hy => Option.some.inj (held.symm.trans hy)) (.inl ⟨rfl, rfl⟩))
  | selected code => exact .receiving 0 ⟨rfl, rfl, rfl, .inl ⟨rfl, rfl, rfl⟩⟩
  | addressAwaited selected =>
    exact .receiving 0 ⟨rfl, rfl, rfl, .inr ⟨rfl, rfl, selected, hheld, .inl rfl⟩⟩
  | ignored => exact .idle hphase hcont hpending

/-- R112: RxBit() keeps what the invariant asks of a transfer. -/
theorem RxResult.settled {b : Bool} {s r : State} {v : Byte} (h : RxResult b s r) (hs : Receives s v) :
    Settled r := by
  cases h with
  | bit v inside => exact .receiving _ ⟨hs.phase, hs.pending, rfl, hs.shape⟩
  | command v r accumulator last continuation result =>
    exact result.settled rfl rfl hs.pending (by simp [State.commandReceived])
  | addressLow v last held buffer continuation selected =>
    refine .receiving 0 ⟨hs.phase, hs.pending, rfl, .inr ⟨buffer, continuation, selected, ?_, .inr ⟨rfl, ?_⟩⟩⟩
    · rwa [Memory.read_write_other _ _ (by decide)]
    · simp
  | addressHigh v crc last held selected =>
    have hread : ((s.trans.write 2 v).write 3 crc).read 3 = some crc := Memory.read_write_same _ _ _
    refine .transmitting ⟨.transient, 3, 1⟩ crc (.opened rfl rfl rfl rfl (by simp) rfl rfl
      (fun x hx => Option.some.inj (hread.symm.trans hx)) (.inr (.inl ⟨rfl, rfl, selected, ?_, ?_, ?_⟩)))
    · simpa [State.checksumOpened, Memory.read_write] using held
    · simp [State.checksumOpened, Memory.read_write]
    · simp [State.checksumOpened]

/-- R113: TxAdvance() keeps what the invariant asks of a transfer. -/
theorem TxResult.settled {s r : State} {buf : Buffer} {v : Byte} (h : TxResult s buf r)
    (hs : Transmits s buf v) : Settled r := by
  cases h with
  | bit w inside accumulator =>
    obtain rfl : v = w := Datum.val.inj (hs.accumulator.symm.trans accumulator)
    exact .transmitting buf v
      ⟨hs.phase, hs.buffer, hs.inBuffer, hs.accumulator, rfl, hs.held, hs.shape⟩
  | byte x more held =>
    exact .transmitting buf x ⟨hs.phase, hs.buffer, more, rfl, rfl,
      fun y hy => Option.some.inj (held.symm.trans hy), hs.shape⟩
  | byteBeyondStore o isStore above more beyond =>
    refine .transmitting buf _ ⟨hs.phase, hs.buffer, more, rfl, rfl, fun y hy => ?_, hs.shape⟩
    subst isStore
    exact absurd hy (by rw [byteAt_beyond_store beyond]; simp)
  | ended last continuation => exact .idle rfl continuation rfl
  | storeOpened o x selected below held =>
    exact .transmitting ⟨.persistent, o, remainingFrom o⟩ x (.opened hs.phase rfl rfl rfl
      (by rw [Ne, remainingFrom_eq_zero_iff]; omega) rfl rfl
      (fun y hy => Option.some.inj (held.symm.trans hy)) (.inr (.inr ⟨o, rfl, rfl, selected⟩)))
  | storeEmpty o last => exact .idle rfl rfl rfl
  | storeOpenedBeyond o selected above =>
    exact .transmitting ⟨.persistent, o, remainingFrom o⟩ _ (.opened hs.phase rfl rfl rfl
      (by rw [Ne, remainingFrom_eq_zero_iff]; omega) rfl rfl
      (fun y hy => absurd hy (by rw [byteAt_beyond_store (by exact above.le)]; simp))
      (.inr (.inr ⟨o, rfl, rfl, selected⟩)))

/-- R65: a command's procedure writes no byte. -/
theorem CommandResult.trans_eq {c : Byte} {s r : State} (h : CommandResult c s r) : r.trans = s.trans := by
  cases h <;> rfl

/-- R72: RxBit() writes inside T. -/
theorem RxResult.trans_wf {b : Bool} {s r : State} (h : RxResult b s r)
    (hs : s.trans.wf Config.transientSize = true) : r.trans.wf Config.transientSize = true := by
  cases h with
  | bit v inside => exact hs
  | command v r accumulator last continuation result =>
    rw [result.trans_eq]
    exact Memory.write_wf _ hs (by decide)
  | addressLow => exact Memory.write_wf _ hs (by decide)
  | addressHigh => exact Memory.write_wf _ (Memory.write_wf _ hs (by decide)) (by decide)

/-- R65: TxAdvance() writes no byte. -/
theorem TxResult.trans_eq {s r : State} {buf : Buffer} (h : TxResult s buf r) : r.trans = s.trans := by
  cases h <;> rfl

/-- R66: the framer keeps the two read-only spaces whole. -/
theorem SpacesWf.of_shell {s r : State} (h : SpacesWf s) (hshell : Shell s r)
    (htrans : r.trans.wf Config.transientSize = true) : SpacesWf r := by
  obtain ⟨-, hrest⟩ := h
  rw [← hshell.ident, ← hshell.store] at hrest
  exact ⟨htrans, hrest⟩

/-- R117: a settled state, reconciled with the line, has the invariant. -/
theorem Settled.inv_reconcile {r : State} (h : Settled r) (level : Bool) (hspaces : SpacesWf r)
    (hdrive : r.drive = false) (hcmp : r.cmpArmed = false) : Inv (r.reconcile level) := by
  have hhigh : (r.reconcile level).lastLineLevel = true → (r.reconcile level).ovfArmed = false := by
    rintro (rfl : level = true)
    rfl
  cases h with
  | idle phase continuation pending =>
    exact Inv.of_quiet (by simp [phase]) (by simp [phase]) continuation pending (by simp [hdrive, phase])
      (by simp [hcmp, phase]) (by simp [phase]) hhigh (by simp [phase]) hspaces
  | receiving v receives =>
    exact Inv.of_receiving receives.phase receives.pending hdrive hcmp hhigh hspaces
      ⟨v, receives.accumulator⟩ receives.shape
  | transmitting buf v transmits =>
    exact Inv.of_transmitting transmits.phase hdrive hcmp hhigh hspaces buf v transmits.buffer
      transmits.inBuffer transmits.accumulator transmits.pending transmits.held transmits.shape

end Sys2Proof.Machine

/-! All that one event can do to a state that meets the invariant (30_encoding.md R88): move the line level, the
overflow's arming and the restart time; enter Reset; start or end the presence pulse; take one bit. -/

namespace Sys2Proof.Machine

/-- What an event that takes no bit and leaves the state of R40 changes: the line, the overflow's arming, the
restart and the reserved word's fault bit, within the invariant's bounds. -/
structure LineMoved (s t : State) : Prop where
  frame : ∃ level armed start restart faults, t = { s with
    lastLineLevel := level, ovfArmed := armed, tStart := start, tmrRestart := restart, faults := faults }
  faults : ∃ reserved, t.faults = { s.faults with reservedEvent := reserved }
  highDisarmed : t.lastLineLevel = true → t.ovfArmed = false
  presenceDisarmed : s.phase = .presence → t.ovfArmed = false
  resetLow : s.phase = .reset → t.lastLineLevel = false

/-- The effect of an event, by its kind, in a state `s` with the invariant. -/
inductive EventResult (s : State) : Instr → State → Prop
  | lineMoved {i : Instr} {t : State} (moved : LineMoved s t) : EventResult s i t
  | resetEntered (armed : s.ovfArmed = true) (low : s.lastLineLevel = false) :
      EventResult s .evOverflow (State.enterReset { s with ovfArmed := false })
  | pulseStarted {smp : Bool} (phase : s.phase = .reset) (low : s.lastLineLevel = false) :
      EventResult s (.evLine true smp) s.riseReset
  | pulseEnded (armed : s.cmpArmed = true) (phase : s.phase = .presence) :
      EventResult s .evCompare (State.startReceive 0 1 .dispatchCommand
        (State.setPhase .idle (State.release { s with cmpArmed := false })))
  | bitReceived {smp : Bool} {v : Byte} {r : State} (high : s.lastLineLevel = true)
      (receives : Receives s v) (shell : Shell s.fallPrologue r) (result : RxResult smp s.fallPrologue r) :
      EventResult s (.evLine false smp) (r.reconcile smp)
  | bitSent {smp : Bool} {buf : Buffer} {v : Byte} {r : State} (high : s.lastLineLevel = true)
      (transmits : Transmits s buf v) (shell : Shell s.bitDriven r) (result : TxResult s.bitDriven buf r) :
      EventResult s (.evLine false smp) (r.reconcile smp)

/-! ### What the invariant says of a transfer -/

theorem Inv.receives {s : State} (h : Inv s) (hphase : s.phase = .receiving) : ∃ v, Receives s v := by
  obtain ⟨⟨v, hacc⟩, hshape⟩ := h.receive hphase
  exact ⟨v, hphase, h.pendingOnlySending (by simp [hphase]), hacc, hshape⟩

theorem Inv.transmits {s : State} (h : Inv s) (hphase : s.phase = .transmitting) :
    ∃ buf v, Transmits s buf v := by
  obtain ⟨buf, v, hbuf, hacc, hpending, hheld⟩ := h.rules.transmitBit hphase
  obtain ⟨buf', hbuf', hin⟩ := h.rules.byteInBuffer (.inr hphase)
  obtain rfl : buf = buf' := Datum.val.inj (hbuf.symm.trans hbuf')
  exact ⟨buf, v, hphase, hbuf, hin, hacc, hpending, hheld, h.transmit hphase⟩

/-- R41 (e): outside Presence the driver is off. -/
theorem Inv.drive_off {s : State} (h : Inv s) (hphase : s.phase ≠ .presence) : s.drive = false :=
  Bool.eq_false_iff.mpr fun hd => hphase (h.rules.driveIffPresence.mp hd)

/-- R41 (f): outside Presence the compare is not armed. -/
theorem Inv.compare_disarmed {s : State} (h : Inv s) (hphase : s.phase ≠ .presence) : s.cmpArmed = false :=
  Bool.eq_false_iff.mpr fun hc => hphase (h.rules.timerArming.1 hc)

theorem Receives.fallPrologue {s : State} {v : Byte} (h : Receives s v) : Receives s.fallPrologue v :=
  ⟨h.phase, h.pending, h.accumulator, h.shape⟩

theorem Transmits.bitDriven {s : State} {buf : Buffer} {v : Byte} (h : Transmits s buf v) :
    Transmits s.bitDriven buf v :=
  ⟨h.phase, h.buffer, h.inBuffer, h.accumulator, h.pending, h.held, h.shape⟩

/-! ### The cases are all there are -/

/-- An event that leaves a state with the invariant as it is. -/
theorem LineMoved.refl {s : State} (h : Inv s) : LineMoved s s where
  frame := ⟨s.lastLineLevel, s.ovfArmed, s.tStart, s.tmrRestart, s.faults, rfl⟩
  faults := ⟨s.faults.reservedEvent, rfl⟩
  highDisarmed := h.highDisarmed
  presenceDisarmed := h.rules.timerArming.2
  resetLow := h.resetLow

/-- R103 to R107: a falling edge, by state. -/
theorem fallingEdge_result {s : State} (smp : Bool) (h : Inv s) (hhigh : s.lastLineLevel = true) :
    EventResult s (.evLine false smp) (s.fallingEdge smp) := by
  have hpulse : s.phase = .idle ∨ s.phase = .reset → LineMoved s (s.fallingEdge smp) := fun hphase => by
    rw [fallingEdge_takes_no_bit smp hphase]
    exact ⟨⟨false, true, s.now, true, s.faults, rfl⟩, ⟨s.faults.reservedEvent, rfl⟩,
      fun e => absurd e (by simp), fun e => by simp [e] at hphase, fun _ => rfl⟩
  cases hphase : s.phase with
  | idle => exact .lineMoved (hpulse (.inl hphase))
  | reset => exact .lineMoved (hpulse (.inr hphase))
  | presence =>
    rw [fallingEdge_presence smp hphase, State.fallPresence_eq]
    exact .lineMoved ⟨⟨false, s.ovfArmed, s.tStart, s.tmrRestart, s.faults, rfl⟩,
      ⟨s.faults.reservedEvent, rfl⟩, fun e => absurd e (by simp), h.rules.timerArming.2, fun _ => rfl⟩
  | receiving =>
    obtain ⟨v, hv⟩ := h.receives hphase
    rw [fallingEdge_receiving smp hphase]
    exact .bitReceived hhigh hv (rxBit_shell _ _) (rxBit_result smp hv.fallPrologue h.spaces)
  | transmitting =>
    obtain ⟨buf, v, hv⟩ := h.transmits hphase
    rw [fallingEdge_transmitting smp hphase, State.fallPrologue_sendBit]
    exact .bitSent hhigh hv (txAdvance_shell _) (txAdvance_result hv.bitDriven h.spaces)

/-- R109 to R111: a rising edge, by state. -/
theorem risingEdge_result {s : State} (smp : Bool) (h : Inv s) (hlow : s.lastLineLevel = false) :
    EventResult s (.evLine true smp) s.risingEdge := by
  by_cases hreset : s.phase = .reset
  · rw [risingEdge_reset hreset]
    exact .pulseStarted hreset hlow
  by_cases hpresence : s.phase = .presence
  · rw [risingEdge_presence hpresence, State.risePresence_eq]
    exact .lineMoved ⟨⟨true, s.ovfArmed, s.tStart, s.tmrRestart, s.faults, rfl⟩,
      ⟨s.faults.reservedEvent, rfl⟩, fun _ => h.rules.timerArming.2 hpresence, h.rules.timerArming.2,
      fun e => absurd e hreset⟩
  · rw [risingEdge_other hreset hpresence]
    exact .lineMoved ⟨⟨true, false, s.tStart, s.tmrRestart, s.faults, rfl⟩,
      ⟨s.faults.reservedEvent, rfl⟩, fun _ => rfl, fun _ => rfl, fun e => absurd e hreset⟩

/-- R141: an overflow with the invariant is not accepted or a bus reset; a high line has none armed. -/
theorem overflow_result {s t : State} (h : Inv s) (hexec : exec .evOverflow s = .next t) :
    EventResult s .evOverflow t := by
  obtain ⟨-, rfl⟩ | ⟨harmed, hhigh, -⟩ | ⟨harmed, hlow, rfl⟩ := exec_evOverflow_cases hexec
  · exact .lineMoved (.refl h)
  · exact absurd harmed (by simp [h.highDisarmed hhigh])
  · exact .resetEntered harmed hlow

/-- R144: a compare with the invariant is not accepted or ends the pulse; none is armed elsewhere. -/
theorem compare_result {s t : State} (h : Inv s) (hexec : exec .evCompare s = .next t) :
    EventResult s .evCompare t := by
  obtain ⟨-, rfl⟩ | ⟨harmed, hphase, -⟩ | ⟨harmed, hphase, rfl⟩ := exec_evCompare_cases hexec
  · exact .lineMoved (.refl h)
  · exact absurd harmed (by simp [h.compare_disarmed hphase])
  · exact .pulseEnded harmed hphase

/-- R88: the effect of any event word in a state with the invariant. -/
theorem event_result {s t : State} {w : EventWord} (h : Inv s) (hexec : exec (decodeEvent w) s = .next t) :
    EventResult s (decodeEvent w) t := by
  obtain ⟨p, smp, hw⟩ | hw | hw | hw := decodeEvent_cases w <;> rw [hw] at hexec ⊢
  · obtain ⟨-, rfl⟩ | ⟨rfl, hlow, rfl⟩ | ⟨rfl, hhigh, rfl⟩ := exec_evLine_cases hexec
    · exact .lineMoved (.refl h)
    · exact risingEdge_result smp h hlow
    · exact fallingEdge_result smp h hhigh
  · exact overflow_result h hexec
  · exact compare_result h hexec
  · obtain rfl := Host.Outcome.next.inj hexec
    exact .lineMoved ⟨⟨s.lastLineLevel, s.ovfArmed, s.tStart, s.tmrRestart, _, rfl⟩, ⟨true, rfl⟩,
      h.highDisarmed, h.rules.timerArming.2, h.resetLow⟩

/-- A step from a state with the invariant waits or has one of the effects of an event. -/
theorem step_result {s t : State} (h : Inv s) (hstep : step s = .next t) :
    (nextDelivery s.inputs = none ∧ t = s) ∨
    ∃ d, nextDelivery s.inputs = some d ∧ EventResult (s.beginStep d) (decodeEvent d.word) t := by
  obtain hwait | ⟨d, hdelivery, hexec⟩ := step_cases hstep
  · exact .inl hwait
  · exact .inr ⟨d, hdelivery, event_result (h.beginStep d) hexec⟩

end Sys2Proof.Machine

/-! What every step keeps (10_state.md R40 to R43, R49; 60_exceptions.md R143, R203): the invariant, and what follows
from the cases of a step. -/

namespace Sys2Proof.Machine

/-- The invariant bounds the line level and the overflow's arming, and of the restart and the fault bits it says
nothing. -/
theorem LineMoved.inv {s t : State} (h : LineMoved s t) (hs : Inv s) : Inv t := by
  obtain ⟨⟨level, armed, start, restart, faults, rfl⟩, -, hhigh, hpresence, hreset⟩ := h
  obtain ⟨⟨hbit, hin, hrx, htx, hdrive, hcmp, hidle⟩, hspaces, -, -, hpulse, hpending, hcont, hrecv, hsend⟩ := hs
  exact ⟨⟨hbit, hin, hrx, htx, hdrive, ⟨hcmp.1, hpresence⟩, hidle⟩, hspaces, hhigh, hreset, hpulse, hpending,
    hcont, hrecv, hsend⟩

/-- R41: the invariant through every effect of an event. -/
theorem EventResult.inv {s t : State} {i : Instr} (h : EventResult s i t) (hs : Inv s) : Inv t := by
  cases h with
  | lineMoved moved => exact moved.inv hs
  | resetEntered armed low =>
    exact Inv.of_quiet (by simp) (by simp) rfl rfl (by simp) (by simp) (by simp) (by simp) (by simp [low])
      (by simpa [SpacesWf] using hs.spaces)
  | pulseStarted phase low =>
    exact Inv.of_quiet (by simp) (by simp) (hs.continuationOnlyBusy (by simp [phase]) (by simp [phase]))
      (hs.pendingOnlySending (by simp [phase])) (by simp) (by simp) (fun _ => rfl) (fun _ => rfl) (by simp)
      hs.spaces
  | pulseEnded armed phase =>
    exact Inv.of_receiving rfl rfl rfl rfl (fun _ => hs.rules.timerArming.2 phase) hs.spaces ⟨0, rfl⟩
      (.inl ⟨rfl, rfl, rfl⟩)
  | bitReceived high receives shell result =>
    have hphase : s.phase ≠ .presence := by simp [receives.phase]
    exact (result.settled receives.fallPrologue).inv_reconcile _
      (hs.spaces.of_shell (s := s.fallPrologue) shell (result.trans_wf hs.spaces.1))
      (shell.drive.trans (hs.drive_off hphase)) (shell.cmpArmed.trans (hs.compare_disarmed hphase))
  | bitSent high transmits shell result =>
    have hphase : s.phase ≠ .presence := by simp [transmits.phase]
    exact (result.settled transmits.bitDriven).inv_reconcile _
      (hs.spaces.of_shell (s := s.bitDriven) shell (result.trans_eq ▸ hs.spaces.1))
      shell.drive (shell.cmpArmed.trans (hs.compare_disarmed hphase))

/-- Settles O42: a step that waits changes nothing, and every effect of an event keeps the invariant. -/
theorem stepKeepsInv : Obligations.StepKeepsInv := by
  intro s t hinv hstep
  obtain ⟨-, rfl⟩ | ⟨d, -, hresult⟩ := step_result hinv hstep
  · exact hinv
  · exact hresult.inv (hinv.beginStep d)

end Sys2Proof.Machine

/-! What a step from a state with the invariant does not do (10_state.md R43, R49; 60_exceptions.md R143, R203),
from the same cases. -/

namespace Sys2Proof.Machine

/-! ### Model fault bits -/

/-- R203: a command's procedure raises no fault. -/
theorem CommandResult.faults_eq {c : Byte} {s r : State} (h : CommandResult c s r) : r.faults = s.faults := by
  cases h <;> rfl

/-- R203: RxBit() raises no fault. -/
theorem RxResult.faults_eq {b : Bool} {s r : State} (h : RxResult b s r) : r.faults = s.faults := by
  cases h with
  | command v r accumulator last continuation result => exact result.faults_eq
  | bit | addressLow | addressHigh => rfl

/-- R64: the one fault TxAdvance() raises is F_OOB_READ, in a store transmit from above 128. -/
theorem TxResult.faults_eq {s r : State} {buf : Buffer} {v : Byte} (h : TxResult s buf r)
    (hs : Transmits s buf v) :
    r.faults = s.faults ∨
    (r.faults = { s.faults with oobRead := true } ∧ ∃ o : Index, r.phase = .transmitting ∧ 128 < o.toNat ∧
      r.activeBuffer = .val ⟨.persistent, o, remainingFrom o⟩) := by
  cases h with
  | byteBeyondStore o isStore above more beyond =>
    exact .inr ⟨rfl, o, hs.phase, above, isStore ▸ hs.buffer⟩
  | storeOpenedBeyond o selected above => exact .inr ⟨rfl, o, hs.phase, above, rfl⟩
  | bit | byte | ended | storeOpened | storeEmpty => exact .inl rfl

/-- R203: the fault bits through every effect of an event. -/
theorem EventResult.faults_cases {s t : State} {i : Instr} (h : EventResult s i t) :
    (∃ reserved, t.faults = { s.faults with reservedEvent := reserved }) ∨
    (t.faults = { s.faults with oobRead := true } ∧ ∃ o : Index, t.phase = .transmitting ∧ 128 < o.toNat ∧
      t.activeBuffer = .val ⟨.persistent, o, remainingFrom o⟩) := by
  cases h with
  | lineMoved moved => exact .inl moved.faults
  | resetEntered armed low => exact .inl ⟨s.faults.reservedEvent, by simp⟩
  | pulseStarted phase low => exact .inl ⟨s.faults.reservedEvent, rfl⟩
  | pulseEnded armed phase => exact .inl ⟨s.faults.reservedEvent, rfl⟩
  | bitReceived high receives shell result =>
    exact .inl ⟨s.faults.reservedEvent, result.faults_eq⟩
  | bitSent high transmits shell result =>
    obtain heq | hbeyond := result.faults_eq transmits.bitDriven
    · exact .inl ⟨s.faults.reservedEvent, heq⟩
    · exact .inr hbeyond

/-- Settles O43: neither way of changing the fault bits touches F_POISON_READ or F_INTERNAL. -/
theorem noPoisonReadNoInternalFault : Obligations.NoPoisonReadNoInternalFault := by
  intro s t hinv hstep
  obtain ⟨-, rfl⟩ | ⟨d, -, hresult⟩ := step_result hinv hstep
  · exact ⟨rfl, rfl⟩
  obtain ⟨reserved, hfaults⟩ | ⟨hfaults, -⟩ := hresult.faults_cases <;> rw [hfaults] <;> exact ⟨rfl, rfl⟩

/-- Settles O44: of the two ways only the store transmit from above 128 sets F_OOB_READ. -/
theorem oobReadOnlyAboveStore : Obligations.OobReadOnlyAboveStore := by
  intro s t hinv hstep hclear hset
  obtain ⟨-, rfl⟩ | ⟨d, -, hresult⟩ := step_result hinv hstep
  · exact absurd hset (by simp [hclear])
  obtain ⟨reserved, hfaults⟩ | ⟨-, hstore⟩ := hresult.faults_cases
  · exact absurd hset (by simp [hfaults, hclear])
  · exact hstore

/-! ### `selected` -/

/-- R43: only SELECT ALL changes `selected`, and it sets it. -/
theorem CommandResult.selected_cases {c : Byte} {s r : State} (h : CommandResult c s r) :
    r.selected = s.selected ∨ (c = 0xCC ∧ r.selected = true) := by
  cases h with
  | selected code => exact .inr ⟨code, rfl⟩
  | identifierOpened | addressAwaited | ignored => exact .inl rfl

/-- R43: only the last bit of a SELECT ALL byte changes `selected`; T[0] then holds that byte. -/
theorem RxResult.selected_cases {b : Bool} {s r : State} (h : RxResult b s r) :
    r.selected = s.selected ∨
    (r.selected = true ∧ s.bitIndex = 7 ∧ s.continuation = .dispatchCommand ∧ r.trans.read 0 = some 0xCC ∧
      ∃ v, s.accumulator = .val v ∧ setBit v 7 b = 0xCC) := by
  cases h with
  | command v r accumulator last continuation result =>
    obtain heq | ⟨hcode, hset⟩ := result.selected_cases
    · exact .inl heq
    · refine .inr ⟨hset, last, continuation, ?_, v, accumulator, hcode⟩
      rw [result.trans_eq, hcode]
      exact Memory.read_write_same _ _ _
  | bit | addressLow | addressHigh => exact .inl rfl

/-- R43: TxAdvance() leaves `selected`. -/
theorem TxResult.selected_eq {s r : State} {buf : Buffer} (h : TxResult s buf r) :
    r.selected = s.selected := by
  cases h <;> rfl

/-- R43: the two effects of an event that change `selected`. -/
theorem EventResult.selected_cases {s t : State} {i : Instr} (h : EventResult s i t) :
    t.selected = s.selected ∨
    (t.selected = true ∧ (∃ smp v, i = .evLine false smp ∧ s.accumulator = .val v ∧ setBit v 7 smp = 0xCC) ∧
      s.lastLineLevel = true ∧ s.phase = .receiving ∧ s.continuation = .dispatchCommand ∧ s.bitIndex = 7 ∧
      t.trans.read 0 = some 0xCC) ∨
    (t.selected = false ∧ i = .evOverflow ∧ s.ovfArmed = true ∧ s.lastLineLevel = false ∧ t.phase = .reset) := by
  cases h with
  | lineMoved moved =>
    obtain ⟨level, armed, start, restart, faults, rfl⟩ := moved.frame
    exact .inl rfl
  | resetEntered armed low => exact .inr (.inr ⟨rfl, rfl, armed, low, rfl⟩)
  | pulseStarted phase low => exact .inl rfl
  | pulseEnded armed phase => exact .inl rfl
  | bitReceived high receives shell result =>
    obtain heq | ⟨hset, hlast, hcont, hread, v, hacc, hcode⟩ := result.selected_cases
    · exact .inl heq
    · exact .inr (.inl ⟨hset, ⟨_, v, rfl, hacc, hcode⟩, high, receives.phase, hcont, hlast, hread⟩)
  | bitSent high transmits shell result => exact .inl result.selected_eq

/-- Settles O45: of the two effects one sets `selected` and the other clears it. -/
theorem selectedChangesOnlyBySelectAllAndReset : Obligations.SelectedChangesOnlyBySelectAllAndReset := by
  intro s t hinv hstep
  obtain ⟨-, rfl⟩ | ⟨d, hdelivery, hresult⟩ := step_result hinv hstep
  · exact ⟨fun hclear hset => absurd hset (by simp [hclear]), fun hset hclear => absurd hset (by simp [hclear])⟩
  obtain heq | ⟨hset, ⟨smp, v, hword, hacc, hcode⟩, hhigh, hphase, hcont, hbit, hread⟩ |
      ⟨hclear, hword, harmed, hlow, hphase⟩ := hresult.selected_cases
  · replace heq : t.selected = s.selected := heq
    exact ⟨fun hclear hset => absurd hset (by simp [heq, hclear]),
      fun hset hclear => absurd hset (by simp [← heq, hclear])⟩
  · refine ⟨fun _ _ => ⟨d, smp, v, hdelivery, hword, hhigh, hphase, hcont, hbit, hacc, fun k hk => ?bits, ?held⟩,
      fun _ hclear => absurd hset (by simp [hclear])⟩
    case bits => rw [← hcode, setBit_getLsbD v 7 smp k hk]; rfl
    case held => simp only [State.command, hread]
  · exact ⟨fun _ hset => absurd hset (by simp [hclear]), fun _ _ => ⟨d, hdelivery, hword, harmed, hlow, hphase⟩⟩

/-! ### The state of R40 -/

/-- R160 to R165: a command's procedure goes nowhere but to Receiving or Transmitting. -/
theorem CommandResult.phase_cases {c : Byte} {s r : State} (h : CommandResult c s r) :
    r.phase = s.phase ∨ r.phase = .receiving ∨ r.phase = .transmitting := by
  cases h with
  | identifierOpened => exact .inr (.inr rfl)
  | selected => exact .inr (.inl rfl)
  | addressAwaited => exact .inr (.inl rfl)
  | ignored => exact .inl rfl

/-- R112: RxBit() leaves Receiving only at a byte's last bit. -/
theorem RxResult.phase_cases {b : Bool} {s r : State} (h : RxResult b s r) (hs : s.phase = .receiving) :
    r.phase = .receiving ∨ ((r.phase = .idle ∨ r.phase = .transmitting) ∧ s.bitIndex = 7) := by
  cases h with
  | bit v inside => exact .inl hs
  | command v r accumulator last continuation result =>
    obtain heq | hrecv | hsend := result.phase_cases
    · exact .inr ⟨.inl heq, last⟩
    · exact .inl hrecv
    · exact .inr ⟨.inr hsend, last⟩
  | addressLow => exact .inl hs
  | addressHigh v crc last held selected => exact .inr ⟨.inr rfl, last⟩

/-- R113: TxAdvance() leaves Transmitting only at a byte's last bit, for Idle. -/
theorem TxResult.phase_cases {s r : State} {buf : Buffer} (h : TxResult s buf r) :
    r.phase = s.phase ∨ (r.phase = .idle ∧ s.bitIndex = 7) := by
  cases h with
  | ended last continuation => exact .inr ⟨rfl, last⟩
  | storeEmpty o last => exact .inr ⟨rfl, last⟩
  | bit | byte | byteBeyondStore | storeOpened | storeOpenedBeyond => exact .inl rfl

/-- Settles O46: each effect of an event makes its own transition or none. -/
theorem phaseTransitions : Obligations.PhaseTransitions := by
  intro s t d hinv hdelivery hstep hchange
  have hresult : EventResult (s.beginStep d) (decodeEvent d.word) t :=
    event_result (hinv.beginStep d) ((step_of_delivery hdelivery).symm.trans hstep)
  generalize decodeEvent d.word = i at hresult ⊢
  cases hresult with
  | lineMoved moved =>
    obtain ⟨level, armed, start, restart, faults, rfl⟩ := moved.frame
    exact absurd rfl hchange
  | resetEntered armed low =>
    refine .inl ⟨rfl, rfl, fun hpresence => ?_, armed⟩
    exact absurd armed (by simp [hinv.rules.timerArming.2 hpresence])
  | pulseStarted phase low => exact .inr (.inl ⟨phase, rfl, _, rfl⟩)
  | pulseEnded armed phase => exact .inr (.inr (.inl ⟨phase, rfl, rfl⟩))
  | bitReceived high receives shell result =>
    obtain hrecv | ⟨hphase, hlast⟩ := result.phase_cases receives.phase
    · exact absurd (receives.phase.trans hrecv.symm) hchange
    · exact .inr (.inr (.inr (.inl ⟨receives.phase, hphase, hlast, _, rfl⟩)))
  | bitSent high transmits shell result =>
    obtain heq | ⟨hidle, hlast⟩ := result.phase_cases
    · exact absurd heq.symm hchange
    · exact .inr (.inr (.inr (.inr ⟨transmits.phase, hidle, hlast, _, rfl⟩)))

end Sys2Proof.Machine

/-! A device that is not selected does not read the store (20_memory.md R73, 60_exceptions.md R214): every operation
of its steps commutes with putting other contents there. -/

namespace Sys2Proof.Machine

/-- R73: the store holds other contents. -/
def State.withStore (m : Memory) (s : State) : State := { s with store := m }

section
variable {s : State} (m : Memory)

/-- R161 to R164: the procedures of an unselected device do not depend on the store. -/
theorem runCommand_withStore (c : Byte) (hspaces : SpacesWf s) (hsel : s.selected = false) :
    (s.withStore m).runCommand c = (s.runCommand c).withStore m := by
  unfold State.runCommand
  cases commandCode c with
  | readIdentifier =>
    obtain ⟨x, hx⟩ := hspaces.identifier_held (i := 0) (by decide)
    have hx' : (s.withStore m).byteAt .identifier 0 = some x := hx
    simp only [State.readIdentifier_eq hx, State.readIdentifier_eq hx']
    rfl
  | selectAll => rfl
  | readMemory =>
    have hsel' : (s.withStore m).selected = false := hsel
    simp only [State.readMemoryCommand_unselected hsel, State.readMemoryCommand_unselected hsel']
  | unrecognized => rfl

/-- R112: an unselected device receives command bytes only. -/
theorem rxBit_withStore {v : Byte} (b : Bool) (h : Receives s v) (hspaces : SpacesWf s)
    (hsel : s.selected = false) : (s.withStore m).rxBit b = (s.rxBit b).withStore m := by
  by_cases hbit : s.bitIndex = 7
  case neg =>
    rw [rxBit_inside_byte b h.accumulator hbit, rxBit_inside_byte (s := s.withStore m) b h.accumulator hbit]
    rfl
  obtain ⟨hbuf, hcont, hbyte⟩ | ⟨-, -, hsel', -⟩ := h.shape
  · rw [rxBit_completes_command b h.accumulator hbuf hbit hbyte hcont,
      rxBit_completes_command (s := s.withStore m) b h.accumulator hbuf hbit hbyte hcont]
    obtain ⟨htrans, hrest⟩ := hspaces
    exact runCommand_withStore (s := s.commandReceived (setBit v 7 b)) m _
      ⟨Memory.write_wf _ htrans (by decide), hrest⟩ hsel
  · exact absurd hsel' (by simp [hsel])

/-- R113: an unselected device sends its identifier only. -/
theorem txAdvance_withStore {buf : Buffer} {v : Byte} (h : Transmits s buf v) (hspaces : SpacesWf s)
    (hsel : s.selected = false) : (s.withStore m).txAdvance = s.txAdvance.withStore m := by
  obtain ⟨hbuf, hcont⟩ | ⟨-, -, hsel', -⟩ | ⟨-, -, -, hsel'⟩ := h.shape
  case inr.inl => exact absurd hsel' (by simp [hsel])
  case inr.inr => exact absurd hsel' (by simp [hsel])
  by_cases hbit : s.bitIndex = 7
  case neg =>
    rw [txAdvance_inside_byte h.accumulator hbit,
      txAdvance_inside_byte (s := s.withStore m) h.accumulator hbit]
    rfl
  by_cases hlast : s.byteIndex + 1 = 8
  · rw [txAdvance_ends_buffer hbuf hbit hlast, txAdvance_ends_buffer (s := s.withStore m) hbuf hbit hlast,
      runContinuation_none (by exact hcont), runContinuation_none (by exact hcont)]
    rfl
  · have hlt : (0 + (s.byteIndex + 1)).toNat < 8 := by
      obtain rfl : buf = _ := Datum.val.inj (h.buffer.symm.trans hbuf)
      have hin := h.inBuffer
      bv_omega
    obtain ⟨x, hx⟩ := hspaces.identifier_held hlt
    rw [txAdvance_next_byte_of_byteAt hbuf hbit hlast hx,
      txAdvance_next_byte_of_byteAt (s := s.withStore m) hbuf hbit hlast hx]
    rfl

/-- R103 to R107: a falling edge of an unselected device does not depend on the store. -/
theorem fallingEdge_withStore (smp : Bool) (h : Inv s) (hsel : s.selected = false) :
    (s.withStore m).fallingEdge smp = (s.fallingEdge smp).withStore m := by
  cases hphase : s.phase with
  | idle =>
    rw [fallingEdge_takes_no_bit smp (.inl hphase),
      fallingEdge_takes_no_bit (s := s.withStore m) smp (.inl hphase)]
    rfl
  | reset =>
    rw [fallingEdge_takes_no_bit smp (.inr hphase),
      fallingEdge_takes_no_bit (s := s.withStore m) smp (.inr hphase)]
    rfl
  | presence =>
    rw [fallingEdge_presence smp hphase, fallingEdge_presence (s := s.withStore m) smp hphase]
    rfl
  | receiving =>
    obtain ⟨v, hv⟩ := h.receives hphase
    rw [fallingEdge_receiving smp hphase, fallingEdge_receiving (s := s.withStore m) smp hphase]
    exact congrArg (State.reconcile smp) (rxBit_withStore m smp hv.fallPrologue h.spaces hsel)
  | transmitting =>
    obtain ⟨buf, v, hv⟩ := h.transmits hphase
    rw [fallingEdge_transmitting smp hphase, fallingEdge_transmitting (s := s.withStore m) smp hphase,
      State.fallPrologue_sendBit, State.fallPrologue_sendBit]
    exact congrArg (State.reconcile smp) (txAdvance_withStore m hv.bitDriven h.spaces hsel)

/-- R109 to R111: no rising edge depends on the store. -/
theorem risingEdge_withStore : (s.withStore m).risingEdge = s.risingEdge.withStore m := by
  by_cases hreset : s.phase = .reset
  · rw [risingEdge_reset hreset, risingEdge_reset (s := s.withStore m) hreset]
    rfl
  by_cases hpresence : s.phase = .presence
  · rw [risingEdge_presence hpresence, risingEdge_presence (s := s.withStore m) hpresence]
    rfl
  · rw [risingEdge_other hreset hpresence, risingEdge_other (s := s.withStore m) hreset hpresence]
    rfl

end

/-- R142: nor does the bus reset. -/
theorem enterReset_withStore (s : State) (m : Memory) :
    (s.withStore m).enterReset = s.enterReset.withStore m := by
  simp only [State.enterReset_eq]
  rfl

/-- R214: the effect of an event on an unselected device does not depend on the store. -/
theorem exec_event_withStore {s t : State} (m : Memory) {w : EventWord} (h : Inv s) (hsel : s.selected = false)
    (hexec : exec (decodeEvent w) s = .next t) :
    exec (decodeEvent w) (s.withStore m) = .next (t.withStore m) := by
  obtain ⟨p, smp, hw⟩ | hw | hw | hw := decodeEvent_cases w <;> rw [hw] at hexec ⊢
  · obtain ⟨hsame, rfl⟩ | ⟨rfl, hlow, rfl⟩ | ⟨rfl, hhigh, rfl⟩ := exec_evLine_cases hexec
    · exact exec_evLine_same smp hsame
    · rw [exec_rising (s := s.withStore m) smp hlow, risingEdge_withStore]
    · rw [exec_falling (s := s.withStore m) smp hhigh, fallingEdge_withStore m smp h hsel]
  · obtain ⟨harmed, rfl⟩ | ⟨harmed, hhigh, rfl⟩ | ⟨harmed, hlow, rfl⟩ := exec_evOverflow_cases hexec
    · exact exec_evOverflow_unarmed harmed
    · exact exec_evOverflow_high harmed hhigh
    · rw [exec_evOverflow_low (s := s.withStore m) harmed hlow]
      exact congrArg Host.Outcome.next (enterReset_withStore { s with ovfArmed := false } m)
  · obtain ⟨harmed, rfl⟩ | ⟨harmed, hphase, rfl⟩ | ⟨harmed, hphase, rfl⟩ := exec_evCompare_cases hexec
    · exact exec_evCompare_unarmed harmed
    · exact exec_evCompare_elsewhere (s := s.withStore m) harmed hphase
    · exact exec_evCompare_presence (s := s.withStore m) harmed hphase
  · obtain rfl := Host.Outcome.next.inj hexec
    rfl

/-- Settles O47: a step waits or has the effect of an event, whatever the store holds. -/
theorem unselectedStepIgnoresStore : Obligations.UnselectedStepIgnoresStore := by
  intro s t m hinv hsel hstep
  obtain ⟨hnone, rfl⟩ | ⟨d, hdelivery, hexec⟩ := step_cases hstep
  · exact step_of_no_delivery (s := t.withStore m) hnone
  · rw [step_of_delivery (s := { s with store := m }) hdelivery]
    exact exec_event_withStore (s := s.beginStep d) m (hinv.beginStep d) hsel hexec

end Sys2Proof.Machine

/-! What every instruction keeps in every state (00_scope.md R11, 20_memory.md R65, R66, 60_exceptions.md R203):
the read-only spaces, the checksum parameter, the clock, and the model fault bits once set. -/

namespace Sys2Proof.Machine

/-- `t` follows `s` with the read-only spaces, the parameter and the time as they were, and no fault bit cleared. -/
structure Kept (s t : State) : Prop where
  ident : t.ident = s.ident
  store : t.store = s.store
  checksumFn : t.checksumFn = s.checksumFn
  now : t.now = s.now
  oobRead : s.faults.oobRead = true → t.faults.oobRead = true
  reservedEvent : s.faults.reservedEvent = true → t.faults.reservedEvent = true
  poisonRead : s.faults.poisonRead = true → t.faults.poisonRead = true
  internal : s.faults.internal = true → t.faults.internal = true

theorem Kept.refl (s : State) : Kept s s := ⟨rfl, rfl, rfl, rfl, id, id, id, id⟩

theorem Shell.kept {s t : State} (h : Shell s t) : Kept s t :=
  ⟨h.ident, h.store, h.checksumFn, h.now, h.oobRead, h.reservedEvent.trans, h.poisonRead, h.internal⟩

theorem Kept.trans {s t u : State} (h : Kept s t) (k : Kept t u) : Kept s u :=
  ⟨k.ident.trans h.ident, k.store.trans h.store, k.checksumFn.trans h.checksumFn, k.now.trans h.now,
    k.oobRead ∘ h.oobRead, k.reservedEvent ∘ h.reservedEvent, k.poisonRead ∘ h.poisonRead,
    k.internal ∘ h.internal⟩

/-! The updates around the framer touch nothing of this. -/

theorem fallPrologue_kept (s : State) : Kept s s.fallPrologue := ⟨rfl, rfl, rfl, rfl, id, id, id, id⟩

theorem bitDriven_kept (s : State) : Kept s s.bitDriven := ⟨rfl, rfl, rfl, rfl, id, id, id, id⟩

theorem reconcile_kept (s : State) (level : Bool) : Kept s (s.reconcile level) :=
  ⟨rfl, rfl, rfl, rfl, id, id, id, id⟩

/-- R103 to R107, for every state. -/
theorem fallingEdge_kept (smp : Bool) (s : State) : Kept s (s.fallingEdge smp) := by
  cases hphase : s.phase with
  | idle => rw [fallingEdge_idle smp hphase]; exact ⟨rfl, rfl, rfl, rfl, id, id, id, id⟩
  | reset => rw [fallingEdge_reset smp hphase]; exact ⟨rfl, rfl, rfl, rfl, id, id, id, id⟩
  | presence => rw [fallingEdge_presence smp hphase]; exact ⟨rfl, rfl, rfl, rfl, id, id, id, id⟩
  | receiving =>
    rw [fallingEdge_receiving smp hphase]
    exact ((fallPrologue_kept s).trans (rxBit_shell smp _).kept).trans (reconcile_kept _ smp)
  | transmitting =>
    rw [fallingEdge_transmitting smp hphase, State.fallPrologue_sendBit]
    exact ((bitDriven_kept s).trans (txAdvance_shell _).kept).trans (reconcile_kept _ smp)

/-- R109 to R111, for every state. -/
theorem risingEdge_kept (s : State) : Kept s s.risingEdge := by
  unfold State.risingEdge
  split <;> exact ⟨rfl, rfl, rfl, rfl, id, id, id, id⟩

/-- R142: the bus reset, after the overflow has been disarmed. -/
theorem enterReset_kept (s : State) : Kept s (State.enterReset { s with ovfArmed := false }) :=
  ⟨by simp, by simp, by simp, by simp, by simp, by simp, by simp, by simp⟩

/-- R66, R203: every row of the table, in every state. -/
theorem exec_kept {i : Instr} {s t : State} (h : exec i s = .next t) : Kept s t := by
  cases i with
  | evLine p smp =>
    obtain ⟨-, rfl⟩ | ⟨-, -, rfl⟩ | ⟨-, -, rfl⟩ := exec_evLine_cases h
    · exact .refl _
    · exact risingEdge_kept s
    · exact fallingEdge_kept smp s
  | evOverflow =>
    obtain ⟨-, rfl⟩ | ⟨-, -, rfl⟩ | ⟨-, -, rfl⟩ := exec_evOverflow_cases h
    · exact .refl _
    · exact ⟨rfl, rfl, rfl, rfl, id, id, id, id⟩
    · exact enterReset_kept s
  | evCompare =>
    obtain ⟨-, rfl⟩ | ⟨-, -, rfl⟩ | ⟨-, -, rfl⟩ := exec_evCompare_cases h
    · exact .refl _
    · exact ⟨rfl, rfl, rfl, rfl, id, id, id, id⟩
    · exact ⟨rfl, rfl, rfl, rfl, id, id, id, id⟩
  | evReserved =>
    obtain rfl := Host.Outcome.next.inj h
    exact ⟨rfl, rfl, rfl, rfl, id, fun _ => rfl, id, id⟩
  | cmdReadIdentifier => exact Host.Outcome.next.inj h ▸ (readIdentifier_shell s).kept
  | cmdSelectAll => exact Host.Outcome.next.inj h ▸ (selectAll_shell s).kept
  | cmdReadMemory => exact Host.Outcome.next.inj h ▸ (readMemoryCommand_shell s).kept
  | cmdReadMemoryUnselected => exact Host.Outcome.next.inj h ▸ (readMemoryCommand_shell s).kept
  | cmdUnrecognized c => exact Host.Outcome.next.inj h ▸ .refl s

/-- Settles O38: three of the things every row keeps. -/
theorem readOnlySpacesUnwritten : Obligations.ReadOnlySpacesUnwritten :=
  fun _ _ _ hexec => ⟨(exec_kept hexec).ident, (exec_kept hexec).store, (exec_kept hexec).checksumFn⟩

/-- Settles O39: the four bits, through every row. -/
theorem faultBitsSticky : Obligations.FaultBitsSticky :=
  fun _ _ _ hexec => ⟨(exec_kept hexec).oobRead, (exec_kept hexec).reservedEvent,
    (exec_kept hexec).poisonRead, (exec_kept hexec).internal⟩

end Sys2Proof.Machine

/-! Where a transfer starts (10_state.md R42), in every state, poison included: the continuation of a completed buffer
either leaves the buffer alone or opens one at bit 0 of byte 0. -/

namespace Sys2Proof.Machine

/-- A transfer opened at bit 0 of byte 0, by a device that is neither in Reset nor in Presence. -/
structure Opened (s : State) : Prop where
  notReset : s.phase ≠ .reset
  notPresence : s.phase ≠ .presence
  bitIndex : s.bitIndex = 0
  byteIndex : s.byteIndex = 0

/-- All a continuation can do to state and buffer. -/
inductive Continued (s t : State) : Prop
  | kept (phase : t.phase = s.phase) (buffer : t.activeBuffer = s.activeBuffer)
  | opened (pending : s.continuation ≠ .none) (opened : Opened t)

/-- All one bit can do to state and buffer. -/
inductive Framed (s t : State) : Prop
  | kept (phase : t.phase = s.phase ∨ t.phase = .idle) (buffer : t.activeBuffer = s.activeBuffer)
  | opened (last : s.bitIndex = 7) (pending : s.continuation ≠ .none)
      (ends : ∀ buf, s.activeBuffer = .val buf → s.byteIndex + 1 = buf.len) (opened : Opened t)

theorem startReceive_opened (base len : Index) (c : Continuation) (s : State) :
    Opened (s.startReceive base len c) :=
  ⟨by simp, by simp, rfl, rfl⟩

theorem Opened.runNone {s : State} (h : Opened s) : Opened s.runNone :=
  ⟨h.notReset, h.notPresence, h.bitIndex, h.byteIndex⟩

/-- R115: a transmit, opened with a byte to send or completed at once. -/
theorem startTransmit_opened {g : State → State} (hg : ∀ u, Opened u → Opened (g u)) (k : SourceKind)
    (base len : Index) (c : Continuation) (s : State) : Opened (s.startTransmit g k base len c) := by
  unfold State.startTransmit
  split
  · exact hg _ ⟨by simp, by simp, rfl, rfl⟩
  · exact ⟨by simp, by simp, by simp, by simp⟩

theorem readMemoryStep_opened (s : State) : Opened s.readMemoryStep :=
  startTransmit_opened (fun _ => Opened.runNone) _ _ _ _ _

theorem computeChecksumAndRead_opened (s : State) : Opened s.computeChecksumAndRead := by
  unfold State.computeChecksumAndRead
  exact startTransmit_opened (g := State.runReadMemory) (fun u _ => readMemoryStep_opened u.runNone) _ _ _ _ _

theorem readIdentifier_opened (s : State) : Opened s.readIdentifier :=
  startTransmit_opened (fun _ => Opened.runNone) _ _ _ _ _

/-- R160 to R165: a command's procedure opens a transfer or leaves the state. -/
theorem runCommand_eq_or_opened (c : Byte) (s : State) : s.runCommand c = s ∨ Opened (s.runCommand c) := by
  unfold State.runCommand
  cases commandCode c with
  | readIdentifier => exact .inr (readIdentifier_opened s)
  | selectAll => exact .inr (startReceive_opened _ _ _ _)
  | readMemory =>
    cases hsel : s.selected with
    | true => exact .inr (State.readMemoryCommand_selected hsel ▸ startReceive_opened _ _ _ _)
    | false => exact .inl (State.readMemoryCommand_unselected hsel)
  | unrecognized => exact .inl rfl

/-- R160: Dispatch() runs a command's procedure after a read of T[0], which may draw. -/
theorem dispatch_eq (s : State) :
    s.dispatch = (memRead .transient 0 s).2.runCommand (memRead .transient 0 s).1 := rfl

/-- R116: RunContinuation(), by the continuation. -/
theorem runContinuation_continued (s : State) : Continued s s.runContinuation := by
  cases hcont : s.continuation with
  | none => rw [runContinuation_none hcont]; exact .kept rfl rfl
  | dispatchCommand =>
    rw [runContinuation_dispatch hcont, dispatch_eq]
    obtain heq | hopened := runCommand_eq_or_opened (memRead .transient 0 s.runNone).1
      (memRead .transient 0 s.runNone).2
    · rw [heq]; exact .kept (by simp) (by simp)
    · exact .opened (by simp [hcont]) hopened
  | computeChecksumAndRead =>
    rw [runContinuation_checksum hcont]
    exact .opened (by simp [hcont]) (computeChecksumAndRead_opened _)
  | readMemory =>
    rw [runContinuation_readMemory hcont]
    exact .opened (by simp [hcont]) (readMemoryStep_opened _)

/-- R116: a completed buffer `buf`, with the state `u` in which its continuation runs. -/
theorem Continued.framed {s u : State} {buf : Buffer} (h : Continued u u.runContinuation)
    (hphase : u.phase = .idle) (hbuffer : u.activeBuffer = s.activeBuffer)
    (hcont : u.continuation = s.continuation) (hlast : s.bitIndex = 7)
    (hbuf : ∀ b, s.activeBuffer = .val b → buf = b) (hend : s.byteIndex + 1 = buf.len) :
    Framed s u.runContinuation := by
  cases h with
  | kept phase buffer => exact .kept (.inr (phase.trans hphase)) (buffer.trans hbuffer)
  | opened pending opened =>
    exact .opened hlast (hcont ▸ pending) (fun b hb => hbuf b hb ▸ hend) opened

/-- R27: where the active buffer is no poison, a read gives it. -/
theorem readBuffer_eq_of_val {s : State} (b : Buffer) (h : s.activeBuffer = .val b) :
    (readBuffer s).1 = b := by
  rw [readBuffer_val h]

/-- R112: RxBit() in every state. -/
theorem rxBit_framed (b : Bool) (s : State) : Framed s (s.rxBit b) := by
  unfold State.rxBit
  split
  case isFalse => exact .kept (.inl (by simp)) (by simp)
  case isTrue hbit =>
    simp only []
    split
    case isFalse => exact .kept (.inl (by simp)) (by simp)
    case isTrue hend =>
      simp only [State.nextByte_byteIndex, State.setAccumulator_byteIndex, memWrite_byteIndex,
        readBuffer_byteIndex, readAccumulator_byteIndex] at hend
      exact (runContinuation_continued _).framed (by simp) (by simp) (by simp) hbit
        (fun buf hbuf => readBuffer_eq_of_val buf (by simpa using hbuf)) hend

/-- R113: TxAdvance() in every state. -/
theorem txAdvance_framed (s : State) : Framed s s.txAdvance := by
  unfold State.txAdvance
  split
  case isFalse => exact .kept (.inl (by simp)) (by simp)
  case isTrue hbit =>
    simp only []
    split
    case isFalse => exact .kept (.inl (by simp)) (by simp)
    case isTrue hend =>
      simp only [readBuffer_byteIndex, State.nextByte_byteIndex] at hend
      exact (runContinuation_continued _).framed (by simp) (by simp) (by simp) hbit
        (fun buf hbuf => readBuffer_eq_of_val buf (by simpa using hbuf)) hend

/-- R117: reconciling the line level leaves state and buffer. -/
theorem Framed.reconcile {s r : State} (h : Framed s r) (level : Bool) : Framed s (r.reconcile level) := by
  cases h with
  | kept phase buffer => exact .kept phase buffer
  | opened last pending ends opened =>
    exact .opened last pending ends
      ⟨opened.notReset, opened.notPresence, opened.bitIndex, opened.byteIndex⟩

/-- R106: FallPrologue() leaves all that a bit depends on. -/
theorem Framed.of_fallPrologue {s r : State} (h : Framed s.fallPrologue r) : Framed s r := by
  cases h with
  | kept phase buffer => exact .kept phase buffer
  | opened last pending ends opened => exact .opened last pending ends opened

/-- R107: and so does the driver. -/
theorem Framed.of_bitDriven {s r : State} (h : Framed s.bitDriven r) : Framed s r := by
  cases h with
  | kept phase buffer => exact .kept phase buffer
  | opened last pending ends opened => exact .opened last pending ends opened

/-- R103 to R107: a falling edge in every state is a bit of a transfer or leaves state and buffer. -/
theorem fallingEdge_framed (smp : Bool) (s : State) :
    ((s.fallingEdge smp).phase = s.phase ∧ (s.fallingEdge smp).activeBuffer = s.activeBuffer) ∨
    ((s.phase = .receiving ∨ s.phase = .transmitting) ∧ Framed s (s.fallingEdge smp)) := by
  cases hphase : s.phase with
  | idle => rw [fallingEdge_idle smp hphase]; exact .inl ⟨hphase, rfl⟩
  | reset => rw [fallingEdge_reset smp hphase]; exact .inl ⟨hphase, rfl⟩
  | presence => rw [fallingEdge_presence smp hphase]; exact .inl ⟨hphase, rfl⟩
  | receiving =>
    rw [fallingEdge_receiving smp hphase]
    exact .inr ⟨.inl rfl, (rxBit_framed smp _).of_fallPrologue.reconcile smp⟩
  | transmitting =>
    rw [fallingEdge_transmitting smp hphase, State.fallPrologue_sendBit]
    exact .inr ⟨.inr rfl, (txAdvance_framed _).of_bitDriven.reconcile smp⟩

/-- R109 to R111: a rising edge opens no transfer, and enters no state but Presence. -/
theorem risingEdge_phase_buffer (s : State) :
    (s.risingEdge.phase = s.phase ∨ s.risingEdge.phase = .presence) ∧
      s.risingEdge.activeBuffer = s.activeBuffer := by
  by_cases hreset : s.phase = .reset
  · rw [risingEdge_reset hreset]; exact ⟨.inr rfl, rfl⟩
  by_cases hpresence : s.phase = .presence
  · rw [risingEdge_presence hpresence]; exact ⟨.inl rfl, rfl⟩
  · rw [risingEdge_other hreset hpresence]; exact ⟨.inl rfl, rfl⟩

/-- Settles O40: of the events only a compare in Presence and a bit of a transfer reach the buffer. -/
theorem bufferFixedMidExchange : Obligations.BufferFixedMidExchange := by
  intro s t d hdelivery hstep hchange
  rw [step_of_delivery hdelivery] at hstep
  obtain ⟨p, smp, hw⟩ | hw | hw | hw := decodeEvent_cases d.word <;> rw [hw] at hstep ⊢
  · obtain ⟨-, rfl⟩ | ⟨rfl, -, rfl⟩ | ⟨rfl, hhigh, rfl⟩ := exec_evLine_cases hstep
    · exact absurd rfl hchange
    · exact absurd (risingEdge_phase_buffer _).2 hchange
    · obtain ⟨-, hsame⟩ | ⟨hphase, hframed⟩ := fallingEdge_framed smp (s.beginStep d)
      · exact absurd hsame hchange
      · cases hframed with
        | kept phase buffer => exact absurd buffer hchange
        | opened last pending ends opened =>
          exact ⟨opened.bitIndex, opened.byteIndex, .inr ⟨⟨smp, rfl⟩, hhigh, hphase, last, pending, ends⟩⟩
  · obtain ⟨-, rfl⟩ | ⟨-, -, rfl⟩ | ⟨-, -, rfl⟩ := exec_evOverflow_cases hstep
    · exact absurd rfl hchange
    · exact absurd rfl hchange
    · exact absurd (by simp) hchange
  · obtain ⟨-, rfl⟩ | ⟨-, -, rfl⟩ | ⟨harmed, hphase, rfl⟩ := exec_evCompare_cases hstep
    · exact absurd rfl hchange
    · exact absurd rfl hchange
    · exact ⟨rfl, rfl, .inl ⟨rfl, hphase, harmed, rfl, rfl⟩⟩
  · obtain rfl := Host.Outcome.next.inj hstep
    exact absurd rfl hchange

end Sys2Proof.Machine

/-! The timed refinement (41_timer_events.md R146, R148): the window of the overflow and the width of the presence
pulse. -/

namespace Sys2Proof.Machine

/-- R143: from another state only a bus reset enters Reset. -/
theorem enters_reset_only_by_overflow {s t : State} {w : EventWord}
    (hexec : exec (decodeEvent w) s = .next t) (hbefore : s.phase ≠ .reset) (hafter : t.phase = .reset) :
    decodeEvent w = .evOverflow ∧ s.ovfArmed = true ∧ s.lastLineLevel = false := by
  obtain ⟨p, smp, hw⟩ | hw | hw | hw := decodeEvent_cases w <;> rw [hw] at hexec ⊢
  · obtain ⟨-, rfl⟩ | ⟨rfl, -, rfl⟩ | ⟨rfl, -, rfl⟩ := exec_evLine_cases hexec
    · exact absurd hafter hbefore
    · obtain ⟨hsame | hpulse, -⟩ := risingEdge_phase_buffer s
      · exact absurd (hsame.symm.trans hafter) hbefore
      · simp [hpulse] at hafter
    · obtain ⟨hsame, -⟩ | ⟨-, hframed⟩ := fallingEdge_framed smp s
      · exact absurd (hsame.symm.trans hafter) hbefore
      · cases hframed with
        | kept phase buffer => obtain hsame | hidle := phase <;> simp_all
        | opened last pending ends opened => exact absurd hafter opened.notReset
  · obtain ⟨-, rfl⟩ | ⟨-, -, rfl⟩ | ⟨harmed, hlow, -⟩ := exec_evOverflow_cases hexec
    · exact absurd hafter hbefore
    · exact absurd hafter hbefore
    · exact ⟨rfl, harmed, hlow⟩
  · obtain ⟨-, rfl⟩ | ⟨-, -, rfl⟩ | ⟨-, -, rfl⟩ := exec_evCompare_cases hexec
    · exact absurd hafter hbefore
    · exact absurd hafter hbefore
    · simp at hafter
  · obtain rfl := Host.Outcome.next.inj hexec
    exact absurd hafter hbefore

/-- R146: what the timing asks of an overflow. -/
theorem timedEnabled_evOverflow {τ : Config.Timing} {s : State} (h : timedEnabled τ .evOverflow s = true) :
    s.ovfArmed = true ∧ s.tStart + τ.tRst ≤ s.now := by
  simpa [timedEnabled] using h

/-- R146: what the timing asks of a compare. -/
theorem timedEnabled_evCompare {τ : Config.Timing} {s : State} (h : timedEnabled τ .evCompare s = true) :
    s.cmpArmed = true ∧ s.tStart + τ.tPp ≤ s.now := by
  simpa [timedEnabled] using h

/-- R146: the deadlines of the two timer events. -/
theorem withinDeadlines_iff {τ : Config.Timing} {s : State} :
    withinDeadlines τ s = true ↔
      (s.ovfArmed = true → s.now ≤ s.tStart + τ.tRst + τ.eTmr) ∧
      (s.cmpArmed = true → s.now ≤ s.tStart + τ.tPp + τ.eTmr) := by
  cases ho : s.ovfArmed <;> cases hc : s.cmpArmed <;> simp [withinDeadlines, ho, hc]

/-- R141: what an armed overflow does, by the line. -/
theorem exec_evOverflow_armed {s t : State} (harmed : s.ovfArmed = true) (hexec : exec .evOverflow s = .next t) :
    t.ovfArmed = false ∧ t.tStart = s.tStart ∧
      (s.lastLineLevel = false → t.phase = .reset ∧ t.selected = false ∧ t.continuation = .none) ∧
      (s.lastLineLevel = true → t.phase = s.phase ∧ t.selected = s.selected ∧
        t.continuation = s.continuation) := by
  obtain ⟨hunarmed, -⟩ | ⟨-, hhigh, rfl⟩ | ⟨-, hlow, rfl⟩ := exec_evOverflow_cases hexec
  · exact absurd harmed (by simp [hunarmed])
  · exact ⟨rfl, rfl, fun hlow => absurd hhigh (by simp [hlow]), fun _ => ⟨rfl, rfl, rfl⟩⟩
  · exact ⟨rfl, by simp, fun _ => ⟨rfl, rfl, rfl⟩, fun hhigh => absurd hhigh (by simp [hlow])⟩

/-- Settles O49: the deadline bounds every step, the enabling the overflow, and no other event enters Reset. -/
theorem timedOverflowWindow : Obligations.TimedOverflowWindow := by
  rintro τ s t ⟨d, hdelivery, henabled, hdeadlines, hstep⟩
  rw [step_of_delivery hdelivery] at hstep
  have hnow : t.now = (s.beginStep d).now := (exec_kept hstep).now
  have hlatest : s.ovfArmed = true → t.now ≤ s.tStart + τ.tRst + τ.eTmr := by
    rw [hnow]
    exact (withinDeadlines_iff.mp hdeadlines).1
  have hwindow : decodeEvent d.word = .evOverflow →
      s.ovfArmed = true ∧ s.tStart + τ.tRst ≤ t.now ∧ t.now ≤ s.tStart + τ.tRst + τ.eTmr := fun hword => by
    obtain ⟨harmed, hearliest⟩ := timedEnabled_evOverflow (hword ▸ henabled)
    exact ⟨harmed, hnow ▸ hearliest, hlatest harmed⟩
  refine ⟨hlatest, fun d' hdelivery' hword => ?overflow, fun hbefore hafter => ?reset⟩
  case overflow =>
    obtain rfl : d = d' := Option.some.inj (hdelivery.symm.trans hdelivery')
    obtain ⟨harmed, hearliest, hlast⟩ := hwindow hword
    rw [hword] at hstep
    exact ⟨harmed, hearliest, hlast, exec_evOverflow_armed (s := s.beginStep d) harmed hstep⟩
  case reset =>
    obtain ⟨hword, harmed, hlow⟩ := enters_reset_only_by_overflow hstep hbefore hafter
    obtain ⟨-, hearliest, hlast⟩ := hwindow hword
    exact ⟨⟨d, hdelivery, hword⟩, harmed, hlow, hearliest, hlast⟩

/-- Settles O48: in Presence edges only move the line level, no overflow is enabled, and the compare comes inside
its window. -/
theorem presencePulseWidth : Obligations.PresencePulseWidth := by
  rintro τ s t hinv hphase ⟨d, hdelivery, henabled, hdeadlines, hstep⟩
  rw [step_of_delivery hdelivery] at hstep
  have hphase' : (s.beginStep d).phase = .presence := hphase
  have hdrive : s.drive = true := hinv.rules.driveIffPresence.mpr hphase
  obtain ⟨p, smp, hw⟩ | hw | hw | hw := decodeEvent_cases d.word <;> rw [hw] at henabled hstep
  · obtain ⟨-, rfl⟩ | ⟨rfl, -, rfl⟩ | ⟨rfl, -, rfl⟩ := exec_evLine_cases hstep
    · exact .inl ⟨hphase, hdrive, rfl⟩
    · rw [risingEdge_presence hphase']
      exact .inl ⟨hphase, hdrive, rfl⟩
    · rw [fallingEdge_presence smp hphase']
      exact .inl ⟨hphase, hdrive, rfl⟩
  · obtain ⟨harmed, -⟩ := timedEnabled_evOverflow henabled
    exact absurd (harmed : s.ovfArmed = true) (by simp [hinv.rules.timerArming.2 hphase])
  · obtain ⟨harmed, hearliest⟩ := timedEnabled_evCompare henabled
    rw [exec_evCompare_presence harmed hphase'] at hstep
    obtain rfl := Host.Outcome.next.inj hstep
    exact .inr ⟨rfl, rfl, hearliest, (withinDeadlines_iff.mp hdeadlines).2 harmed⟩
  · obtain rfl := Host.Outcome.next.inj hstep
    exact .inl ⟨hphase, hdrive, rfl⟩

end Sys2Proof.Machine

/-! The bus reset as a master makes it (30_encoding.md R90, 41_timer_events.md R148, 42_commands.md R173): the reset
pulse, the presence pulse, and the one state they lead to. -/

namespace Sys2Proof.Machine

/-- A word whose step is known is run first. -/
theorem stepWords_cons {w : EventWord} {ws : List EventWord} {s t : State} (h : stepWord w s = some t) :
    stepWords (w :: ws) s = stepWords ws t := by
  rw [stepWords, h, Option.bind_some]

/-- R111: outside Reset and Presence the word of a rising edge ends the slot. -/
theorem stepWord_rises {s : State} (hreset : s.phase ≠ .reset) (hpresence : s.phase ≠ .presence)
    (hlow : s.lastLineLevel = false) : stepWord 0x3 s = some s.slotEnded := by
  refine stepWord_of_exec (i := .evLine true true) (by decide) ?_
  rw [exec_rising true (by exact hlow), risingEdge_other (by exact hreset) (by exact hpresence)]
  rfl

/-- What a falling edge to a line that stays low leaves of the state before: the overflow armed, whatever else
the transfer did. -/
structure Fallen (s t : State) : Prop where
  low : t.lastLineLevel = false
  armed : t.ovfArmed = true
  kept : Kept s t

/-- R102, R117: after the framer has run, the line level follows the pin, which is low. -/
theorem Shell.fallen {s u r : State} (h : Shell u r) (harmed : u.ovfArmed = true)
    (hkept : Kept s u) : Fallen s (r.reconcile false) where
  low := rfl
  armed := h.ovfArmed.trans harmed
  kept := (hkept.trans h.kept).trans (reconcile_kept r false)

/-- R102 to R107: outside Presence every falling edge starts a reset measurement. -/
theorem fallingEdge_fallen {s : State} (hphase : s.phase ≠ .presence) : Fallen s (s.fallingEdge false) := by
  have hidle : s.phase = .idle ∨ s.phase = .reset → Fallen s (s.fallingEdge false) := fun h => by
    have hkept := fallingEdge_kept false s
    rw [fallingEdge_takes_no_bit false h] at hkept ⊢
    exact ⟨rfl, rfl, hkept⟩
  cases hp : s.phase with
  | idle => exact hidle (.inl hp)
  | reset => exact hidle (.inr hp)
  | presence => exact absurd hp hphase
  | receiving =>
    rw [fallingEdge_receiving false hp]
    exact (rxBit_shell false s.fallPrologue).fallen rfl (fallPrologue_kept s)
  | transmitting =>
    rw [fallingEdge_transmitting false hp, State.fallPrologue_sendBit]
    exact (txAdvance_shell s.bitDriven).fallen rfl (bitDriven_kept s)

/-- R141, R142: the device in Reset, once the overflow of a low line has been taken. -/
def State.resetTaken (s : State) : State := { s with
  phase := .reset, selected := false, continuation := .none, pendingDriveLow := false, bitIndex := 0,
  byteIndex := 0, ovfArmed := false, cmpArmed := false, drive := false, tmrRestart := false,
  emitted := if s.drive then [.release] else [], inputs := [] }

/-- R109: the device in Presence, once the master has released the line. -/
def State.pulseBegun (s : State) : State := { s.resetTaken with
  lastLineLevel := false, drive := true, emitted := [.pullLow], tStart := s.now, tmrRestart := true,
  cmpArmed := true, phase := .presence }

/-- R144: the device ready for a command byte, once the pulse has ended. -/
def State.pulseOver (s : State) : State := { s.pulseBegun with
  cmpArmed := false, drive := false, emitted := [.release], tmrRestart := false, phase := .receiving,
  activeBuffer := .val ⟨.transient, 0, 1⟩, accumulator := .val 0, continuation := .dispatchCommand }

/-- R142: the second word of a reset pulse. -/
theorem stepWord_overflow {s : State} (harmed : s.ovfArmed = true) (hlow : s.lastLineLevel = false) :
    stepWord 0x4 s = some s.resetTaken :=
  stepWord_of_exec (i := .evOverflow) (by decide) (overflowEntersReset _ harmed hlow)

/-- R109: the third word of a reset pulse. -/
theorem stepWord_release {s : State} (hlow : s.lastLineLevel = false) :
    stepWord 0x3 s.resetTaken = some s.pulseBegun :=
  stepWord_of_exec (i := .evLine true true) (by decide) (risingEdgeInReset _ true rfl hlow)

/-- R144: the compare's word. -/
theorem stepWord_compare (s : State) : stepWord 0x8 s.pulseBegun = some s.pulseOver :=
  stepWord_of_exec (i := .evCompare) (by decide) (exec_evCompare_presence rfl rfl)

/-- R111: the line goes high again after the pulse. -/
theorem stepWord_high_after_pulse (s : State) : stepWord 0x3 s.pulseOver = some s.pulseOver.slotEnded :=
  stepWord_rises (by simp [State.pulseOver]) (by simp [State.pulseOver]) rfl

/-- R148: the first word of a reset pulse, from any state but Presence. -/
theorem stepWord_pulse_falls {s : State} (hhigh : s.lastLineLevel = true) (hphase : s.phase ≠ .presence) :
    ∃ t, stepWord 0x0 s = some t ∧ Fallen { s with tmrRestart := false, emitted := [], inputs := [] } t :=
  ⟨_, stepWord_of_exec (decodeEvent_slot false) (exec_falling false (by exact hhigh)),
    fallingEdge_fallen (by exact hphase)⟩

/-- Settles O51: the words one after another; the first brings the line low with the overflow armed. -/
theorem resetPulseLeadsToPresence : Obligations.ResetPulseLeadsToPresence := by
  intro s hhigh hphase
  obtain ⟨t, hstep, hfallen⟩ := stepWord_pulse_falls hhigh hphase
  refine ⟨t.pulseBegun, t.pulseOver, ?_, rfl, rfl, rfl, rfl, stepWord_compare t, rfl, rfl, rfl⟩
  rw [stepWords_cons hstep, stepWords_cons (stepWord_overflow hfallen.armed hfallen.low),
    stepWords_cons (stepWord_release hfallen.low), stepWords]

/-- Settles O52: the state after the pulses is made of what the falling edge kept. -/
theorem resetForgetsExchange : Obligations.ResetForgetsExchange := by
  intro s hhigh hphase
  obtain ⟨t, hstep, hfallen⟩ := stepWord_pulse_falls hhigh hphase
  obtain ⟨hident, hstore, hchecksum, hnow, -⟩ := hfallen.kept
  refine ⟨t, ?_, hstep⟩
  rw [scriptRst, stepWords_cons hstep, stepWords_cons (stepWord_overflow hfallen.armed hfallen.low),
    stepWords_cons (stepWord_release hfallen.low), stepWords_cons (stepWord_compare t),
    stepWords_cons (stepWord_high_after_pulse t), stepWords]
  simp only [State.slotEnded, State.pulseOver, State.pulseBegun, State.resetTaken, hident, hstore, hchecksum,
    hnow]

end Sys2Proof.Machine

/-! A command byte on the bus (30_encoding.md R81, R90; 40_line_events.md R112): eight write slots, each a falling
edge that takes a bit and a return of the line to high. -/

namespace Sys2Proof.Machine

/-- R102: a receiving device in a write slot, before RxBit(). -/
def State.slotFallen (s : State) : State := { s with
  ovfArmed := true, tStart := s.now, tmrRestart := true, emitted := [], inputs := [] }

/-- A slot that starts after another one overwrites what the end of the first one set. -/
theorem State.slotEnded_slotFallen {s : State} (hhigh : s.lastLineLevel = true) :
    s.slotEnded.slotFallen = s.slotFallen := by
  rw [State.slotEnded, ← hhigh]
  rfl

/-- R101, R111, R117: whichever level the sample was, after the slot's second word the line is high. -/
theorem stepWord_slot_closed {r : State} (level : Bool) (hreset : r.phase ≠ .reset)
    (hpresence : r.phase ≠ .presence) : stepWord 0x3 (r.reconcile level) = some r.slotEnded := by
  cases level with
  | true => exact stepWord_slot_end (s := r.reconcile true) rfl
  | false => exact stepWord_rises (s := r.reconcile false) hreset hpresence rfl

/-- R106: the first word of a write slot. -/
theorem stepWord_slot_receiving {s : State} (b : Bool) (hphase : s.phase = .receiving)
    (hhigh : s.lastLineLevel = true) :
    stepWord (if b then 0x1 else 0x0) s = some ((s.slotFallen.rxBit b).reconcile b) :=
  stepWord_of_exec (decodeEvent_slot b) (exec_falling_receiving b (by exact hphase) (by exact hhigh))

/-- R90: a write slot of a receiving device is one RxBit(). -/
theorem stepWords_writeBit {s : State} (b : Bool) (hphase : s.phase = .receiving)
    (hhigh : s.lastLineLevel = true) (hreset : (s.slotFallen.rxBit b).phase ≠ .reset)
    (hpresence : (s.slotFallen.rxBit b).phase ≠ .presence) :
    stepWords (scriptWriteBit b) s = some (s.slotFallen.rxBit b).slotEnded := by
  rw [scriptWriteBit, stepWords_cons (stepWord_slot_receiving b hphase hhigh),
    stepWords_cons (stepWord_slot_closed b hreset hpresence), stepWords]

/-- The device of `s` in the next write slot after the first `n`, with those bits in the accumulator `w`. -/
def State.bitsTaken (w : Byte) (n : Nat) (s : State) : State := { s.slotFallen with
  accumulator := .val w, bitIndex := BitVec.ofNat 3 n }

/-- `u` follows `s` after the first `n` write slots of the byte `c`: of the rest a new slot overwrites all that
may differ. -/
structure ReceivedBits (c : Byte) (s : State) (n : Nat) (w : Byte) (u : State) : Prop where
  bits : ∀ k, k < n → w.getLsbD k = c.getLsbD k
  nextSlot : u.slotFallen = s.bitsTaken w n

section
variable {c v w : Byte} {s u : State} {n : Nat}

/-- A write slot touches neither the state of R40 nor, before RxBit(), the line level. -/
theorem ReceivedBits.phase_eq (h : ReceivedBits c s n w u) : u.phase = s.phase :=
  (congrArg State.phase h.nextSlot :)

theorem ReceivedBits.lastLineLevel_eq (h : ReceivedBits c s n w u) : u.lastLineLevel = s.lastLineLevel :=
  (congrArg State.lastLineLevel h.nextSlot :)

/-- Before the first slot. -/
theorem ReceivedBits.none (hacc : s.accumulator = .val v) (hbit : s.bitIndex = 0) :
    ReceivedBits c s 0 v s where
  bits := fun k hk => absurd hk (by omega)
  nextSlot := by
    rw [State.bitsTaken, ← hacc, show BitVec.ofNat 3 0 = s.bitIndex from hbit.symm]
    rfl

/-- R112: a slot that does not end the byte takes the next bit. -/
theorem ReceivedBits.succ (h : ReceivedBits c s n w u) (hn : n < 7) (hphase : s.phase = .receiving)
    (hhigh : s.lastLineLevel = true) :
    ∃ w' u', stepWords (scriptWriteBit (c.getLsbD n)) u = some u' ∧ ReceivedBits c s (n + 1) w' u' := by
  have hindex : (BitVec.ofNat 3 n).toNat = n := by simp; omega
  have hrx : u.slotFallen.rxBit (c.getLsbD n) =
      ((s.bitsTaken w n).setAccumulator (setBit w (BitVec.ofNat 3 n) (c.getLsbD n))).nextBit := by
    rw [h.nextSlot]
    exact rxBit_inside_byte (s := s.bitsTaken w n) _ rfl
      (show BitVec.ofNat 3 n ≠ 7 by bv_omega)
  have hrecv : (u.slotFallen.rxBit (c.getLsbD n)).phase = .receiving := by rw [hrx]; exact hphase
  refine ⟨setBit w (BitVec.ofNat 3 n) (c.getLsbD n), _,
    stepWords_writeBit _ (h.phase_eq.trans hphase) (h.lastLineLevel_eq.trans hhigh) (by simp [hrecv])
      (by simp [hrecv]), fun k hk => ?bits, ?nextSlot⟩
  case bits =>
    rw [setBit_getLsbD _ _ _ _ (by omega), hindex]
    split
    case isTrue heq => rw [heq]
    case isFalse hne => exact h.bits k (by omega)
  case nextSlot =>
    have hnext : BitVec.ofNat 3 (n + 1) = BitVec.ofNat 3 n + 1 := by bv_omega
    rw [hrx, State.slotEnded_slotFallen (by exact hhigh)]
    simp only [State.bitsTaken, hnext]
    rfl

/-- R112: the first seven slots fill the accumulator from bit 0 up. -/
theorem stepWords_lowBits (hphase : s.phase = .receiving) (hhigh : s.lastLineLevel = true)
    (hacc : s.accumulator = .val v) (hbit : s.bitIndex = 0) (n : Nat) (hn : n ≤ 7) :
    ∃ w u, stepWords ((List.range n).flatMap fun i => scriptWriteBit (c.getLsbD i)) s = some u ∧
      ReceivedBits c s n w u := by
  induction n with
  | zero => exact ⟨v, s, rfl, .none hacc hbit⟩
  | succ n ih =>
    obtain ⟨w, u, hrun, hu⟩ := ih (by omega)
    rw [List.range_succ, List.flatMap_append, stepWords_append, hrun, Option.bind_some, List.flatMap_singleton]
    exact hu.succ hn hphase hhigh

/-- R112: with seven bits of `c` in place, the eighth completes it. -/
theorem ReceivedBits.completes (h : ReceivedBits c s 7 w u) : setBit w 7 (c.getLsbD 7) = c := by
  refine byte_ext fun k hk => ?_
  rw [setBit_getLsbD w 7 _ k hk]
  split
  case isTrue heq => rw [heq]; rfl
  case isFalse hne => exact h.bits k (by simp at hne; omega)

end

/-- R160 to R165: the device is neither in Reset nor in Presence after a command's procedure. -/
theorem runCommand_phase {c : Byte} {s : State} (h : s.phase = .idle) :
    (s.runCommand c).phase ≠ .reset ∧ (s.runCommand c).phase ≠ .presence := by
  obtain heq | hopened := runCommand_eq_or_opened c s
  · rw [heq, h]
    decide
  · exact ⟨hopened.notReset, hopened.notPresence⟩

/-- Settles O53: seven slots fill the accumulator, the eighth completes the byte and runs its procedure. -/
theorem commandOverTheBusRunsDecoded : Obligations.CommandOverTheBusRunsDecoded := by
  intro c s v hphase hhigh hacc hbuf hbit hbyte hcont
  obtain ⟨w, u, hrun, hu⟩ := stepWords_lowBits (c := c) hphase hhigh hacc hbit 7 le_rfl
  have hrx : u.slotFallen.rxBit (c.getLsbD 7) = ((s.bitsTaken w 7).commandReceived c).runCommand c := by
    rw [hu.nextSlot, rxBit_completes_command (s := s.bitsTaken w 7) _ rfl hbuf rfl hbyte hcont, hu.completes]
  obtain ⟨hreset, hpresence⟩ := runCommand_phase (c := c) (s := (s.bitsTaken w 7).commandReceived c) rfl
  refine ⟨s.trans.write 0 c, ((s.bitsTaken w 7).commandReceived c).runCommand c, fun a => ?read,
    exec_decodeCommand _ _ _, ?run⟩
  case read => simp only [Memory.read_write, eq_comm]
  case run =>
    rw [scriptCmd, scriptW8, List.range_succ, List.flatMap_append, stepWords_append, hrun, Option.bind_some,
      List.flatMap_singleton, stepWords_writeBit _ (hu.phase_eq.trans hphase)
        (hu.lastLineLevel_eq.trans hhigh) (hrx ▸ hreset) (hrx ▸ hpresence), hrx]
    rfl

end Sys2Proof.Machine

/-! The order of delivery (60_exceptions.md R209, log entry 10): the first level change among the events pending
together, and no event lost. -/

namespace Sys2Proof.Machine

/-- R86: the level changes are the words below 4. -/
theorem isLineWord_eq (w : EventWord) : isLineWord w = decide (w.toNat < 4) := by
  revert w
  decide

/-- R209: what pends together with the event before it is searched for its first level change; taking that one
out leaves the others. -/
theorem takeLine_spec (is : List Input) :
    (takeLine is = none ∧
      (is.takeWhile fun k => k.dt == 0).find? (fun k => isLineWord k.word) = none) ∨
    ∃ j rest, takeLine is = some (j.word, rest) ∧
      (is.takeWhile fun k => k.dt == 0).find? (fun k => isLineWord k.word) = some j ∧
      (j.word :: rest.map Input.word).Perm (is.map Input.word) := by
  induction is with
  | nil => exact .inl ⟨rfl, rfl⟩
  | cons i is ih =>
    by_cases hdt : i.dt = 0
    case neg => exact .inl ⟨by simp [takeLine, hdt], by simp [hdt]⟩
    by_cases hline : isLineWord i.word = true
    · exact .inr ⟨i, is, by simp [takeLine, hdt, hline], by simp [hdt, hline], .refl _⟩
    · obtain ⟨hnone, hfind⟩ | ⟨j, rest, hsome, hfind, hperm⟩ := ih
      · exact .inl ⟨by simp [takeLine, hdt, hline, hnone], by simp [hdt, hline, hfind]⟩
      · refine .inr ⟨j, i :: rest, by simp [takeLine, hdt, hline, hsome], by simp [hdt, hline, hfind], ?_⟩
        exact (List.Perm.swap _ _ _).trans (hperm.cons _)

/-- R209: the delivery from a list with an event in it, by whether a level change pends with the first. -/
theorem nextDelivery_cons (i : Input) (is : List Input) :
    (nextDelivery (i :: is) = some ⟨i.dt, i.word, is⟩ ∧
      ((i :: is.takeWhile fun k => k.dt == 0).find? (fun k => isLineWord k.word) = some i ∨
        (i :: is.takeWhile fun k => k.dt == 0).find? (fun k => isLineWord k.word) = none)) ∨
    ∃ j rest, nextDelivery (i :: is) = some ⟨i.dt, j.word, rest⟩ ∧
      (i :: is.takeWhile fun k => k.dt == 0).find? (fun k => isLineWord k.word) = some j ∧
      (j.word :: rest.map Input.word).Perm ((i :: is).map Input.word) := by
  by_cases hline : isLineWord i.word = true
  · exact .inl ⟨by simp [nextDelivery, hline], .inl (by simp [hline])⟩
  obtain ⟨hnone, hfind⟩ | ⟨j, rest, hsome, hfind, hperm⟩ := takeLine_spec is
  · exact .inl ⟨by simp [nextDelivery, hline, hnone], .inr (by simp [hline, hfind])⟩
  · refine .inr ⟨j, { i with dt := 0 } :: rest, by simp [nextDelivery, hline, hsome],
      by simp [hline, hfind], ?_⟩
    exact (List.Perm.swap _ _ _).trans (hperm.cons _)

/-- Settles O6: the first event goes first, or the level change found with it does. -/
theorem levelChangeBeforeTimerEvent : Obligations.LevelChangeBeforeTimerEvent := by
  intro i is
  simp only [← isLineWord_eq]
  obtain ⟨hnext, hfind⟩ | ⟨j, rest, hnext, hfind, hperm⟩ := nextDelivery_cons i is
  · refine ⟨_, hnext, rfl, fun j hj => ?_, fun _ => ⟨rfl, rfl⟩, .refl _⟩
    obtain hfirst | hnone := hfind
    · exact congrArg Input.word (Option.some.inj (hfirst.symm.trans hj))
    · exact absurd hj (by simp [hnone])
  · refine ⟨_, hnext, rfl, fun k hk => ?_, fun hlate => ?_, hperm⟩
    · exact congrArg Input.word (Option.some.inj (hfind.symm.trans hk))
    · have hword := List.find?_some hfind
      have hmem := hlate j (List.mem_of_find?_eq_some hfind)
      rw [isLineWord_eq, decide_eq_true_eq] at hword
      omega

end Sys2Proof.Machine

/-! Decoding (30_encoding.md R82 to R87): every byte that decodes is of the table's row it decodes to, and the
encoder's byte decodes to its instruction. -/

namespace Sys2Proof.Machine

/-- What the table says of the instruction `i` that a first byte `b` decodes to on the channel `ch`. -/
structure OfRow (ch : Channel) (sel : Bool) (b : Byte) (i : Instr) : Prop where
  wf : i.wf = true
  guardMet : i.guardMet sel = true
  channel : (tableRow i).channel = ch
  pattern : b &&& (tableRow i).mask = (tableRow i).pattern
  encoded : ch = .command → (encode i).bytes = [b]

/-- R84, R85: the row a command byte takes. -/
theorem decodeCommand_ofRow (sel : Bool) (c : Byte) : OfRow .command sel c (decodeCommand sel c) := by
  obtain ⟨rfl, -⟩ | ⟨rfl, -⟩ | ⟨rfl, -⟩ | ⟨⟨h1, h2, h3⟩, hcode⟩ := commandCode_cases c
  · cases sel <;> exact ⟨rfl, rfl, rfl, rfl, fun _ => rfl⟩
  · cases sel <;> exact ⟨rfl, rfl, rfl, rfl, fun _ => rfl⟩
  · cases sel <;> exact ⟨rfl, rfl, rfl, rfl, fun _ => rfl⟩
  · rw [decodeCommand_unrecognized sel hcode]
    have hwf : (Instr.cmdUnrecognized c).wf = true := by
      simp only [Instr.wf, Bool.and_eq_true, bne_iff_ne]
      exact ⟨⟨h1, h2⟩, h3⟩
    exact ⟨hwf, rfl, rfl, by simp [tableRow], fun _ => rfl⟩

/-- R86: the kind bits of an event word are the pattern of its row. -/
theorem decodeEvent_pattern (w : EventWord) :
    w.setWidth 8 &&& (tableRow (decodeEvent w)).mask = (tableRow (decodeEvent w)).pattern := by
  revert w
  decide

/-- R86, R87: the row an event byte takes. -/
theorem decodeEvent_ofRow (sel : Bool) {b : Byte} (hb : b.toNat < 16) :
    OfRow .event sel b (decodeEvent (b.setWidth 4)) := by
  have hpattern := decodeEvent_pattern (b.setWidth 4)
  rw [show (b.setWidth 4).setWidth 8 = b by bv_omega] at hpattern
  obtain ⟨p, smp, hw⟩ | hw | hw | hw := decodeEvent_cases (b.setWidth 4) <;> rw [hw] at hpattern ⊢ <;>
    exact ⟨rfl, rfl, rfl, hpattern, fun h => nomatch h⟩

/-- R82, R86: all that decodes is an event word of four bits, or a command byte with or without READ MEMORY's
two arguments. -/
theorem decode_ok_cases {ch : Channel} {sel : Bool} {bytes : List Byte} {i : Instr}
    (h : decode ch sel bytes = .ok i) :
    ∃ b rest, bytes = b :: rest ∧
      ((ch = .event ∧ b.toNat < 16 ∧ i = decodeEvent (b.setWidth 4)) ∨
        (ch = .command ∧ i = decodeCommand sel b)) := by
  unfold decode at h
  split at h
  · cases h
  · split at h
    case isTrue hb => exact ⟨_, _, rfl, .inl ⟨rfl, hb, (Except.ok.inj h).symm⟩⟩
    case isFalse => cases h
  · cases h
  · exact ⟨_, _, rfl, .inr ⟨rfl, (Except.ok.inj h).symm⟩⟩
  · split at h
    case isTrue => exact ⟨_, _, rfl, .inr ⟨rfl, (Except.ok.inj h).symm⟩⟩
    case isFalse => cases h
  · cases h

/-- Settles O36: the first byte takes its row, whatever follows it. -/
theorem decodeGivesTheTablesRow : Obligations.DecodeGivesTheTablesRow := by
  intro ch sel bytes i hdecode
  obtain ⟨b, rest, rfl, hrow⟩ := decode_ok_cases hdecode
  have hof : OfRow ch sel b i := by
    obtain ⟨rfl, hb, rfl⟩ | ⟨rfl, rfl⟩ := hrow
    · exact decodeEvent_ofRow sel hb
    · exact decodeCommand_ofRow sel b
  exact ⟨hof.wf, hof.guardMet, hof.channel, b, rest, rfl, hof.pattern, hof.encoded⟩

/-- Settles O35: one byte for each row; the two rows of code 0xF0 are told apart by their guard. -/
theorem decodeOfEncode : Obligations.DecodeOfEncode := by
  intro i sel hwf hguard
  cases i with
  | cmdReadMemory =>
    obtain rfl : sel = true := hguard
    rfl
  | cmdReadMemoryUnselected =>
    obtain rfl : sel = false := by simpa [Instr.guardMet] using hguard
    rfl
  | cmdUnrecognized c =>
    obtain ⟨⟨h1, h2⟩, h3⟩ : (c ≠ 0x33 ∧ c ≠ 0xCC) ∧ c ≠ 0xF0 := by simpa [Instr.wf] using hwf
    exact congrArg Except.ok (decodeCommand_unrecognized sel (by simp only [commandCode, h1, h2, h3, if_false]))
  | evLine p smp => cases p <;> cases smp <;> rfl
  | cmdReadIdentifier | cmdSelectAll | evOverflow | evCompare | evReserved => rfl

end Sys2Proof.Machine

/-! READ MEMORY as a master reads it (42_commands.md R166 to R168): the checksum byte, then the store's tail. -/

namespace Sys2Proof.Machine

/-- A byte of T that `s` holds is still held after any part of a transmit. -/
theorem Undisturbed.trans_read {s t : State} {n : Nat} {x : Byte} (h : Undisturbed s t) (hn : n < 4)
    (hx : s.trans.read n = some x) : t.trans.read n = some x := by
  have hnat : (BitVec.ofNat 16 n : Index).toNat = n := by simp; omega
  simpa [State.byteAt, Config.transientSize, Config.scratchSize, hnat, hn, hx] using
    h.byteAt .transient (BitVec.ofNat 16 n)

section
variable {s u : State} {crc lo hi : Byte}

/-- R167: the state after the last slot of the checksum byte. -/
theorem Sending.slot_ends_checksum (h : Sending s ⟨.transient, 3, 1⟩ 0 crc 7 u)
    (hcont : s.continuation = .readMemory) (hlo : s.trans.read 1 = some lo) (hhi : s.trans.read 2 = some hi) :
    u.slotDriven.txAdvance.slotEnded = ((((u.slotDriven.nextByte.setPhase .idle).setPending
      false).runNone.startTransmit State.runNone .persistent (offsetOf hi lo)
        (remainingFrom (offsetOf hi lo)) .none)).slotEnded := by
  have hend : u.byteIndex + 1 = 1 := by
    have hbyte := h.byteIndex
    bv_omega
  have hbit : u.bitIndex = 7 := BitVec.eq_of_toNat_eq h.bitIndex
  rw [txAdvance_ends_buffer (s := u.slotDriven) h.buffer hbit hend,
    runContinuation_readMemory (by exact h.undisturbed.continuation.trans hcont),
    readMemoryStep_of_address (by exact h.undisturbed.trans_read (by decide) hlo)
      (by exact h.undisturbed.trans_read (by decide) hhi)]

/-- R168: at an offset equal to the store's size nothing follows the checksum. -/
theorem Sending.store_empty (h : Sending s ⟨.transient, 3, 1⟩ 0 crc 7 u)
    (hcont : s.continuation = .readMemory) (hlo : s.trans.read 1 = some lo) (hhi : s.trans.read 2 = some hi)
    (hend : (offsetOf hi lo).toNat = 128) :
    u.slotDriven.txAdvance.slotEnded.phase = .idle ∧ u.slotDriven.txAdvance.slotEnded.continuation = .none ∧
      u.slotDriven.txAdvance.slotEnded.faults = s.faults := by
  rw [h.slot_ends_checksum hcont hlo hhi, (remainingFrom_eq_zero_iff _).mpr hend, startTransmit_empty]
  exact ⟨rfl, rfl, h.undisturbed.faults⟩

/-- R167, R168: below it the store's byte there comes up, in a transmit of its own. -/
theorem Sending.store_opened {x : Byte} (h : Sending s ⟨.transient, 3, 1⟩ 0 crc 7 u)
    (hcont : s.continuation = .readMemory) (hlo : s.trans.read 1 = some lo) (hhi : s.trans.read 2 = some hi)
    (hbelow : (offsetOf hi lo).toNat < 128) (hx : s.byteAt .persistent (offsetOf hi lo) = some x) :
    ∃ r, u.slotDriven.txAdvance.slotEnded = r ∧
      Sending r ⟨.persistent, offsetOf hi lo, remainingFrom (offsetOf hi lo)⟩ 0 x 0 r ∧
      r.continuation = .none ∧ r.faults = s.faults ∧ ∀ i, r.byteAt .persistent i = s.byteAt .persistent i := by
  have hne : remainingFrom (offsetOf hi lo) ≠ 0 := by rw [Ne, remainingFrom_eq_zero_iff]; omega
  have hx' : u.byteAt .persistent (offsetOf hi lo) = some x := (h.undisturbed.byteAt _ _).trans hx
  rw [h.slot_ends_checksum hcont hlo hhi, startTransmit_of_byteAt _ _ hne (by exact hx')]
  exact ⟨_, rfl,
    { phase := rfl, lineHigh := rfl, buffer := rfl, byteIndex := rfl, bitIndex := rfl, accumulator := rfl,
      pending := rfl, undisturbed := ⟨rfl, rfl, rfl, fun _ _ => rfl⟩ },
    rfl, h.undisturbed.faults, h.undisturbed.byteAt .persistent⟩

end

/-- Settles O55: one byte of the checksum's transmit, then the store's transmit to its end if it has a byte. -/
theorem readMemoryReturnsStoreTail : Obligations.ReadMemoryReturnsStoreTail := by
  intro s lo hi crc st hphase hhigh _ hbuf hbit hbyte hacc hpending hcont hlo hhi hle hstore
  have hsending : Sending s ⟨.transient, 3, 1⟩ 0 crc 0 s :=
    { phase := hphase, lineHigh := hhigh, buffer := hbuf, byteIndex := congrArg BitVec.toNat hbyte,
      bitIndex := congrArg BitVec.toNat hbit, accumulator := hacc, pending := hpending
      undisturbed := ⟨rfl, rfl, rfl, fun _ _ => rfl⟩ }
  obtain ⟨u, hread, hu⟩ := hsending.readByte_eq
  rw [← offsetOf_toNat] at hle ⊢
  rw [Nat.add_comm 1, readBytes, hread, Option.bind_some]
  obtain hend | hbelow := hle.eq_or_lt
  · refine ⟨u.slotDriven.txAdvance.slotEnded, ?_, hu.store_empty hcont hlo hhi hend⟩
    rw [hend]
    rfl
  · obtain ⟨r, hr, hopened, hnone, hfaults, hheld⟩ :=
      hu.store_opened hcont hlo hhi hbelow (hstore _ hbelow)
    have hlen : (remainingFrom (offsetOf hi lo)).toNat = 128 - (offsetOf hi lo).toNat := by
      rw [remainingFrom_toNat, if_pos hle]
    have htail : ∀ i : Index, i.toNat < (remainingFrom (offsetOf hi lo)).toNat →
        r.byteAt .persistent (offsetOf hi lo + i) = some (st ((offsetOf hi lo).toNat + i.toNat)) := by
      intro i hlt
      have hinside := store_index_lt hle hlt
      have hsum : (offsetOf hi lo + i).toNat = (offsetOf hi lo).toNat + i.toNat := by
        rw [hlen] at hlt
        bv_omega
      rw [hheld, hstore _ hinside, hsum]
    obtain ⟨v, hrest, hidle, -, hv⟩ := Sending.readBytes_rest
      (f := fun n => st ((offsetOf hi lo).toNat + n)) htail hnone (127 - (offsetOf hi lo).toNat)
      (by simp only [hlen]; omega) hopened
    refine ⟨v, ?_, hidle, hv.continuation.trans hnone, hv.faults.trans hfaults⟩
    rw [show 127 - (offsetOf hi lo).toNat + 1 = 128 - (offsetOf hi lo).toNat by omega] at hrest
    simp only [hr, hrest, Option.map_some, Nat.zero_add]

end Sys2Proof.Machine

/-! A device that is Idle or quiescent (42_commands.md R172, 70_reset_and_hazards.md R232, R245). -/

namespace Sys2Proof.Machine

/-- R103: a slot's first word takes no bit of an Idle device. -/
theorem stepWord_slot_idle {s : State} (b : Bool) (hidle : s.phase = .idle) (hhigh : s.lastLineLevel = true) :
    stepWord (if b then 0x1 else 0x0) s = some { s.slotFallen with lastLineLevel := false } :=
  stepWord_of_exec (decodeEvent_slot b) (fallingEdgeInIdleOrReset _ b (.inl hidle) hhigh)

/-- R111: after the slot's second word only the timer's restart shows that there was one. -/
theorem stepWord_slot_idle_end {s : State} (hidle : s.phase = .idle) :
    stepWord 0x3 { s.slotFallen with lastLineLevel := false } = some s.slotFallen.slotEnded := by
  have hphase : s.slotFallen.phase = .idle := hidle
  exact stepWord_rises (s := { s.slotFallen with lastLineLevel := false }) (by simp [hphase])
    (by simp [hphase]) rfl

/-- R172: a read slot of an Idle device reads 1. -/
theorem readSlot_idle {s : State} (hidle : s.phase = .idle) (hhigh : s.lastLineLevel = true) :
    readSlot s = some (true, s.slotFallen.slotEnded) := by
  rw [readSlot, show stepWord 0x1 s = _ from stepWord_slot_idle true hidle hhigh, Option.bind_some,
    stepWord_slot_idle_end hidle]
  rfl

/-- Settles O50: the two edges of the pulse are a slot, and the strobe that follows is not accepted. -/
theorem shortPulseIsNoReset : Obligations.ShortPulseIsNoReset := by
  intro s hidle hhigh
  have hstrobe : stepWord 0x4 s.slotFallen.slotEnded = some s.slotFallen.slotEnded :=
    stepWord_of_exec (i := .evOverflow) (by decide) (exec_evOverflow_unarmed rfl)
  rw [stepWords_cons (show stepWord 0x0 s = _ from stepWord_slot_idle false hidle hhigh),
    stepWords_cons (stepWord_slot_idle_end hidle), stepWords_cons hstrobe, stepWords, State.slotEnded, ← hhigh]
  rfl

/-- Settles O56: slot by slot. -/
theorem idleDeviceReadsOnes : Obligations.IdleDeviceReadsOnes := by
  intro n
  induction n with
  | zero => exact fun s hidle hhigh => ⟨s, rfl, hidle, hhigh, rfl, rfl⟩
  | succ n ih =>
    intro s hidle hhigh
    obtain ⟨u, hread, hu⟩ := ih s.slotFallen.slotEnded hidle rfl
    refine ⟨u, ?_, hu⟩
    rw [readSlots, readSlot_idle hidle hhigh, Option.bind_some, hread]
    rfl

/-- What a device without a bus reset keeps, and that it drives nothing. -/
structure Silent (s t : State) : Prop where
  idle : t.phase = .idle
  drive : t.drive = false
  emitted : t.emitted = []
  selected : t.selected = s.selected
  trans : t.trans = s.trans
  continuation : t.continuation = s.continuation

/-- R103, R111, R144: no event but an overflow moves an Idle device. -/
theorem exec_idle_silent {s t : State} {w : EventWord} (hidle : s.phase = .idle) (hdrive : s.drive = false)
    (hemitted : s.emitted = []) (hw : decodeEvent w ≠ .evOverflow)
    (hexec : exec (decodeEvent w) s = .next t) : Silent s t := by
  obtain ⟨p, smp, hword⟩ | hword | hword | hword := decodeEvent_cases w <;> rw [hword] at hexec
  · obtain ⟨-, rfl⟩ | ⟨-, -, rfl⟩ | ⟨-, -, rfl⟩ := exec_evLine_cases hexec
    · exact ⟨hidle, hdrive, hemitted, rfl, rfl, rfl⟩
    · rw [risingEdge_other (by simp [hidle]) (by simp [hidle])]
      exact ⟨hidle, hdrive, hemitted, rfl, rfl, rfl⟩
    · rw [fallingEdge_idle smp hidle]
      exact ⟨hidle, hdrive, hemitted, rfl, rfl, rfl⟩
  · exact absurd hword hw
  · obtain ⟨-, rfl⟩ | ⟨-, -, rfl⟩ | ⟨-, hphase, -⟩ := exec_evCompare_cases hexec
    · exact ⟨hidle, hdrive, hemitted, rfl, rfl, rfl⟩
    · exact ⟨hidle, hdrive, hemitted, rfl, rfl, rfl⟩
    · exact absurd hphase (by simp [hidle])
  · obtain rfl := Host.Outcome.next.inj hexec
    exact ⟨hidle, hdrive, hemitted, rfl, rfl, rfl⟩

/-- R200: every word can be taken, and one that is no overflow leaves an Idle device silent. -/
theorem stepWord_idle_silent {s : State} {w : EventWord} (hidle : s.phase = .idle) (hdrive : s.drive = false)
    (hw : decodeEvent w ≠ .evOverflow) : ∃ t, stepWord w s = some t ∧ Silent s t := by
  obtain ⟨t, hexec⟩ := exec_next (decodeEvent w) { s with tmrRestart := false, emitted := [], inputs := [] }
  obtain ⟨h1, h2, h3, h4, h5, h6⟩ := exec_idle_silent (by exact hidle) (by exact hdrive) rfl hw hexec
  exact ⟨t, stepWord_of_exec rfl hexec, h1, h2, h3, h4, h5, h6⟩

/-- Settles O58: word by word. -/
theorem silentUntilFirstReset : Obligations.SilentUntilFirstReset := by
  intro ws
  induction ws with
  | nil => exact fun s hidle hdrive hemitted _ => ⟨s, rfl, hidle, hdrive, hemitted, rfl, rfl, rfl⟩
  | cons w ws ih =>
    intro s hidle hdrive _ hws
    obtain ⟨t, hstep, ht⟩ := stepWord_idle_silent hidle hdrive (hws w List.mem_cons_self)
    obtain ⟨u, hrun, hu1, hu2, hu3, hsel, htrans, hcont⟩ := ih t ht.idle ht.drive ht.emitted
      fun w' hw' => hws w' (List.mem_cons_of_mem _ hw')
    exact ⟨u, (stepWords_cons hstep).trans hrun, hu1, hu2, hu3, hsel.trans ht.selected,
      htrans.trans ht.trans, hcont.trans ht.continuation⟩

/-- Settles O59: nothing is armed and the line is high, so only a falling edge finds work. -/
theorem quiescentTakesOnlyAFallingEdge : Obligations.QuiescentTakesOnlyAFallingEdge := by
  intro s t d hquiet hdelivery hstep
  rw [step_of_delivery hdelivery] at hstep
  have hquiet' : quiescent (s.beginStep d) := hquiet
  obtain ⟨hidle, -, -, hovf, hcmp, hhigh⟩ := hquiet'
  obtain ⟨p, smp, hword⟩ | hword | hword | hword := decodeEvent_cases d.word <;> rw [hword] at hstep ⊢
  · obtain ⟨-, rfl⟩ | ⟨-, hlow, -⟩ | ⟨rfl, -, rfl⟩ := exec_evLine_cases hstep
    · exact .inl ⟨rfl, hquiet⟩
    · exact absurd (hhigh.symm.trans hlow) (by decide)
    · exact .inr (.inr ⟨⟨smp, rfl⟩, fallingEdge_takes_no_bit smp (.inl hidle)⟩)
  · rw [exec_evOverflow_unarmed hovf] at hstep
    exact .inl ⟨(Host.Outcome.next.inj hstep).symm, Host.Outcome.next.inj hstep ▸ hquiet⟩
  · rw [exec_evCompare_unarmed hcmp] at hstep
    exact .inl ⟨(Host.Outcome.next.inj hstep).symm, Host.Outcome.next.inj hstep ▸ hquiet⟩
  · obtain rfl := Host.Outcome.next.inj hstep
    exact .inr (.inl ⟨rfl, rfl, hquiet⟩)

end Sys2Proof.Machine

/-! The CRC-8 of a checksummed message (42_commands.md R170). -/

namespace Sys2Proof.Machine

/-- R170: a bit equal to the lowest bit of the remainder mixes nothing in. -/
theorem crcBit_eq_shift {crc : Byte} {bit : Bool} (h : crc.getLsbD 0 = bit) : crcBit crc bit = crc >>> 1 := by
  simp only [crcBit, h, bne_self_eq_false, Bool.false_eq_true, if_false]

/-- R170: after `n` bits of the remainder itself, what is left is the remainder shifted by `n`. -/
theorem foldl_crcBit_self (crc : Byte) (n : Nat) :
    (List.range n).foldl (fun c i => crcBit c (crc.getLsbD i)) crc = crc >>> n := by
  induction n with
  | zero => simp
  | succ n ih =>
    rw [List.range_succ, List.foldl_append, ih, List.foldl_cons, List.foldl_nil,
      crcBit_eq_shift (by simp), BitVec.shiftRight_add]

/-- R170: a byte equal to the remainder shifts it out. -/
theorem crcByte_self (crc : Byte) : crcByte crc crc = 0 := by
  have hshift := foldl_crcBit_self crc 8
  rw [BitVec.ushiftRight_eq_zero le_rfl] at hshift
  exact hshift

/-- Settles O60: the last byte is the remainder of those before it. -/
theorem checksumOfChecksummedIsZero : Obligations.ChecksumOfChecksummedIsZero := by
  intro bytes
  rw [crc8, List.foldl_append, List.foldl_cons, List.foldl_nil]
  exact crcByte_self (crc8 bytes)

end Sys2Proof.Machine
